-- ==== Sys2Proof/Word.lean ====
section
/-! DEFINITION. The value types of R8 and R12: bytes, bus words, request words, levels and lines. -/

namespace Sys2Proof

/-- `u8` of R8: a command byte, a raw data byte or a parameter byte. -/
abbrev Byte := BitVec 8

/-- `u16` of R8: a word on the 16 data lines, a pixel colour, a window coordinate (R53, R83). -/
abbrev U16 := BitVec 16

/-- One 32-bit word of the request port or of the response (R85, R88). -/
abbrev Word := BitVec 32

/-- `Level := 0 | 1` of R12. -/
inductive Level where
  | low
  | high
  deriving DecidableEq, Repr

/-- `Line := DC | RST | BL` of R12: the three digital outputs of R182. -/
inductive Line where
  | dc
  | rst
  | bl
  deriving DecidableEq, Repr

end Sys2Proof
end

