-- ==== Sys2Proof/Config.lean ====
section
/-! DEFINITION. The parameters of R5, the configuration record, and the free values of the environment
(what the spec leaves to an unconstrained agent or does not give). -/

namespace Sys2Proof

/-- What `draw_pixels` does with a triple outside the canvas: the policy `PIXEL_OOB` of R5 and R152. -/
inductive OobPolicy where
  /-- The request is not admitted (the spec's value for this hardware, R5). -/
  | refuse
  /-- The triple is dropped and the request goes on. -/
  | skip
  /-- The coordinates are sent truncated to 16 bits. -/
  | emit
  deriving DecidableEq, Repr

/-- One entry of `INIT_TABLE`: a command byte and its data bytes (R28). -/
abbrev TableEntry := Byte × List Byte

/-- The configuration record of R5: the construction-time values, and the policy `PIXEL_OOB`. -/
structure Config where
  width     : Nat
  height    : Nat
  hasRst    : Bool
  hasBl     : Bool
  initTable : List TableEntry
  pixelOob  : OobPolicy
  deriving DecidableEq, Repr

/-- Who moves in the next step, and how far. R7 names the agents; R11 gives the two readings of the
sequencer's move; R35 makes the moment a word is accepted or a delay ends an input of the step. The
control lines (R7 (3)) answer within a drive, `lineAnswer`. -/
inductive Turn where
  /-- The host puts its next word on the port, takes a result, or issues its next request (R7 (1)). -/
  | host
  /-- The sequencer performs a whole request (the big-step reading of R11). -/
  | request
  /-- The sequencer performs one event (the small-step reading of R11, R22). -/
  | event
  /-- The transport's far end takes the oldest item of the buffer (R31). -/
  | transport
  /-- Nobody moves: a word is not accepted yet, or a delay has not ended yet (R35). -/
  | stall
  /-- The transport never accepts the pending word, or the delay primitive never returns (R209, U18);
  the model's choice where nothing is pending (assumption 17). -/
  | hang
  deriving DecidableEq, Repr, Inhabited

namespace Config

/-- `DC_CMD_LEVEL` (R5; D3). -/
def dcCmdLevel : Level := .low

/-- `DC_DATA_LEVEL` (R5; D3). -/
def dcDataLevel : Level := .high

/-- `T_RST_MS` (R5). -/
def tRstMs : Nat := 10

/-- `T_SLPOUT_MS` (R5). -/
def tSlpoutMs : Nat := 60

/-- `BUS_BITS` (R5): the width of `U16`. -/
def busBits : Nat := 16

/-- The bounds of R6 on the geometry. -/
def legal (c : Config) : Bool :=
  decide (1 ≤ c.width) && decide (c.width ≤ 65536) && decide (1 ≤ c.height) && decide (c.height ≤ 65536)

/-- The table of R142 is not in the source: a free value (U4, D19). The reset state's `INIT_TABLE`
is this constant, of which nothing can be proved; a claim about `init` is about every table. -/
opaque vendorTable : List TableEntry

/-- The answer of `LineOracle` to the `n`-th drive attempt of a run, when the state lists no answer
for it: unconstrained (R171). -/
opaque lineAnswer : Nat → Bool

/-- The `n`-th free choice of who moves, when the state lists none (R35, U13). -/
opaque freeTurn : Nat → Turn

/-- The reference instance of R5 (480 x 320). That both optional lines are present is the model's
choice (assumption 2); the table is free. -/
def reference : Config :=
  { width := 480, height := 320, hasRst := true, hasBl := true,
    initTable := vendorTable, pixelOob := .refuse }

/-- The command codes R142 (a) lets a table entry have. -/
def tableCodes : List Byte :=
  [0x36, 0x3A, 0xF7, 0xC0, 0xC1, 0xC5, 0xB1, 0xB4, 0xB6, 0xB7, 0xBE, 0xE9, 0xE0, 0xE1]

/-- What R142 (a) to (c) say of a table for this hardware. The step does not demand it: the replay of
R141 is the same for every table. -/
def tableWellFormed (t : List TableEntry) : Bool :=
  t.all (fun e => tableCodes.contains e.1) &&
  t.contains (0x3A, [0x55]) &&
  t.any (fun e => e.1 == 0x36 && e.2.length == 1)

end Config

end Sys2Proof
end

