-- ==== Sys2Proof/Syntax.lean ====
section
/-! DEFINITION. The instructions: the fourteen host operations of R86 and the nineteen wire command
codes of R82, one constructor per row of the opcode table, with the operand types of R12. -/

namespace Sys2Proof

/-- `Colour := u16` in RGB565 (R12, R84). -/
abbrev Colour := U16

/-- `Rect` of R12: top-left coordinate over the integers, size over the naturals. -/
structure Rect where
  x : Int
  y : Int
  w : Nat
  h : Nat
  deriving DecidableEq, Repr

/-- One pixel triple of `draw_pixels` (R87, R152). -/
structure Pixel where
  x      : Int
  y      : Int
  colour : Colour
  deriving DecidableEq, Repr

/-- `DataFormat` of R12 together with the payload it types (R87, R111). -/
inductive Payload where
  /-- `U8`: a raw byte sequence. -/
  | u8 (bytes : List Byte)
  /-- `U16LE`: a pre-materialized word sequence. -/
  | u16le (words : List U16)
  /-- `U16LE_ITER`: a lazily produced word sequence. -/
  | u16leIter (words : List U16)
  /-- `Other(code)`: the element words are carried and never read as data. -/
  | other (code : Byte) (raw : List Word)
  deriving DecidableEq, Repr

/-- One constructor per row of `spec/opcode_table.json`. The first fourteen are requests of the host
port (R86); the other nineteen are command cycles on the bus (R82), carried out at its far end. -/
inductive Instr where
  | sendCommand (bytes : List Byte)
  | sendData (payload : Payload)
  | writeCommand (cmd : Byte)
  | writeData (byte : Byte)
  | writeDataWords (words : List U16)
  | writePixels (colours : List Colour)
  | setAddressWindow (xs ys xe ye : U16)
  | hardReset
  | init
  | clear (colour : Colour)
  | size
  | drawPixels (pixels : List Pixel)
  | fillRegion (rect : Rect) (colours : List Colour)
  | fillSolid (rect : Rect) (colour : Colour)
  | wireColumnAddressSet
  | wireRowAddressSet
  | wireMemoryWrite
  | wireSleepOut
  | wireDisplayOn
  | wireMemoryAccessControl
  | wirePixelFormatSet
  | wireVendorF7
  | wireVendorC0
  | wireVendorC1
  | wireVendorC5
  | wireVendorB1
  | wireVendorB4
  | wireVendorB6
  | wireVendorB7
  | wireVendorBE
  | wireVendorE9
  | wireVendorE0
  | wireVendorE1
  deriving DecidableEq, Repr

end Sys2Proof
end

