-- ==== Sys2Proof/Machine/State.lean ====
section
/-! DEFINITION. The state of R20, the trace of R10, the transport's buffer of R31, the ports of R85 and
R88, the reference sink of R66 (an observer outside the block), and the answers of the environment
(R35). Plain data. -/

namespace Sys2Proof.Machine

/-- A latch of R12: the level of the last successful drive, or `U`. -/
inductive Latch where
  | driven (l : Level)
  /-- Unspecified: never driven, or the last drive failed. -/
  | U
  deriving DecidableEq, Repr

/-- The event alphabet of R10. -/
inductive Event where
  | drive (line : Line) (l : Level)
  | driveFail (line : Line) (l : Level)
  | write (w : U16)
  | delay (ms : Nat)
  deriving DecidableEq, Repr

/-- The status names of R170. -/
inductive Status where
  | ok
  | controlLineFault
  | unsupportedDataFormat
  | unsupportedOverlap
  | badRequest
  deriving DecidableEq, Repr

/-- `result` of R30: a status, and for `size` the two dimensions. -/
structure Result where
  status : Status
  dims   : Option (Nat × Nat)
  deriving DecidableEq, Repr

/-- Marks the model puts between the cycles on their way to the pins, so that the sink's premises of
R71 and U1 stand at the right place of the order of R61. They are not bus cycles. -/
inductive Note where
  /-- An `init` begins. -/
  | initBegin
  /-- An `init` has completed; the flag says whether its table set 16 bits per pixel. -/
  | initEnd (format16 : Bool)
  /-- A request ended in a `ControlLineFault` (R206). -/
  | aborted
  /-- A `hard_reset` request (R71, R144, U17). -/
  | panelReset
  deriving DecidableEq, Repr

/-- An item of the transport's buffer (R31): a cycle `(d, w)` accepted and not yet on the pins, or a
mark. -/
inductive BusItem where
  | cycle (d : Latch) (w : U16)
  | note (n : Note)
  deriving DecidableEq, Repr

/-- The panel's frame memory as far as it is specified: (address, pixel) pairs, addresses strictly
rising; an unlisted address has no specified content (R32, R66). -/
abbrev Memory := List (Nat × U16)

/-- The mode of the sink (R66): `param` holds the command and the parameter bytes collected so far. -/
inductive SinkMode where
  | idle
  | param (c : Byte) (got : List Byte)
  | pixels
  deriving DecidableEq, Repr

/-- An entry of the sink's log (R66, R67): a command with its data bytes, or a data word in mode
`idle`. -/
inductive LogEntry where
  | command (c : Byte) (data : List Byte)
  | stray (w : U16)
  deriving DecidableEq, Repr

/-- The reference sink of R66. `none` in the window or the cursor is the spec's `U`. -/
structure Sink where
  xs : Option U16
  xe : Option U16
  ys : Option U16
  ye : Option U16
  mode : SinkMode
  /-- `(col, row)` of the next pixel word. -/
  cursor : Option (Nat × Nat)
  gram : Memory
  /-- Newest entry first. -/
  log : List LogEntry
  /-- The cycles now arriving belong to an `init` (R71 (a) and (b)). -/
  inInit : Bool
  /-- Traffic whose effect the source does not give has arrived since the last `init` began (U1, U8). -/
  tainted : Bool
  /-- The premises of R71 hold: an `init` that set 16 bits per pixel has completed, and since then no
  command of case (b), no `ControlLineFault` (U1), no `hard_reset` and no new `init` (U17). -/
  configured : Bool
  deriving DecidableEq, Repr

/-- The sequencer position of R22: idle, or the request being performed, the number of its events
already performed, and the number of its payload elements not yet read from the port (R95). -/
inductive Seq where
  | idle
  | busy (req : Instr) (k : Nat) (owed : Nat)
  deriving DecidableEq, Repr

/-- The host (R7 (1), R186): one execution context that issues one request at a time. -/
structure HostSide where
  /-- The requests still to be issued, the next one first, each as its words with its payload. -/
  script : List (List Word)
  /-- The words of the issued request that are not on the port yet. -/
  sending : List Word
  /-- The host waits for a result: how many response words there were when it issued its request. -/
  awaiting : Option Nat
  deriving DecidableEq, Repr

/-- The reasons for which the machine stops. -/
inductive Fault where
  /-- Raised by `step` on the turn `hang` when the next event is a word or a delay: the transport never
  accepts it, or the delay primitive never returns, and the request never completes (R209, U18). Safe:
  no further state is defined. -/
  | requestHung
  deriving DecidableEq, Repr

/-- The reasons for which the model does not admit a run. -/
inductive Refusal where
  /-- Raised by `exec` for an instruction without a meaning, by its mnemonic: none is left. Safe. -/
  | notModelled (mnemonic : String)
  /-- Raised by `execDrawPixels` and by the sequencer's reading of a payload element under the policy
  `PIXEL_OOB = refuse`, for a triple outside the canvas (R5, R152, U5). Safe. -/
  | pixelOutsideCanvas
  /-- Raised by `step` when the geometry is outside the bounds of R6 (U16). Safe. -/
  | illegalConfiguration
  deriving DecidableEq, Repr

/-- The state. Fields of the spec first, then the ports, the far end, and the environment's answers. -/
structure State where
  /-- `WIDTH`, `HEIGHT`, `HAS_RST`, `HAS_BL`, `INIT_TABLE` (R26 to R28) and `PIXEL_OOB` (R5). -/
  cfg : Config
  /-- The command/data select latch (R23). -/
  dc : Latch
  /-- The reset-line latch (R24); stays `U` when the line is absent. -/
  rst : Latch
  /-- The backlight-line latch (R25); stays `U` when the line is absent. -/
  bl : Latch
  /-- The sequencer position (R22). -/
  seq : Seq
  /-- The result of the last request (R30). -/
  result : Result
  /-- The trace, in the order performed (R10). -/
  tr : List Event
  /-- The host (R7 (1)). -/
  host : HostSide
  /-- The words waiting on the request port, the next one first (R85). -/
  port : List Word
  /-- How many words on the port are still the unread payload of an ended request (R92). -/
  discard : Nat
  /-- The response words given so far, in order (R88). -/
  resp : List Word
  /-- The transport's buffer, the oldest item first (R31). -/
  buffer : List BusItem
  /-- The cycles that have reached the pins, in order (R31). -/
  pins : List (Latch × U16)
  /-- The reference sink at the far end of the bus (R66). -/
  sink : Sink
  /-- The answers of `LineOracle` to the drive attempts to come (R35, R171). -/
  lineAnswers : List Bool
  /-- How many drives have been attempted. -/
  drives : Nat
  /-- Who moves in the steps to come (R35). -/
  schedule : List Turn
  /-- How many steps have taken a free turn. -/
  freeMoves : Nat
  deriving DecidableEq, Repr

/-- The sink before any cycle (R66): the window `U`, the mode idle, the frame memory empty. -/
def Sink.fresh : Sink :=
  { xs := none, xe := none, ys := none, ye := none, mode := .idle, cursor := none, gram := [],
    log := [], inInit := false, tainted := false, configured := false }

/-- The state after construction (R34, R200, R201): it drives no line and writes no word. The `result`
is unspecified there; the model names a value (assumption 3). -/
def State.construct (c : Config) : State :=
  { cfg := c, dc := .U, rst := .U, bl := .U, seq := .idle,
    result := { status := .ok, dims := none },
    tr := [], host := { script := [], sending := [], awaiting := none }, port := [], discard := 0,
    resp := [], buffer := [], pins := [], sink := Sink.fresh,
    lineAnswers := [], drives := 0, schedule := [], freeMoves := 0 }

/-- The state after construction of the reference instance (R5, R34). -/
def State.reset : State := State.construct Config.reference

end Sys2Proof.Machine
end

