-- ==== Sys2Proof/Machine/Flags.lean ====
section
/-! DEFINITION. The latches (R23 to R25), the status codes and the response words (R88, R170), and what
the trace says of both: the level of each line and the wire view (R10). The block has no arithmetic
flags. -/

namespace Sys2Proof.Machine

/-- The latch of a line (R9). -/
def State.latch (s : State) : Line → Latch
  | .dc => s.dc
  | .rst => s.rst
  | .bl => s.bl

/-- `level[line] <- v` (R9). -/
def State.setLatch (s : State) (line : Line) (v : Latch) : State :=
  match line with
  | .dc => { s with dc := v }
  | .rst => { s with rst := v }
  | .bl => { s with bl := v }

/-- Whether a line exists: `DC` always, the others as configured (R27, R182). -/
def linePresent (c : Config) : Line → Bool
  | .dc => true
  | .rst => c.hasRst
  | .bl => c.hasBl

/-- The status codes of R88 and R170. -/
def statusCode : Status → Byte
  | .ok => 0x00
  | .controlLineFault => 0x01
  | .unsupportedDataFormat => 0x02
  | .unsupportedOverlap => 0x03
  | .badRequest => 0xFF

/-- The response words of a result (R88): `S0`, and for SIZE `S1 = WIDTH`, `S2 = HEIGHT`. -/
def responseWords (r : Result) : List Word :=
  (statusCode r.status).setWidth 32 ::
    match r.dims with
    | some (w, h) => [BitVec.ofNat 32 w, BitVec.ofNat 32 h]
    | none => []

/-- The latch of `line` after the events of a trace, from the value before them (R9, R171). -/
def latchAfter (line : Line) : Latch → List Event → Latch
  | v, [] => v
  | v, .drive m l :: es => latchAfter line (if m = line then .driven l else v) es
  | v, .driveFail m _ :: es => latchAfter line (if m = line then .U else v) es
  | v, .write _ :: es => latchAfter line v es
  | v, .delay _ :: es => latchAfter line v es

/-- The bus cycles of a trace, from the level of `DC` before it (R10). -/
def wireFrom : Latch → List Event → List (Latch × U16)
  | _, [] => []
  | d, .write w :: es => (d, w) :: wireFrom d es
  | d, .drive m l :: es => wireFrom (if m = .dc then .driven l else d) es
  | d, .driveFail m _ :: es => wireFrom (if m = .dc then .U else d) es
  | d, .delay _ :: es => wireFrom d es

/-- The wire view of a trace (R10): `DC` is `U` before the first event (R34). -/
def wire (tr : List Event) : List (Latch × U16) := wireFrom .U tr

/-- The bus cycles among the items of the buffer, the marks left out. -/
def cyclesOf : List BusItem → List (Latch × U16)
  | [] => []
  | .cycle d w :: is => (d, w) :: cyclesOf is
  | .note _ :: is => cyclesOf is

end Sys2Proof.Machine
end

