-- ==== Sys2Proof/Machine/Operands.lean ====
section
/-! DEFINITION. The pure functions on operands: widening (R54), the byte split of coordinates (R83),
colour packing (R84), the clip arithmetic (R150), the canvas (R50), and the facts of a table (R71,
R142). -/

namespace Sys2Proof.Machine

/-- `zext_16` of a byte (R8, R54). -/
def zext16 (b : Byte) : U16 := b.setWidth 16

/-- `hi8(v) = v[15:8]` (R8). -/
def hi8 (v : U16) : Byte := v.extractLsb' 8 8

/-- `lo8(v) = v[7:0]` (R8). -/
def lo8 (v : U16) : Byte := v.extractLsb' 0 8

/-- A colour seen as its three fields (R84, R156). -/
structure Rgb565 where
  r : BitVec 5
  g : BitVec 6
  b : BitVec 5
  deriving DecidableEq, Repr

/-- `pack(r, g, b) = r[4:0] : g[5:0] : b[4:0]` (R84). -/
def pack (c : Rgb565) : U16 := c.r ++ c.g ++ c.b

/-- `unpack(w) = (w[15:11], w[10:5], w[4:0])` (R84). -/
def unpack (w : U16) : Rgb565 :=
  { r := w.extractLsb' 11 5, g := w.extractLsb' 5 6, b := w.extractLsb' 0 5 }

/-- The wire word of a colour: the packing of its three fields (R123, R156). -/
def wireColour (c : Colour) : U16 := pack (unpack c)

/-- `Region(x0, y0, x1, y1)` of R150: columns [x0, x1), rows [y0, y1). -/
structure Region where
  x0 : Int
  y0 : Int
  x1 : Int
  y1 : Int
  deriving DecidableEq, Repr

/-- `clip(r)` of R150, over the integers; `none` is `Empty`. -/
def clip (c : Config) (r : Rect) : Option Region :=
  let x0 := max r.x 0
  let y0 := max r.y 0
  let x1 := min (r.x + r.w) c.width
  let y1 := min (r.y + r.h) c.height
  if x1 ≤ x0 ∨ y1 ≤ y0 then none else some { x0 := x0, y0 := y0, x1 := x1, y1 := y1 }

/-- `area(Region(x0, y0, x1, y1))` of R150. -/
def Region.area (g : Region) : Nat := ((g.x1 - g.x0) * (g.y1 - g.y0)).toNat

/-- `inside(r)` of R150. -/
def inside (c : Config) (r : Rect) : Bool :=
  decide (0 < r.w) && decide (0 < r.h) && decide (0 ≤ r.x) && decide (0 ≤ r.y) &&
    decide (r.x + r.w ≤ c.width) && decide (r.y + r.h ≤ c.height)

/-- A coordinate on its 16-bit window field; within a legal canvas nothing is lost (R155). -/
def coord (v : Int) : U16 := BitVec.ofInt 16 v

/-- `0 <= x < WIDTH and 0 <= y < HEIGHT` (R152). -/
def onCanvas (c : Config) (p : Pixel) : Bool :=
  decide (0 ≤ p.x) && decide (p.x < c.width) && decide (0 ≤ p.y) && decide (p.y < c.height)

/-- Whether the last entry for 0x3A in a table is `[0x55]`, 16 bits per pixel (R71, R82). -/
def setsFormat16 (t : List TableEntry) : Bool :=
  match (t.filter fun e => e.1 == 0x3A).getLast? with
  | some e => e.2 == [0x55]
  | none => false

/-- Whether the model admits a request (R152, R5): under the policy `refuse` a `draw_pixels` has every
triple on the canvas; every other request is admitted. -/
def admitted (c : Config) (i : Instr) : Bool :=
  match i with
  | .drawPixels ps => if c.pixelOob = .refuse then ps.all (onCanvas c) else true
  | .sendCommand _ | .sendData _ | .writeCommand _ | .writeData _ | .writeDataWords _
  | .writePixels _ | .setAddressWindow _ _ _ _ | .hardReset | .init | .clear _ | .size
  | .fillRegion _ _ | .fillSolid _ _ | .wireColumnAddressSet | .wireRowAddressSet
  | .wireMemoryWrite | .wireSleepOut | .wireDisplayOn | .wireMemoryAccessControl
  | .wirePixelFormatSet | .wireVendorF7 | .wireVendorC0 | .wireVendorC1 | .wireVendorC5
  | .wireVendorB1 | .wireVendorB4 | .wireVendorB6 | .wireVendorB7 | .wireVendorBE
  | .wireVendorE9 | .wireVendorE0 | .wireVendorE1 => true

end Sys2Proof.Machine
end

