-- ==== Sys2Proof/Machine/Sink.lean ====
section
/-! DEFINITION. The reference sink (R66 to R72): the far end of the bus, an observer outside the block.
What it does with a command cycle, a data cycle and the model's marks; and the panel's frame memory it
keeps, in one canonical form. -/

namespace Sys2Proof.Machine

/-! ## The frame memory -/

/-- The address of a pixel: row-major in the 65536 x 65536 coordinate space of R50. -/
def gramAddr (col row : Nat) : Nat := row * 65536 + col

/-- The content of an address; `none` where nothing is specified (R66). -/
def Memory.read : Memory → Nat → Option U16
  | [], _ => none
  | (b, v) :: m, a => if a = b then some v else Memory.read m a

/-- `gram[a] <- v` (R69), keeping the addresses rising. -/
def Memory.write : Memory → Nat → U16 → Memory
  | [], a, v => [(a, v)]
  | (b, u) :: m, a, v =>
    if a < b then (a, v) :: (b, u) :: m
    else if a = b then (a, v) :: m
    else (b, u) :: Memory.write m a v

/-- The canonical form: addresses strictly rising. An unlisted address has no content, so every entry
differs from what an unlisted address reads as. -/
def Memory.wf : Memory → Bool
  | [] => true
  | (a, _) :: m =>
    (match m with
     | [] => true
     | (b, _) :: _ => decide (a < b)) && Memory.wf m

/-! ## What becomes unspecified -/

/-- The frame memory becomes unspecified; the window and the premises of R71 stand (R69, R70, U6,
U12). -/
def Sink.loseFrame (k : Sink) : Sink := { k with gram := [] }

/-- The window and the frame memory become unspecified; the premises of R71 stand (U7). -/
def Sink.losePicture (k : Sink) : Sink := { k.loseFrame with xs := none, xe := none, ys := none, ye := none }

/-- The window and the frame memory become unspecified, and the premises of R71 end (U17, R144,
R202). -/
def Sink.forget (k : Sink) : Sink := { k.losePicture with configured := false }

/-- As `forget`, by traffic whose effect the source does not give (U1, U8): an `init` in which it
happens does not bring the premises of R71 about. -/
def Sink.lose (k : Sink) : Sink := { k.forget with tainted := true }

/-! ## Command cycles (R67) -/

/-- Column address set, 0x2A: four parameters to come; until the fourth, its fields are `U` (R68). -/
def Sink.beginColumn (k : Sink) : Sink :=
  { k with xs := none, xe := none, mode := .param 0x2A [] }

/-- Row address set, 0x2B (R68). -/
def Sink.beginRow (k : Sink) : Sink :=
  { k with ys := none, ye := none, mode := .param 0x2B [] }

/-- The window as `(xs, xe, ys, ye)`, when it is specified and ordered (R69). -/
def Sink.window (k : Sink) : Option (Nat × Nat × Nat × Nat) :=
  match k.xs, k.xe, k.ys, k.ye with
  | some xs, some xe, some ys, some ye =>
    if xs.toNat ≤ xe.toNat ∧ ys.toNat ≤ ye.toNat then some (xs.toNat, xe.toNat, ys.toNat, ye.toNat)
    else none
  | _, _, _, _ => none

/-- Memory write, 0x2C: mode `pixels`, the cursor to `(xs, ys)`, as far as they are specified (R69). -/
def Sink.beginPixels (k : Sink) : Sink :=
  { k with mode := .pixels,
           cursor := match k.xs, k.ys with
                     | some xs, some ys => some (xs.toNat, ys.toNat)
                     | _, _ => none }

/-- The command codes of R82 other than the three the sink acts on: those an `init` sends (R71 (a)). -/
def initCodes : List Byte :=
  [0x11, 0x29, 0x36, 0x3A, 0xF7, 0xC0, 0xC1, 0xC5, 0xB1, 0xB4, 0xB6, 0xB7, 0xBE, 0xE9, 0xE0, 0xE1]

/-- Every other command is logged (R71): inside an `init` a code of the map has no effect on the window
or the frame memory (a); outside one it makes them unspecified (b), and so does, inside one, a code the
map does not have. -/
def Sink.otherCommand (c : Byte) (k : Sink) : Sink :=
  let k := { k with log := .command c [] :: k.log, mode := .param c [] }
  if k.inInit then
    if initCodes.contains c then k else k.lose
  else k.lose

/-- A command cycle selects the command `w[7:0]` and ends what the sink was collecting (R67). -/
def Sink.command (c : Byte) (k : Sink) : Sink :=
  if c = 0x2A then k.beginColumn
  else if c = 0x2B then k.beginRow
  else if c = 0x2C then k.beginPixels
  else k.otherCommand c

/-! ## Data cycles (R67) -/

/-- A data byte of a logged command joins its log entry (R71). -/
def logData (b : Byte) : List LogEntry → List LogEntry
  | .command c data :: log => .command c (data ++ [b]) :: log
  | log => log

/-- A window coordinate of two parameter bytes, high byte first (R68), recorded only under the premises
of R71. -/
def Sink.coordOf (k : Sink) (hi lo : Byte) : Option U16 :=
  if k.configured then some (hi ++ lo) else none

/-- A parameter byte (R67, R68): the fourth of 0x2A and of 0x2B sets the window's fields; a fifth is
data sent without a memory write (U7); a byte of any other command is logged. -/
def Sink.param (c : Byte) (got : List Byte) (b : Byte) (k : Sink) : Sink :=
  let k := { k with mode := .param c (got ++ [b]) }
  if c = 0x2A then
    match got with
    | [p0, p1, p2] => { k with xs := k.coordOf p0 p1, xe := k.coordOf p2 b }
    | _ => if got.length < 4 then k else k.losePicture
  else if c = 0x2B then
    match got with
    | [p0, p1, p2] => { k with ys := k.coordOf p0 p1, ye := k.coordOf p2 b }
    | _ => if got.length < 4 then k else k.losePicture
  else { k with log := logData b k.log }

/-- The cursor after a pixel word (R69): `col + 1`, and past `xe` back to `xs` on the next row. -/
def nextCursor (xs xe col row : Nat) : Nat × Nat :=
  if xe < col + 1 then (xs, row + 1) else (col + 1, row)

/-- A pixel word (R69): stored at the cursor under the premises of R71; past the last position (R70), or
without a specified and ordered window, its effect is unspecified. -/
def Sink.pixel (w : U16) (k : Sink) : Sink :=
  match k.window, k.cursor with
  | some (xs, xe, _, ye), some (col, row) =>
    if row ≤ ye then
      { k with gram := if k.configured then k.gram.write (gramAddr col row) w else k.gram,
               cursor := some (nextCursor xs xe col row) }
    else k.loseFrame
  | _, _ => k.loseFrame

/-- A data cycle (R67): a parameter byte `w[7:0]`, a pixel word, or logged and otherwise ignored. -/
def Sink.data (w : U16) (k : Sink) : Sink :=
  match k.mode with
  | .param c got => k.param c got (lo8 w)
  | .pixels => k.pixel w
  | .idle => { k with log := .stray w :: k.log }

/-! ## Everything that arrives -/

/-- A bus cycle at the sink (R67). A cycle of an unspecified level has an unspecified effect (by R10
there is none in a run). -/
def Sink.cycle (d : Latch) (w : U16) (k : Sink) : Sink :=
  match d with
  | .driven l => if l = Config.dcCmdLevel then k.command (lo8 w) else k.data w
  | .U => k.lose

/-- A mark at the sink: the premises of R71 and the losses of U1 and U17. -/
def Sink.note (n : Note) (k : Sink) : Sink :=
  match n with
  | .initBegin => { k.forget with inInit := true, tainted := false }
  | .initEnd format16 =>
    if format16 && !k.tainted then { k with inInit := false, configured := true }
    else { k.forget with inInit := false }
  | .aborted => { k.lose with inInit := false }
  | .panelReset => k.forget

/-- An item of the buffer at the sink. -/
def Sink.take (k : Sink) (item : BusItem) : Sink :=
  match item with
  | .cycle d w => k.cycle d w
  | .note n => k.note n

/-- The items of a buffer at the sink, the oldest first (R31, R61). -/
def Sink.takeAll (k : Sink) (items : List BusItem) : Sink := items.foldl Sink.take k

end Sys2Proof.Machine
end

