-- ==== Sys2Proof/Machine/Ops.lean ====
section
/-! DEFINITION. The named operations of the sequencer: the primitives `drive`, `write` and `delay` of
R9, the event list of a request (R11, R22), how a request begins, how it ends, and `raise` (R176): the
one operation by which a condition is taken. There is no return from a condition (R177). -/

namespace Sys2Proof.Machine

/-! ## The event list of a request -/

/-- One entry of a request's event list, before it is performed: a drive may succeed or fail (R9). -/
inductive Action where
  | drive (line : Line) (l : Level)
  | write (w : U16)
  | delay (ms : Nat)
  deriving DecidableEq, Repr

/-- What a request's rule gives (R11): the event list, the status when it runs to its end, the two
numbers of `size`, whether its payload is used, and the marks for the sink before and after. -/
structure Plan where
  acts    : List Action
  status  : Status := .ok
  dims    : Option (Nat × Nat) := none
  streams : Bool := false
  opening : List Note := []
  closing : List Note := []
  deriving DecidableEq, Repr

/-! ## Primitives (R9) -/

/-- `emit e` (R9): append to the trace. -/
def State.emit (s : State) (e : Event) : State := { s with tr := s.tr ++ [e] }

/-- Hand an item to the transport's buffer (R31). -/
def State.enqueue (s : State) (items : List BusItem) : State := { s with buffer := s.buffer ++ items }

/-- The answer of `LineOracle` to the drive attempt `j` from now (R171): the state's own list first,
then the free answers of the environment. -/
def State.answerAt (s : State) (j : Nat) : Bool :=
  match s.lineAnswers[j]? with
  | some b => b
  | none => Config.lineAnswer (s.drives + j)

/-- A drive attempt uses up one answer. -/
def State.useAnswer (s : State) : State :=
  { s with lineAnswers := s.lineAnswers.drop 1, drives := s.drives + 1 }

/-- Everything in the buffer reaches the pins and the sink (R31), as R207 (c) requires before a line
other than `DC` changes and before a delay. -/
def State.drain (s : State) : State :=
  { s with pins := s.pins ++ cyclesOf s.buffer, sink := s.sink.takeAll s.buffer, buffer := [] }

/-- What a drive of the line needs of the buffer: nothing for `DC`, whose level goes with each word
(R10); an empty buffer for `RST` and `BL` (R61 (c), R207 (c)). -/
def State.settle (s : State) (line : Line) : State :=
  match line with
  | .dc => s
  | .rst => s.drain
  | .bl => s.drain

/-- `drive(line, l)` of R9; `false` when it raises `ControlLineFault` (R171). -/
def State.drive (s : State) (line : Line) (l : Level) : State × Bool :=
  let t := (s.settle line).useAnswer
  if s.answerAt 0 then ((t.setLatch line (.driven l)).emit (.drive line l), true)
  else ((t.setLatch line .U).emit (.driveFail line l), false)

/-- `write(w)` of R9: the cycle is `(dc, w)`. -/
def State.write (s : State) (w : U16) : State := (s.emit (.write w)).enqueue [.cycle s.dc w]

/-- `delay(ms)` of R9 and R181, in the total order of R61 (c). -/
def State.delay (s : State) (ms : Nat) : State := s.drain.emit (.delay ms)

/-- One entry of an event list (R22); `false` when it raises. -/
def State.perform (s : State) (a : Action) : State × Bool :=
  match a with
  | .drive line l => s.drive line l
  | .write w => (s.write w, true)
  | .delay ms => (s.delay ms, true)

/-- An event list in order, up to its end or the first drive that fails (R9, R176). -/
def State.performAll (s : State) : List Action → State × Bool
  | [] => (s, true)
  | a :: as =>
    match s.perform a with
    | (t, true) => t.performAll as
    | (t, false) => (t, false)

/-! ## Beginning and ending a request -/

/-- A request begins (R22): only the marks for the sink go ahead of its events. -/
def State.openRequest (s : State) (p : Plan) : State := s.enqueue (p.opening.map .note)

/-- The end of a request (R22, R30, R88): `result` and the response are given, `seq` is idle, and the
unread payload words are to be discarded (R92). -/
def State.endRequest (s : State) (r : Result) (unread : Nat) : State :=
  { s with result := r, resp := s.resp ++ responseWords r, seq := .idle, discard := unread }

/-- `raise` (R9, R176): the request ends at once with the condition's status; nothing is saved and no
control is transferred. After a `ControlLineFault` the panel's configuration is unspecified (R206). -/
def State.raise (s : State) (c : Status) (unread : Nat) : State :=
  let t := match c with
    | .controlLineFault => s.enqueue [.note .aborted]
    | .ok | .unsupportedDataFormat | .unsupportedOverlap | .badRequest => s
  t.endRequest { status := c, dims := none } unread

/-- The event list has run to its end: the request returns (R9), or raises the condition its rule puts
there (R172, R173). -/
def State.conclude (s : State) (p : Plan) (unread : Nat) : State :=
  match p.status with
  | .ok => (s.enqueue (p.closing.map .note)).endRequest { status := .ok, dims := p.dims } unread
  | .controlLineFault | .unsupportedDataFormat | .unsupportedOverlap | .badRequest => s.raise p.status unread

/-- The big-step reading of R11: the whole event list, then the end. -/
def State.runPlan (s : State) (p : Plan) : State :=
  match (s.openRequest p).performAll p.acts with
  | (t, true) => t.conclude p 0
  | (t, false) => t.raise .controlLineFault 0

/-- A word that spells no request (R89, R174, R176): `BadRequest`, no event, no further word consumed. -/
def State.badRequest (s : State) : State := s.raise .badRequest 0

end Sys2Proof.Machine
end

