-- ==== Sys2Proof/Machine/Transport.lean ====
section
/-! DEFINITION. The Bus Transport operations: `send_command` (R110) and `send_data` (R111). Each drives
`DC` once, as its first event, whatever its level was (R112). -/

namespace Sys2Proof.Machine

/-- The words `send_data` writes (R111): bytes zero-extended, words as they are, nothing for `Other`. -/
def payloadWords : Payload → List U16
  | .u8 bs => bs.map zext16
  | .u16le ws => ws
  | .u16leIter ws => ws
  | .other _ _ => []

/-- The event list of `send_command` (R110). -/
def sendCommandActs (bytes : List Byte) : List Action :=
  .drive .dc Config.dcCmdLevel :: bytes.map fun b => .write (zext16 b)

/-- The event list of `send_data` (R111): the select line before the format is examined (C7, D14). -/
def sendDataActs (p : Payload) : List Action :=
  .drive .dc Config.dcDataLevel :: (payloadWords p).map .write

/-- Whether a payload format is one of the three the transport supports (R87, R111). -/
def supportedFormat : Payload → Bool
  | .u8 _ => true
  | .u16le _ => true
  | .u16leIter _ => true
  | .other _ _ => false

/-- The request `send_command(bytes)` (R110). -/
def sendCommandPlan (bytes : List Byte) : Plan := { acts := sendCommandActs bytes, streams := true }

/-- The request `send_data(fmt, payload)` (R111): `UnsupportedDataFormat` after the drive (R172). -/
def sendDataPlan (p : Payload) : Plan :=
  { acts := sendDataActs p,
    status := if supportedFormat p then .ok else .unsupportedDataFormat,
    streams := supportedFormat p }

/-- SEND_COMMAND (R110). -/
def execSendCommand (bytes : List Byte) (s : State) : Host.Outcome State Fault Refusal :=
  .next (s.runPlan (sendCommandPlan bytes))

/-- SEND_DATA (R111). -/
def execSendData (p : Payload) (s : State) : Host.Outcome State Fault Refusal :=
  .next (s.runPlan (sendDataPlan p))

end Sys2Proof.Machine
end

