-- ==== Sys2Proof/Machine/Driver.lean ====
section
/-! DEFINITION. The Controller Driver operations (R120 to R126): the wrappers of the transport calls
(R94), the address-window primitive and `clear`. -/

namespace Sys2Proof.Machine

/-- `write_command(cmd)` = `send_command([cmd])` (R120, R94). -/
def writeCommandActs (cmd : Byte) : List Action := sendCommandActs [cmd]

/-- `write_data(byte)` = `send_data(U8, [byte])` (R121, R94). -/
def writeDataActs (byte : Byte) : List Action := sendDataActs (.u8 [byte])

/-- `write_data_words(words)` = `send_data(U16LE, words)` (R122, R94). -/
def writeDataWordsActs (words : List U16) : List Action := sendDataActs (.u16le words)

/-- `write_pixels(colours)` = `send_data(U16LE_ITER, [pack(c) for c in colours])` (R123, R94). -/
def writePixelsActs (colours : List Colour) : List Action :=
  sendDataActs (.u16leIter (colours.map wireColour))

/-- A window coordinate as two data calls, high byte first (R83, R124). -/
def coordActs (v : U16) : List Action := writeDataActs (hi8 v) ++ writeDataActs (lo8 v)

/-- `set_address_window(xs, ys, xe, ye)` (R124): 0x2A with `xs`, `xe`, then 0x2B with `ys`, `ye`. -/
def windowActs (xs ys xe ye : U16) : List Action :=
  writeCommandActs 0x2A ++ coordActs xs ++ coordActs xe ++
    (writeCommandActs 0x2B ++ coordActs ys ++ coordActs ye)

/-- A window program, the memory-write command and a pixel stream: what every painting operation sends
(R126). -/
def paintActs (xs ys xe ye : U16) (colours : List Colour) : List Action :=
  windowActs xs ys xe ye ++ writeCommandActs 0x2C ++ writePixelsActs colours

/-- `clear(colour)` (R125). -/
def clearActs (c : Config) (colour : Colour) : List Action :=
  paintActs 0 0 (coord ((c.width : Int) - 1)) (coord ((c.height : Int) - 1))
    (List.replicate (c.width * c.height) colour)

/-- The request `write_command(cmd)` (R120). -/
def writeCommandPlan (cmd : Byte) : Plan := { acts := writeCommandActs cmd }

/-- The request `write_data(byte)` (R121). -/
def writeDataPlan (byte : Byte) : Plan := { acts := writeDataActs byte }

/-- The request `write_data_words(words)` (R122). -/
def writeDataWordsPlan (words : List U16) : Plan := { acts := writeDataWordsActs words, streams := true }

/-- The request `write_pixels(colours)` (R123). -/
def writePixelsPlan (colours : List Colour) : Plan := { acts := writePixelsActs colours, streams := true }

/-- The request `set_address_window(xs, ys, xe, ye)` (R124): the operands are compared with nothing. -/
def setAddressWindowPlan (xs ys xe ye : U16) : Plan := { acts := windowActs xs ys xe ye }

/-- The request `clear(colour)` (R125). -/
def clearPlan (c : Config) (colour : Colour) : Plan := { acts := clearActs c colour }

/-- WRITE_COMMAND (R120). -/
def execWriteCommand (cmd : Byte) (s : State) : Host.Outcome State Fault Refusal :=
  .next (s.runPlan (writeCommandPlan cmd))

/-- WRITE_DATA (R121). -/
def execWriteData (byte : Byte) (s : State) : Host.Outcome State Fault Refusal :=
  .next (s.runPlan (writeDataPlan byte))

/-- WRITE_DATA_WORDS (R122). -/
def execWriteDataWords (words : List U16) (s : State) : Host.Outcome State Fault Refusal :=
  .next (s.runPlan (writeDataWordsPlan words))

/-- WRITE_PIXELS (R123). -/
def execWritePixels (colours : List Colour) (s : State) : Host.Outcome State Fault Refusal :=
  .next (s.runPlan (writePixelsPlan colours))

/-- SET_ADDRESS_WINDOW (R124). -/
def execSetAddressWindow (xs ys xe ye : U16) (s : State) : Host.Outcome State Fault Refusal :=
  .next (s.runPlan (setAddressWindowPlan xs ys xe ye))

/-- CLEAR (R125). -/
def execClear (colour : Colour) (s : State) : Host.Outcome State Fault Refusal :=
  .next (s.runPlan (clearPlan s.cfg colour))

end Sys2Proof.Machine
end

