-- ==== Sys2Proof/Machine/Control.lean ====
section
/-! DEFINITION. The reset and initialisation sequences: `hard_reset` (R140) and `init` (R141 to R143). -/

namespace Sys2Proof.Machine

/-- One step of the reset pulse (R140): a drive and its settling delay. -/
def resetStepActs (l : Level) : List Action := [.drive .rst l, .delay Config.tRstMs]

/-- `hard_reset` (R140): nothing without a reset line. -/
def hardResetActs (c : Config) : List Action :=
  if c.hasRst then resetStepActs .high ++ resetStepActs .low ++ resetStepActs .high else []

/-- The backlight (R143): driven to 1 when present, skipped silently when not. -/
def backlightActs (c : Config) : List Action := if c.hasBl then [.drive .bl .high] else []

/-- One table entry (R142): its command, then each data byte in a call of its own. -/
def tableEntryActs (e : TableEntry) : List Action := writeCommandActs e.1 ++ e.2.flatMap writeDataActs

/-- The fixed tail of `init` (R141): sleep out, the settling delay, display on. -/
def initTailActs : List Action :=
  writeCommandActs 0x11 ++ [.delay Config.tSlpoutMs] ++ writeCommandActs 0x29

/-- `init` (R141). -/
def initActs (c : Config) : List Action :=
  hardResetActs c ++ backlightActs c ++ c.initTable.flatMap tableEntryActs ++ initTailActs

/-- The request `hard_reset()` (R140), with the mark by which every `hard_reset`, with a reset line or
without one, makes the panel's window and frame memory unspecified (R71, R144, U17). -/
def hardResetPlan (c : Config) : Plan := { acts := hardResetActs c, opening := [.panelReset] }

/-- The request `init()` (R141), with the marks of R71 around it. -/
def initPlan (c : Config) : Plan :=
  { acts := initActs c, opening := [.initBegin], closing := [.initEnd (setsFormat16 c.initTable)] }

/-- HARD_RESET (R140). -/
def execHardReset (s : State) : Host.Outcome State Fault Refusal :=
  .next (s.runPlan (hardResetPlan s.cfg))

/-- INIT (R141). -/
def execInit (s : State) : Host.Outcome State Fault Refusal :=
  .next (s.runPlan (initPlan s.cfg))

end Sys2Proof.Machine
end

