-- ==== Sys2Proof/Machine/Drawing.lean ====
section
/-! DEFINITION. The Drawing Adapter operations: `size` (R151), `draw_pixels` (R152), `fill_region` (R153)
and `fill_solid` (R154). -/

namespace Sys2Proof.Machine

/-- One pixel (R152): a 1 x 1 window, memory write, one word. -/
def pixelActs (p : Pixel) : List Action := paintActs (coord p.x) (coord p.y) (coord p.x) (coord p.y) [p.colour]

/-- A triple under the policy `PIXEL_OOB` (R152): off the canvas it is sent truncated or dropped; under
`refuse` it is not admitted and never comes here. -/
def tripleActs (c : Config) (p : Pixel) : List Action :=
  if onCanvas c p then pixelActs p
  else
    match c.pixelOob with
    | .emit => pixelActs p
    | .skip => []
    | .refuse => []

/-- The window program, memory write and stream of a region (R153, R154): the ends are inclusive on
the wire (R59). -/
def regionActs (g : Region) (colours : List Colour) : List Action :=
  paintActs (coord g.x0) (coord g.y0) (coord (g.x1 - 1)) (coord (g.y1 - 1)) colours

/-- The request `size()` (R151): no event, two numbers. -/
def sizePlan (c : Config) : Plan := { acts := [], dims := some (c.width, c.height) }

/-- The request `draw_pixels(pixel_stream)` (R152). -/
def drawPixelsPlan (c : Config) (ps : List Pixel) : Plan :=
  { acts := ps.flatMap (tripleActs c), streams := true }

/-- The request `fill_region(rect, colour_stream)` (R153): empty, inside, or `UnsupportedOverlap`. -/
def fillRegionPlan (c : Config) (r : Rect) (colours : List Colour) : Plan :=
  match clip c r with
  | none => { acts := [] }
  | some g =>
    if inside c r then { acts := regionActs g colours, streams := true }
    else { acts := [], status := .unsupportedOverlap }

/-- The request `fill_solid(rect, colour)` (R154): the count is the area of the clipped rectangle. -/
def fillSolidPlan (c : Config) (r : Rect) (colour : Colour) : Plan :=
  match clip c r with
  | none => { acts := [] }
  | some g => { acts := regionActs g (List.replicate g.area colour) }

/-- SIZE (R151). -/
def execSize (s : State) : Host.Outcome State Fault Refusal :=
  .next (s.runPlan (sizePlan s.cfg))

/-- DRAW_PIXELS (R152). Under `PIXEL_OOB = refuse` a request with a triple off the canvas is not
admitted (U5). -/
def execDrawPixels (ps : List Pixel) (s : State) : Host.Outcome State Fault Refusal :=
  if admitted s.cfg (.drawPixels ps) then .next (s.runPlan (drawPixelsPlan s.cfg ps))
  else .refused .pixelOutsideCanvas

/-- FILL_REGION (R153). -/
def execFillRegion (r : Rect) (colours : List Colour) (s : State) : Host.Outcome State Fault Refusal :=
  .next (s.runPlan (fillRegionPlan s.cfg r colours))

/-- FILL_SOLID (R154). -/
def execFillSolid (r : Rect) (colour : Colour) (s : State) : Host.Outcome State Fault Refusal :=
  .next (s.runPlan (fillSolidPlan s.cfg r colour))

end Sys2Proof.Machine
end

