-- ==== Sys2Proof/Machine/Wire.lean ====
section
/-! DEFINITION. The wire command codes of R82: what a command cycle does where it arrives, at the
reference sink (R67 to R71). The panel's registers behind the codes are outside the block (R4 (e)). -/

namespace Sys2Proof.Machine

/-- What a command cycle of R82 changes: the sink, and nothing of the block (R32, R66). -/
def State.atSink (s : State) (f : Sink → Sink) : State := { s with sink := f s.sink }

/-- WIRE_COLUMN_ADDRESS_SET, 0x2A (R68): the column fields wait for four parameters. -/
def execWireColumnAddressSet (s : State) : Host.Outcome State Fault Refusal :=
  .next (s.atSink Sink.beginColumn)

/-- WIRE_ROW_ADDRESS_SET, 0x2B (R68): the row fields wait for four parameters. -/
def execWireRowAddressSet (s : State) : Host.Outcome State Fault Refusal :=
  .next (s.atSink Sink.beginRow)

/-- WIRE_MEMORY_WRITE, 0x2C (R69): the cursor goes to the window's start, pixel words follow. -/
def execWireMemoryWrite (s : State) : Host.Outcome State Fault Refusal :=
  .next (s.atSink Sink.beginPixels)

/-- WIRE_SLEEP_OUT, 0x11 (R71). -/
def execWireSleepOut (s : State) : Host.Outcome State Fault Refusal :=
  .next (s.atSink (Sink.otherCommand 0x11))

/-- WIRE_DISPLAY_ON, 0x29 (R71). -/
def execWireDisplayOn (s : State) : Host.Outcome State Fault Refusal :=
  .next (s.atSink (Sink.otherCommand 0x29))

/-- WIRE_MEMORY_ACCESS_CONTROL, 0x36 (R71). -/
def execWireMemoryAccessControl (s : State) : Host.Outcome State Fault Refusal :=
  .next (s.atSink (Sink.otherCommand 0x36))

/-- WIRE_PIXEL_FORMAT_SET, 0x3A (R71). -/
def execWirePixelFormatSet (s : State) : Host.Outcome State Fault Refusal :=
  .next (s.atSink (Sink.otherCommand 0x3A))

/-- WIRE_VENDOR_F7, 0xF7 (R71). -/
def execWireVendorF7 (s : State) : Host.Outcome State Fault Refusal :=
  .next (s.atSink (Sink.otherCommand 0xF7))

/-- WIRE_VENDOR_C0, 0xC0 (R71). -/
def execWireVendorC0 (s : State) : Host.Outcome State Fault Refusal :=
  .next (s.atSink (Sink.otherCommand 0xC0))

/-- WIRE_VENDOR_C1, 0xC1 (R71). -/
def execWireVendorC1 (s : State) : Host.Outcome State Fault Refusal :=
  .next (s.atSink (Sink.otherCommand 0xC1))

/-- WIRE_VENDOR_C5, 0xC5 (R71). -/
def execWireVendorC5 (s : State) : Host.Outcome State Fault Refusal :=
  .next (s.atSink (Sink.otherCommand 0xC5))

/-- WIRE_VENDOR_B1, 0xB1 (R71). -/
def execWireVendorB1 (s : State) : Host.Outcome State Fault Refusal :=
  .next (s.atSink (Sink.otherCommand 0xB1))

/-- WIRE_VENDOR_B4, 0xB4 (R71). -/
def execWireVendorB4 (s : State) : Host.Outcome State Fault Refusal :=
  .next (s.atSink (Sink.otherCommand 0xB4))

/-- WIRE_VENDOR_B6, 0xB6 (R71). -/
def execWireVendorB6 (s : State) : Host.Outcome State Fault Refusal :=
  .next (s.atSink (Sink.otherCommand 0xB6))

/-- WIRE_VENDOR_B7, 0xB7 (R71). -/
def execWireVendorB7 (s : State) : Host.Outcome State Fault Refusal :=
  .next (s.atSink (Sink.otherCommand 0xB7))

/-- WIRE_VENDOR_BE, 0xBE (R71). -/
def execWireVendorBE (s : State) : Host.Outcome State Fault Refusal :=
  .next (s.atSink (Sink.otherCommand 0xBE))

/-- WIRE_VENDOR_E9, 0xE9 (R71). -/
def execWireVendorE9 (s : State) : Host.Outcome State Fault Refusal :=
  .next (s.atSink (Sink.otherCommand 0xE9))

/-- WIRE_VENDOR_E0, 0xE0 (R71). -/
def execWireVendorE0 (s : State) : Host.Outcome State Fault Refusal :=
  .next (s.atSink (Sink.otherCommand 0xE0))

/-- WIRE_VENDOR_E1, 0xE1 (R71). -/
def execWireVendorE1 (s : State) : Host.Outcome State Fault Refusal :=
  .next (s.atSink (Sink.otherCommand 0xE1))

end Sys2Proof.Machine
end

