-- ==== Sys2Proof/Machine/Dispatch.lean ====
section
/-! DEFINITION. The dispatch: one arm per row of the opcode table (R86, R82). -/

namespace Sys2Proof.Machine

/-- What one instruction does to the state: a whole request (R11), or a command cycle at the far end. -/
def exec (i : Instr) (s : State) : Host.Outcome State Fault Refusal :=
  match i with
  | .sendCommand bytes => Sys2Proof.Machine.execSendCommand bytes s
  | .sendData payload => Sys2Proof.Machine.execSendData payload s
  | .writeCommand cmd => Sys2Proof.Machine.execWriteCommand cmd s
  | .writeData byte => Sys2Proof.Machine.execWriteData byte s
  | .writeDataWords words => Sys2Proof.Machine.execWriteDataWords words s
  | .writePixels colours => Sys2Proof.Machine.execWritePixels colours s
  | .setAddressWindow xs ys xe ye => Sys2Proof.Machine.execSetAddressWindow xs ys xe ye s
  | .hardReset => Sys2Proof.Machine.execHardReset s
  | .init => Sys2Proof.Machine.execInit s
  | .clear colour => Sys2Proof.Machine.execClear colour s
  | .size => Sys2Proof.Machine.execSize s
  | .drawPixels pixels => Sys2Proof.Machine.execDrawPixels pixels s
  | .fillRegion rect colours => Sys2Proof.Machine.execFillRegion rect colours s
  | .fillSolid rect colour => Sys2Proof.Machine.execFillSolid rect colour s
  | .wireColumnAddressSet => Sys2Proof.Machine.execWireColumnAddressSet s
  | .wireRowAddressSet => Sys2Proof.Machine.execWireRowAddressSet s
  | .wireMemoryWrite => Sys2Proof.Machine.execWireMemoryWrite s
  | .wireSleepOut => Sys2Proof.Machine.execWireSleepOut s
  | .wireDisplayOn => Sys2Proof.Machine.execWireDisplayOn s
  | .wireMemoryAccessControl => Sys2Proof.Machine.execWireMemoryAccessControl s
  | .wirePixelFormatSet => Sys2Proof.Machine.execWirePixelFormatSet s
  | .wireVendorF7 => Sys2Proof.Machine.execWireVendorF7 s
  | .wireVendorC0 => Sys2Proof.Machine.execWireVendorC0 s
  | .wireVendorC1 => Sys2Proof.Machine.execWireVendorC1 s
  | .wireVendorC5 => Sys2Proof.Machine.execWireVendorC5 s
  | .wireVendorB1 => Sys2Proof.Machine.execWireVendorB1 s
  | .wireVendorB4 => Sys2Proof.Machine.execWireVendorB4 s
  | .wireVendorB6 => Sys2Proof.Machine.execWireVendorB6 s
  | .wireVendorB7 => Sys2Proof.Machine.execWireVendorB7 s
  | .wireVendorBE => Sys2Proof.Machine.execWireVendorBE s
  | .wireVendorE9 => Sys2Proof.Machine.execWireVendorE9 s
  | .wireVendorE0 => Sys2Proof.Machine.execWireVendorE0 s
  | .wireVendorE1 => Sys2Proof.Machine.execWireVendorE1 s

end Sys2Proof.Machine
end

