-- ==== Sys2Proof/WellFormed.lean ====
section
/-! DEFINITION. Which instructions the request format can carry (R86, R87; D7): the ranges of the
operand fields. -/

namespace Sys2Proof

/-- A signed 32-bit field (`i32`, R8). -/
def fitsI32 (v : Int) : Bool := decide (-2147483648 ≤ v) && decide (v < 2147483648)

/-- An unsigned 32-bit field (`u32`, R8). -/
def fitsU32 (n : Nat) : Bool := decide (n < 4294967296)

/-- The rectangle operand of R86: origin `i32`, size `u32`. -/
def Rect.wellFormed (r : Rect) : Bool :=
  fitsI32 r.x && fitsI32 r.y && fitsU32 r.w && fitsU32 r.h

/-- The pixel triple of R87: coordinates `i32`. -/
def Pixel.wellFormed (p : Pixel) : Bool := fitsI32 p.x && fitsI32 p.y

/-- The payload of SEND_DATA (R87): a count that fits `LEN`; `Other` has a code from 3 up. -/
def Payload.wellFormed : Payload → Bool
  | .u8 bs => fitsU32 bs.length
  | .u16le ws => fitsU32 ws.length
  | .u16leIter ws => fitsU32 ws.length
  | .other code raw => decide (3 ≤ code.toNat) && fitsU32 raw.length

/-- The instruction fits its encoding of R82, R86 and R87. -/
def Instr.wellFormed : Instr → Bool
  | .sendCommand bs => fitsU32 bs.length
  | .sendData p => p.wellFormed
  | .writeCommand _ => true
  | .writeData _ => true
  | .writeDataWords ws => fitsU32 ws.length
  | .writePixels cs => fitsU32 cs.length
  | .setAddressWindow _ _ _ _ => true
  | .hardReset => true
  | .init => true
  | .clear _ => true
  | .size => true
  | .drawPixels ps => fitsU32 ps.length && ps.all Pixel.wellFormed
  | .fillRegion r cs => r.wellFormed && fitsU32 cs.length
  | .fillSolid r _ => r.wellFormed
  | .wireColumnAddressSet => true
  | .wireRowAddressSet => true
  | .wireMemoryWrite => true
  | .wireSleepOut => true
  | .wireDisplayOn => true
  | .wireMemoryAccessControl => true
  | .wirePixelFormatSet => true
  | .wireVendorF7 => true
  | .wireVendorC0 => true
  | .wireVendorC1 => true
  | .wireVendorC5 => true
  | .wireVendorB1 => true
  | .wireVendorB4 => true
  | .wireVendorB6 => true
  | .wireVendorB7 => true
  | .wireVendorBE => true
  | .wireVendorE9 => true
  | .wireVendorE0 => true
  | .wireVendorE1 => true

end Sys2Proof
end

