-- ==== Sys2Proof/Decode.lean ====
section
/-! DEFINITION. The two encodings of the block: requests as words of the host port (R85 to R92, R95) and
command cycles as 17-bit bus cycles `dc : w` (R80, R82). Decoding first, total and rejecting by name;
the encoder after it, written from the same tables. -/

namespace Sys2Proof

/-- Why a word sequence or a bus cycle is not an instruction. -/
inductive DecodeReject where
  /-- The request port is empty (R95: the block waits). -/
  | noWord
  /-- The word sequence ends inside a request (R95: the block waits for the missing words). -/
  | cutShort
  /-- `OP` is 0x00 or 0x0F to 0xFF: the word spells no request (R89). -/
  | badOp (op : Byte)
  /-- The bus cycle is a data cycle (R80), which no row of the opcode table matches. -/
  | dataCycle
  /-- A command cycle with a one on lines [15:8], which no row of R82 matches. -/
  | upperLinesSet
  /-- A command code outside the map of R82 (R91: passed through, its meaning is the panel's). -/
  | notInCommandMap (code : Byte)
  /-- The level of the select line is `U`: the cycle has no kind. -/
  | unknownLevel
  deriving DecidableEq, Repr

/-! ## Fields -/

/-- `v[7:0]` of a request word. -/
def lowByte (v : Word) : Byte := v.extractLsb' 0 8

/-- `v[15:0]` of a request word. -/
def lowHalf (v : Word) : U16 := v.extractLsb' 0 16

/-- `v[31:16]` of a request word: `IMM` of `W0` (R85), the y coordinate of a window word (R86). -/
def highHalf (v : Word) : U16 := v.extractLsb' 16 16

/-- `FMT = W0[15:8]` (R85). -/
def fmtField (v : Word) : Byte := v.extractLsb' 8 8

/-- `IMM[7:0] = W0[23:16]` (R86, WRITE_COMMAND and WRITE_DATA). -/
def immByte (v : Word) : Byte := v.extractLsb' 16 8

/-! ## Requests -/

/-- The format codes of R87: three formats, every other code is `Other`. -/
def emptyPayload (fmt : Byte) : Payload :=
  match fmt.toNat with
  | 0 => .u8 []
  | 1 => .u16le []
  | 2 => .u16leIter []
  | _ => .other fmt []

/-- Pixel triples out of element words: `x` (i32), `y` (i32), the colour in [15:0] (R87). -/
def pixelsOfWords : List Word → List Pixel
  | x :: y :: c :: ws => { x := x.toInt, y := y.toInt, colour := lowHalf c } :: pixelsOfWords ws
  | _ => []

/-- How many words one payload element takes (R87): three for a pixel triple, else one. -/
def elementWords (i : Instr) : Nat :=
  match i with
  | .drawPixels _ => 3
  | .sendCommand _ | .sendData _ | .writeCommand _ | .writeData _ | .writeDataWords _
  | .writePixels _ | .setAddressWindow _ _ _ _ | .hardReset | .init | .clear _ | .size
  | .fillRegion _ _ | .fillSolid _ _ | .wireColumnAddressSet | .wireRowAddressSet
  | .wireMemoryWrite | .wireSleepOut | .wireDisplayOn | .wireMemoryAccessControl
  | .wirePixelFormatSet | .wireVendorF7 | .wireVendorC0 | .wireVendorC1 | .wireVendorC5
  | .wireVendorB1 | .wireVendorB4 | .wireVendorB6 | .wireVendorB7 | .wireVendorBE
  | .wireVendorE9 | .wireVendorE0 | .wireVendorE1 => 1

/-- The payload with the elements of further words behind it (R87). -/
def Payload.withElements (p : Payload) (ws : List Word) : Payload :=
  match p with
  | .u8 bs => .u8 (bs ++ ws.map lowByte)
  | .u16le xs => .u16le (xs ++ ws.map lowHalf)
  | .u16leIter xs => .u16leIter (xs ++ ws.map lowHalf)
  | .other c raw => .other c (raw ++ ws)

/-- The request with the elements of further payload words behind those it has (R87). A request
without a payload stays as it is. -/
def Instr.withElements (i : Instr) (ws : List Word) : Instr :=
  match i with
  | .sendCommand bs => .sendCommand (bs ++ ws.map lowByte)
  | .sendData p => .sendData (p.withElements ws)
  | .writeDataWords xs => .writeDataWords (xs ++ ws.map lowHalf)
  | .writePixels cs => .writePixels (cs ++ ws.map lowHalf)
  | .drawPixels ps => .drawPixels (ps ++ pixelsOfWords ws)
  | .fillRegion r cs => .fillRegion r (cs ++ ws.map lowHalf)
  | .writeCommand _ | .writeData _ | .setAddressWindow _ _ _ _ | .hardReset | .init | .clear _
  | .size | .fillSolid _ _ | .wireColumnAddressSet | .wireRowAddressSet
  | .wireMemoryWrite | .wireSleepOut | .wireDisplayOn | .wireMemoryAccessControl
  | .wirePixelFormatSet | .wireVendorF7 | .wireVendorC0 | .wireVendorC1 | .wireVendorC5
  | .wireVendorB1 | .wireVendorB4 | .wireVendorB6 | .wireVendorB7 | .wireVendorBE
  | .wireVendorE9 | .wireVendorE0 | .wireVendorE1 => i

/-- What the operand words of a request give (R92): the request with no payload element yet, the
count `LEN` (0 for a request without a payload), and the words behind them. -/
structure Header where
  instr : Instr
  len   : Nat
  rest  : List Word
  deriving DecidableEq, Repr

/-- A request whose operand words end in the count word `LEN` (R87, R92). -/
def countedHeader (i : Instr) (ws : List Word) : Except DecodeReject Header :=
  match ws with
  | n :: rest => .ok { instr := i, len := n.toNat, rest := rest }
  | [] => .error .cutShort

/-- A request without a payload (R92). -/
def plainHeader (i : Instr) (ws : List Word) : Except DecodeReject Header :=
  .ok { instr := i, len := 0, rest := ws }

/-- SET_ADDRESS_WINDOW: `W1 = ys : xs`, `W2 = ye : xe` (R86). -/
def windowHeader (ws : List Word) : Except DecodeReject Header :=
  match ws with
  | w1 :: w2 :: rest => plainHeader (.setAddressWindow (lowHalf w1) (highHalf w1) (lowHalf w2) (highHalf w2)) rest
  | _ => .error .cutShort

/-- The rectangle words `W1..W4` of R86: `x`, `y` in two's complement, `w`, `h` unsigned. -/
def rectOfWords (w1 w2 w3 w4 : Word) : Rect :=
  { x := w1.toInt, y := w2.toInt, w := w3.toNat, h := w4.toNat }

/-- FILL_REGION: `W1..W4` the rectangle, then the count (R86). -/
def regionHeader (ws : List Word) : Except DecodeReject Header :=
  match ws with
  | w1 :: w2 :: w3 :: w4 :: rest => countedHeader (.fillRegion (rectOfWords w1 w2 w3 w4) []) rest
  | _ => .error .cutShort

/-- FILL_SOLID: the colour in `IMM`, `W1..W4` the rectangle (R86). -/
def solidHeader (colour : Colour) (ws : List Word) : Except DecodeReject Header :=
  match ws with
  | w1 :: w2 :: w3 :: w4 :: rest => plainHeader (.fillSolid (rectOfWords w1 w2 w3 w4) colour) rest
  | _ => .error .cutShort

/-- The opcode map of R86, on the words of the port: mask 0x000000FF over `W0`. -/
def decodeHeader (ws : List Word) : Except DecodeReject Header :=
  match ws with
  | [] => .error .noWord
  | w0 :: rest =>
    match (lowByte w0).toNat with
    | 1 => countedHeader (.sendCommand []) rest
    | 2 => countedHeader (.sendData (emptyPayload (fmtField w0))) rest
    | 3 => plainHeader (.writeCommand (immByte w0)) rest
    | 4 => plainHeader (.writeData (immByte w0)) rest
    | 5 => countedHeader (.writeDataWords []) rest
    | 6 => countedHeader (.writePixels []) rest
    | 7 => windowHeader rest
    | 8 => plainHeader .hardReset rest
    | 9 => plainHeader .init rest
    | 10 => plainHeader (.clear (highHalf w0)) rest
    | 11 => plainHeader .size rest
    | 12 => countedHeader (.drawPixels []) rest
    | 13 => regionHeader rest
    | 14 => solidHeader (highHalf w0) rest
    | _ => .error (.badOp (lowByte w0))

/-- A request with its whole payload, and the words behind it; `cutShort` while words are missing
(R92, R95). -/
def decodeRequest (ws : List Word) : Except DecodeReject (Instr × List Word) :=
  match decodeHeader ws with
  | .error e => .error e
  | .ok h =>
    if h.rest.length < h.len * elementWords h.instr then .error .cutShort
    else .ok (h.instr.withElements (h.rest.take (h.len * elementWords h.instr)),
              h.rest.drop (h.len * elementWords h.instr))

/-! ## Command cycles -/

/-- The wire command map of R82. -/
def wireMap : List (Byte × Instr) :=
  [(0x2A, .wireColumnAddressSet), (0x2B, .wireRowAddressSet), (0x2C, .wireMemoryWrite),
   (0x11, .wireSleepOut), (0x29, .wireDisplayOn), (0x36, .wireMemoryAccessControl),
   (0x3A, .wirePixelFormatSet), (0xF7, .wireVendorF7), (0xC0, .wireVendorC0),
   (0xC1, .wireVendorC1), (0xC5, .wireVendorC5), (0xB1, .wireVendorB1), (0xB4, .wireVendorB4),
   (0xB6, .wireVendorB6), (0xB7, .wireVendorB7), (0xBE, .wireVendorBE), (0xE9, .wireVendorE9),
   (0xE0, .wireVendorE0), (0xE1, .wireVendorE1)]

/-- The level of the select line in bit 16 of a cycle (R82): 0 is low, 1 is high. -/
def levelOfBit (b : Bool) : Level := if b then .high else .low

/-- The bit of a level (R8). -/
def bitOfLevel : Level → BitVec 1
  | .low => 0
  | .high => 1

/-- The cycle `dc : w` of R82, 17 bits. -/
def cycleBits (l : Level) (w : U16) : BitVec 17 := bitOfLevel l ++ w

/-- A command cycle of the map of R82 (mask 0x1FFFF, match `0x000cc`). -/
def decodeCycle (c : BitVec 17) : Except DecodeReject Instr :=
  if levelOfBit (c.getLsbD 16) = Config.dcCmdLevel then
    if c.extractLsb' 8 8 = 0 then
      match wireMap.lookup (c.extractLsb' 0 8) with
      | some i => .ok i
      | none => .error (.notInCommandMap (c.extractLsb' 0 8))
    else .error .upperLinesSet
  else .error .dataCycle

/-! ## The opcode table's own numbering -/

/-- The words of an instruction whose bits are `w`, bit 0 the least significant of the first word, up
to the longest request without elements (FILL_REGION: `W0..W4` and `LEN`). -/
def tableWords (w : Nat) : List Word :=
  (List.range 6).map fun k => BitVec.ofNat 32 (w / 4294967296 ^ k)

/-- Whether a row of `nbits` bits is a bus cycle (format WIRE-CMD, 17 bits, three bytes); any other is a
request (format HOST-W0, of which the table may count the opcode byte or the whole word). -/
def isCycleRow (nbits : Nat) : Bool := decide (16 < nbits) && decide (nbits ≤ 24)

/-- The instruction of a row of `spec/opcode_table.json`, by the decoder of its format. -/
def decodeTableWord (nbits w : Nat) : Option Instr :=
  if isCycleRow nbits then
    if w < 131072 then
      match decodeCycle (BitVec.ofNat 17 w) with
      | .ok i => some i
      | .error _ => none
    else none
  else
    match decodeRequest (tableWords w) with
    | .ok r => some r.1
    | .error _ => none

/-! ## The encoder -/

/-- `W0` of R85: `IMM : FMT : OP`. -/
def w0 (imm : U16) (fmt op : Byte) : Word := imm ++ fmt ++ op

/-- A count or a size as `u32`. -/
def u32 (n : Nat) : Word := BitVec.ofNat 32 n

/-- A coordinate as `i32`, two's complement. -/
def i32 (v : Int) : Word := BitVec.ofInt 32 v

/-- A byte element: the byte in [7:0] (R87). -/
def byteWord (b : Byte) : Word := b.setWidth 32

/-- A word or colour element: the value in [15:0] (R87). -/
def halfWord (v : U16) : Word := v.setWidth 32

/-- A byte operand in `IMM[7:0]` (R86). -/
def byteImm (b : Byte) : U16 := b.setWidth 16

/-- A pixel triple as three words (R87). -/
def pixelWords (p : Pixel) : List Word := [i32 p.x, i32 p.y, halfWord p.colour]

/-- `W1..W4` of a rectangle (R86). -/
def rectWords (r : Rect) : List Word := [i32 r.x, i32 r.y, u32 r.w, u32 r.h]

/-- The format code of a payload (R87). -/
def Payload.fmt : Payload → Byte
  | .u8 _ => 0
  | .u16le _ => 1
  | .u16leIter _ => 2
  | .other c _ => c

/-- The element words of a payload (R87). -/
def Payload.words : Payload → List Word
  | .u8 bs => bs.map byteWord
  | .u16le ws => ws.map halfWord
  | .u16leIter ws => ws.map halfWord
  | .other _ raw => raw

/-- What an instruction is encoded as: words of the request port, or one bus cycle. -/
inductive Code where
  | request (words : List Word)
  | cycle (bits : BitVec 17)
  deriving DecidableEq, Repr

/-- A command cycle of R80: the command level, lines [15:8] zero, the code on [7:0]. -/
def commandCode (c : Byte) : Code := .cycle (cycleBits Config.dcCmdLevel (byteImm c))

/-- The words or the cycle of an instruction, from the tables of R82, R86 and R87; fields an operation
does not use are zero. -/
def encode (i : Instr) : Code :=
  match i with
  | .sendCommand bs => .request (w0 0 0 0x01 :: u32 bs.length :: bs.map byteWord)
  | .sendData p => .request (w0 0 p.fmt 0x02 :: u32 p.words.length :: p.words)
  | .writeCommand c => .request [w0 (byteImm c) 0 0x03]
  | .writeData b => .request [w0 (byteImm b) 0 0x04]
  | .writeDataWords ws => .request (w0 0 0 0x05 :: u32 ws.length :: ws.map halfWord)
  | .writePixels cs => .request (w0 0 0 0x06 :: u32 cs.length :: cs.map halfWord)
  | .setAddressWindow xs ys xe ye => .request [w0 0 0 0x07, ys ++ xs, ye ++ xe]
  | .hardReset => .request [w0 0 0 0x08]
  | .init => .request [w0 0 0 0x09]
  | .clear c => .request [w0 c 0 0x0A]
  | .size => .request [w0 0 0 0x0B]
  | .drawPixels ps => .request (w0 0 0 0x0C :: u32 ps.length :: ps.flatMap pixelWords)
  | .fillRegion r cs => .request (w0 0 0 0x0D :: (rectWords r ++ u32 cs.length :: cs.map halfWord))
  | .fillSolid r c => .request (w0 c 0 0x0E :: rectWords r)
  | .wireColumnAddressSet => commandCode 0x2A
  | .wireRowAddressSet => commandCode 0x2B
  | .wireMemoryWrite => commandCode 0x2C
  | .wireSleepOut => commandCode 0x11
  | .wireDisplayOn => commandCode 0x29
  | .wireMemoryAccessControl => commandCode 0x36
  | .wirePixelFormatSet => commandCode 0x3A
  | .wireVendorF7 => commandCode 0xF7
  | .wireVendorC0 => commandCode 0xC0
  | .wireVendorC1 => commandCode 0xC1
  | .wireVendorC5 => commandCode 0xC5
  | .wireVendorB1 => commandCode 0xB1
  | .wireVendorB4 => commandCode 0xB4
  | .wireVendorB6 => commandCode 0xB6
  | .wireVendorB7 => commandCode 0xB7
  | .wireVendorBE => commandCode 0xBE
  | .wireVendorE9 => commandCode 0xE9
  | .wireVendorE0 => commandCode 0xE0
  | .wireVendorE1 => commandCode 0xE1

/-- Decoding of either encoding; a request leaves the words behind it. -/
def decode (c : Code) : Except DecodeReject (Instr × List Word) :=
  match c with
  | .request ws => decodeRequest ws
  | .cycle b =>
    match decodeCycle b with
    | .ok i => .ok (i, [])
    | .error e => .error e

/-- The words of a request followed by further words of the port; a cycle has no tail. -/
def Code.andThen (c : Code) (rest : List Word) : Code :=
  match c with
  | .request ws => .request (ws ++ rest)
  | .cycle b => .cycle b

end Sys2Proof
end

