-- ==== Sys2Proof/Machine/Sequencer.lean ====
section
/-! DEFINITION. The sequencer's small steps (R22): accepting a request at its operand words, performing
one event of its list, reading one payload element from the port (R95), ending; fetching from the
request port and from the transport's buffer; and whose turn it is (R35). -/

namespace Sys2Proof.Machine

/-! ## The plan of a request -/

/-- The plan of each request (R86). A wire command is no request: it has no events of the block. -/
def planOf (c : Config) (i : Instr) : Plan :=
  match i with
  | .sendCommand bytes => sendCommandPlan bytes
  | .sendData payload => sendDataPlan payload
  | .writeCommand cmd => writeCommandPlan cmd
  | .writeData byte => writeDataPlan byte
  | .writeDataWords words => writeDataWordsPlan words
  | .writePixels colours => writePixelsPlan colours
  | .setAddressWindow xs ys xe ye => setAddressWindowPlan xs ys xe ye
  | .hardReset => hardResetPlan c
  | .init => initPlan c
  | .clear colour => clearPlan c colour
  | .size => sizePlan c
  | .drawPixels pixels => drawPixelsPlan c pixels
  | .fillRegion rect colours => fillRegionPlan c rect colours
  | .fillSolid rect colour => fillSolidPlan c rect colour
  | .wireColumnAddressSet | .wireRowAddressSet | .wireMemoryWrite | .wireSleepOut | .wireDisplayOn
  | .wireMemoryAccessControl | .wirePixelFormatSet | .wireVendorF7 | .wireVendorC0 | .wireVendorC1
  | .wireVendorC5 | .wireVendorB1 | .wireVendorB4 | .wireVendorB6 | .wireVendorB7 | .wireVendorBE
  | .wireVendorE9 | .wireVendorE0 | .wireVendorE1 => { acts := [] }

/-! ## Fetching -/

/-- What stands on the request port for an idle sequencer. -/
inductive Fetched where
  /-- Nothing yet, or a request whose operand words are not all there: the block waits (R95). -/
  | wait (s : State)
  /-- A word that spells no request (R89). -/
  | bad (s : State)
  /-- The operand words of a request are there and some payload elements may be missing: it starts
  (R95). -/
  | header (i : Instr) (len : Nat) (s : State)
  /-- A whole request with its payload. -/
  | whole (i : Instr) (s : State)
  deriving DecidableEq, Repr

/-- Read and discard the unread payload of an ended request, as far as it is on the port (R92). -/
def State.skipUnread (s : State) : State :=
  { s with port := s.port.drop s.discard, discard := s.discard - s.port.length }

/-- Fetch the operand words of the next request (R85, R92, R95). -/
def fetchHeader (s : State) : Fetched :=
  if s.discard = 0 then
    match decodeHeader s.port with
    | .ok h => .header h.instr h.len { s with port := h.rest }
    | .error (.badOp _) => .bad { s with port := s.port.drop 1 }
    | .error _ => .wait s
  else .wait s.skipUnread

/-- Fetch the next request with its payload, when all of it is on the port; else its operand words. -/
def fetchRequest (s : State) : Fetched :=
  if s.discard = 0 then
    match decodeRequest s.port with
    | .ok r => .whole r.1 { s with port := r.2 }
    | .error _ => fetchHeader s
  else .wait s.skipUnread

/-- What the buffer has for the transport's far end. -/
inductive Arriving where
  /-- The buffer is empty. -/
  | nothing
  /-- A command cycle of the map of R82. -/
  | command (i : Instr) (s : State)
  /-- Any other item: a data cycle, a command code outside the map, a mark. -/
  | item (b : BusItem) (s : State)
  deriving DecidableEq, Repr

/-- The instruction a bus cycle is (R82). -/
def decodeBus (d : Latch) (w : U16) : Except DecodeReject Instr :=
  match d with
  | .driven l => decodeCycle (cycleBits l w)
  | .U => .error .unknownLevel

/-- The oldest item of the buffer reaches the pins (R31). -/
def fetchArriving (s : State) : Arriving :=
  match s.buffer with
  | [] => .nothing
  | .note n :: rest => .item (.note n) { s with buffer := rest }
  | .cycle d w :: rest =>
    let t := { s with buffer := rest, pins := s.pins ++ [(d, w)] }
    match decodeBus d w with
    | .ok i => .command i t
    | .error _ => .item (.cycle d w) t

/-! ## One event (R22) -/

/-- A request is accepted: `seq <- (req, 0)` (R22), with `len` payload elements still on the port. -/
def State.accept (s : State) (i : Instr) (len : Nat) : State :=
  { s.openRequest (planOf s.cfg i) with seq := .busy i 0 len }

/-- One payload element is read from the port (R95); the block waits when it is not there. Under
`PIXEL_OOB = refuse` a triple off the canvas is not admitted (R152). -/
def State.readElement (s : State) (i : Instr) (k owed : Nat) : Host.Outcome State Fault Refusal :=
  if s.port.length < elementWords i then .next s
  else
    let j := i.withElements (s.port.take (elementWords i))
    if admitted s.cfg j then
      .next { s with port := s.port.drop (elementWords i), seq := .busy j k (owed - 1) }
    else .refused .pixelOutsideCanvas

/-- The step of a busy sequencer (R22): event number `k`; when the list so far is exhausted, the next
payload element if the operation uses its payload; when nothing is left, the end. -/
def State.advance (s : State) (i : Instr) (k owed : Nat) : Host.Outcome State Fault Refusal :=
  let p := planOf s.cfg i
  match p.acts[k]? with
  | some a =>
    match s.perform a with
    | (t, true) => .next { t with seq := .busy i (k + 1) owed }
    | (t, false) => .next (t.raise .controlLineFault (owed * elementWords i))
  | none =>
    if p.streams && decide (0 < owed) then s.readElement i k owed
    else .next (s.conclude p (owed * elementWords i))

/-- One event's move (R22): an idle sequencer accepts the next request at its operand words. -/
def eventMove (s : State) : Host.Outcome State Fault Refusal :=
  match s.seq with
  | .busy i k owed => s.advance i k owed
  | .idle =>
    match fetchHeader s with
    | .wait t => .next t
    | .bad t => .next t.badRequest
    | .header i len t => .next (t.accept i len)
    | .whole i t => .next (t.accept i 0)

/-! ## The host (R7 (1)) -/

/-- The host's move (R186): it puts the next word of the issued request on the port; when all are
there, it waits for the result; when the result is there, it takes it; then it issues the next
request. -/
def State.hostMove (s : State) : State :=
  match s.host.sending with
  | w :: ws => { s with port := s.port ++ [w], host := { s.host with sending := ws } }
  | [] =>
    match s.host.awaiting with
    | some n => if n < s.resp.length then { s with host := { s.host with awaiting := none } } else s
    | none =>
      match s.host.script with
      | r :: rs =>
        { s with host := { script := rs, sending := r, awaiting := some s.resp.length } }
      | [] => s

/-! ## What can hang (R209) -/

/-- Whether the next event is a word that may never be accepted, or a delay that may never end (R209,
U18); a drive answers at once (R171), and a wait for the host is not the transport's. -/
def State.mayHang (s : State) : Bool :=
  match s.seq with
  | .idle => false
  | .busy i k _ =>
    match (planOf s.cfg i).acts[k]? with
    | some (.write _) => true
    | some (.delay _) => true
    | some (.drive _ _) => false
    | none => false

/-! ## Whose turn it is (R35) -/

/-- The next turn: the state's own list first, then the free choices of the environment. -/
def State.turn (s : State) : Turn :=
  match s.schedule with
  | t :: _ => t
  | [] => Config.freeTurn s.freeMoves

/-- The state with that turn used up. -/
def State.useTurn (s : State) : State :=
  match s.schedule with
  | _ :: ts => { s with schedule := ts }
  | [] => { s with freeMoves := s.freeMoves + 1 }

/-! ## Placing an instruction where the machine fetches it -/

/-- How many words a request of opcode `op` has when its payload is empty (R92). -/
def requestLength (op : Nat) : Nat :=
  match op with
  | 1 | 2 | 5 | 6 | 12 => 2
  | 7 => 3
  | 13 => 6
  | 14 => 5
  | _ => 1

/-- The words of a request whose bits are `w` (the bits above them zero), put on the port, and the turn
given to the sequencer. -/
def State.placeRequest (s : State) (w : Nat) : State :=
  { s with port := (tableWords w).take (requestLength (w % 256)) ++ s.port, discard := 0, seq := .idle,
           schedule := .request :: s.schedule }

/-- A bus cycle whose 17 bits are `w`, put first in the buffer, and the turn given to the far end. -/
def State.placeCycle (s : State) (w : Nat) : State :=
  { s with buffer := .cycle (.driven (levelOfBit ((BitVec.ofNat 17 w).getLsbD 16)))
                       ((BitVec.ofNat 17 w).extractLsb' 0 16) :: s.buffer,
           schedule := .transport :: s.schedule }

end Sys2Proof.Machine
end

