-- ==== Sys2Proof/Machine/Step.lean ====
section
/-! DEFINITION. One step: whose turn it is, and that agent's move (R7, R11, R22, R31, R35). -/

namespace Sys2Proof.Machine

/-- The sequencer's move in the big-step reading (R11): an idle sequencer performs the next request if
all of it is on the port, and starts it if only its operand words are (R95); a busy one goes on with
the next event. -/
def requestMove (s : State) : Host.Outcome State Fault Refusal :=
  match s.seq with
  | .busy i k owed => s.advance i k owed
  | .idle =>
    match fetchRequest s with
    | .wait t => .next t
    | .bad t => .next t.badRequest
    | .header i len t => .next (t.accept i len)
    | .whole i t => exec i t

/-- The far end's move (R31): the oldest item of the buffer arrives at the sink. -/
def transportMove (s : State) : Host.Outcome State Fault Refusal :=
  match fetchArriving s with
  | .nothing => .next s
  | .command i t => exec i t
  | .item b t => .next { t with sink := t.sink.take b }

/-- The move of a turn. `hang` stops a request for ever at a pending word or delay (R209); where nothing
is pending that could hang, it changes nothing. That it is a turn, and that a request performed in one
step does not hang in the middle, is the model's choice (assumption 17). -/
def moveOf (t : Turn) (s : State) : Host.Outcome State Fault Refusal :=
  match t with
  | .host => .next s.hostMove
  | .request => requestMove s
  | .event => eventMove s
  | .transport => transportMove s
  | .stall => .next s
  | .hang => if s.mayHang then .fault .requestHung else .next s

/-- One step of the machine; a geometry outside the bounds of R6 is refused. -/
def step (s : State) : Host.Outcome State Fault Refusal :=
  if s.cfg.legal then moveOf s.turn s.useTurn else .refused .illegalConfiguration

/-- The state with an instruction of the opcode table's numbering where the next step fetches it, and
with the turn that fetches it: a bus cycle first in the transport's buffer, a request first on the
port. -/
def State.withFetchWord (s : State) (nbits w : Nat) : State :=
  if isCycleRow nbits then s.placeCycle w else s.placeRequest w

end Sys2Proof.Machine
end

