-- ==== Sys2Proof/Safety.lean ====
section
/-! DEFINITION. The terms in which statements speak: which instructions are requests, the events of an
event list when nothing fails, the state a request leaves, what a legal trace is (the trace
properties of R10, R57, R112, R140, R141, R176), and what the sink is given. -/

namespace Sys2Proof.Machine

/-! ## Requests -/

/-- The fourteen operations of R86; the other constructors are command cycles of R82. -/
def isRequest : Instr → Bool
  | .sendCommand _ | .sendData _ | .writeCommand _ | .writeData _ | .writeDataWords _
  | .writePixels _ | .setAddressWindow _ _ _ _ | .hardReset | .init | .clear _ | .size
  | .drawPixels _ | .fillRegion _ _ | .fillSolid _ _ => true
  | .wireColumnAddressSet | .wireRowAddressSet | .wireMemoryWrite | .wireSleepOut | .wireDisplayOn
  | .wireMemoryAccessControl | .wirePixelFormatSet | .wireVendorF7 | .wireVendorC0 | .wireVendorC1
  | .wireVendorC5 | .wireVendorB1 | .wireVendorB4 | .wireVendorB6 | .wireVendorB7 | .wireVendorBE
  | .wireVendorE9 | .wireVendorE0 | .wireVendorE1 => false

/-- The event an entry of an event list becomes when no drive fails (R9). -/
def eventOf : Action → Event
  | .drive line l => .drive line l
  | .write w => .write w
  | .delay ms => .delay ms

/-- The line an entry of an event list drives. -/
def lineDriven : Action → Option Line
  | .drive line _ => some line
  | .write _ => none
  | .delay _ => none

/-- How many drives an event list attempts (R171). -/
def drivesIn : List Action → Nat
  | [] => 0
  | .drive _ _ :: as => drivesIn as + 1
  | .write _ :: as => drivesIn as
  | .delay _ :: as => drivesIn as

/-- The next `n` drive attempts succeed (R171: the premise a painting claim carries). -/
def State.answersOk (s : State) (n : Nat) : Prop := ∀ j, j < n → s.answerAt j = true

/-- The first failing drive attempt is number `n` from now. -/
def State.firstFailure (s : State) (n : Nat) : Prop := s.answersOk n ∧ s.answerAt n = false

/-! ## The state a request on the bus leaves -/

/-- A request that used only the bus, attempted `n` drives, all successful, and ended: `dc` at level
`d`, the events and the cycles added in order, one response, idle. -/
def State.busEnd (s : State) (n : Nat) (d : Latch) (events : List Event) (cycles : List (Latch × U16))
    (r : Result) (response : List Word) : State :=
  { s with dc := d, tr := s.tr ++ events,
           buffer := s.buffer ++ cycles.map (fun c => .cycle c.1 c.2),
           result := r, resp := s.resp ++ response, seq := .idle, discard := 0,
           lineAnswers := s.lineAnswers.drop n, drives := s.drives + n }

/-- A request that returned `OK` (R9, R30, R88). -/
def State.busOk (s : State) (n : Nat) (d : Level) (events : List Event) (cycles : List (Latch × U16)) :
    State :=
  s.busEnd n (.driven d) events cycles { status := .ok, dims := none } [0x00000000]

/-- The events up to the failing drive number `n` (R171, R176): those before it as they are, then the
failed drive, nothing after it. -/
def untilDrive : Nat → List Event → List Event
  | _, [] => []
  | 0, .drive line l :: _ => [.driveFail line l]
  | n + 1, .drive line l :: es => .drive line l :: untilDrive n es
  | n, .driveFail line l :: es => .driveFail line l :: untilDrive n es
  | n, .write w :: es => .write w :: untilDrive n es
  | n, .delay ms :: es => .delay ms :: untilDrive n es

/-- A request on the bus whose drive number `m` failed (R171, R176): `dc` is `U`, the events and cycles
before it stand, the status is `ControlLineFault`. The mark in the buffer is the model's (assumption
10). -/
def State.busFault (s : State) (m : Nat) (events : List Event) : State :=
  { s with dc := .U, tr := s.tr ++ untilDrive m events,
           buffer := s.buffer ++ (wireFrom .U (untilDrive m events)).map (fun c => .cycle c.1 c.2)
                       ++ [.note .aborted],
           result := { status := .controlLineFault, dims := none }, resp := s.resp ++ [0x00000001],
           seq := .idle, discard := 0,
           lineAnswers := s.lineAnswers.drop (m + 1), drives := s.drives + (m + 1) }

/-- A request that uses only the bus: with its `n` drives answered it performs `events`, leaves `dc` at
`d` and returns `OK`; with drive `m` the first to fail it stops there. -/
def runsOnBus (i : Instr) (s : State) (n : Nat) (d : Level) (events : List Event) : Prop :=
  (s.answersOk n → exec i s = .next (s.busOk n d events (wireFrom .U events))) ∧
  ∀ m, m < n → s.firstFailure m → exec i s = .next (s.busFault m events)

/-- A request without any event that ended with a status (R153, R154, R176). -/
def State.quietEnd (s : State) (r : Result) (response : List Word) : State :=
  { s with result := r, resp := s.resp ++ response, seq := .idle, discard := 0 }

/-- The events of one command call (R110, R120). -/
def commandEvents (c : Byte) : List Event := [.drive .dc .low, .write (c.setWidth 16)]

/-- The events of one single-byte data call (R111, R121). -/
def byteEvents (b : Byte) : List Event := [.drive .dc .high, .write (b.setWidth 16)]

/-- A command cycle of R80: level 0, lines [15:8] zero. -/
def commandCycle (c : Byte) : Latch × U16 := (.driven .low, c.setWidth 16)

/-- A DATA8 cycle of R80: level 1, lines [15:8] zero. -/
def byteCycle (b : Byte) : Latch × U16 := (.driven .high, b.setWidth 16)

/-- A DATA16 cycle of R80: level 1. -/
def wordCycle (w : U16) : Latch × U16 := (.driven .high, w)

/-- The twenty events of an address-window program (R124). -/
def windowEvents (xs ys xe ye : U16) : List Event :=
  commandEvents 0x2A ++
    byteEvents (xs.extractLsb' 8 8) ++ byteEvents (xs.extractLsb' 0 8) ++
    byteEvents (xe.extractLsb' 8 8) ++ byteEvents (xe.extractLsb' 0 8) ++
  commandEvents 0x2B ++
    byteEvents (ys.extractLsb' 8 8) ++ byteEvents (ys.extractLsb' 0 8) ++
    byteEvents (ye.extractLsb' 8 8) ++ byteEvents (ye.extractLsb' 0 8)

/-- The ten cycles of an address-window program (R124). -/
def windowCycles (xs ys xe ye : U16) : List (Latch × U16) :=
  [commandCycle 0x2A, byteCycle (xs.extractLsb' 8 8), byteCycle (xs.extractLsb' 0 8),
    byteCycle (xe.extractLsb' 8 8), byteCycle (xe.extractLsb' 0 8),
   commandCycle 0x2B, byteCycle (ys.extractLsb' 8 8), byteCycle (ys.extractLsb' 0 8),
    byteCycle (ye.extractLsb' 8 8), byteCycle (ye.extractLsb' 0 8)]

/-- The events of a window program, memory write and a pixel stream (R124, R126, R123). -/
def paintEvents (xs ys xe ye : U16) (colours : List Colour) : List Event :=
  windowEvents xs ys xe ye ++ commandEvents 0x2C ++ (.drive .dc .high :: colours.map .write)

/-- The cycles of a window program, memory write and a pixel stream (R124, R126, R123). -/
def paintCycles (xs ys xe ye : U16) (colours : List Colour) : List (Latch × U16) :=
  windowCycles xs ys xe ye ++ [commandCycle 0x2C] ++ colours.map wordCycle

/-- The events of one pixel of `draw_pixels` (R152): a 1 x 1 window, memory write, one word. -/
def pixelEvents (p : Pixel) : List Event :=
  paintEvents (BitVec.ofInt 16 p.x) (BitVec.ofInt 16 p.y) (BitVec.ofInt 16 p.x) (BitVec.ofInt 16 p.y)
    [p.colour]

/-- The triples of a `draw_pixels` that are sent (R152): those on the canvas, and under the policy
`emit` all of them. -/
def sentPixels (c : Config) (ps : List Pixel) : List Pixel :=
  if c.pixelOob = .emit then ps else ps.filter (onCanvas c)

/-- The reset pulse (R140): high, low, high, each followed by 10 ms. -/
def resetEvents : List Event :=
  [.drive .rst .high, .delay 10, .drive .rst .low, .delay 10, .drive .rst .high, .delay 10]

/-- The part of `init` before the table (R141): the reset pulse and the backlight, each if present. -/
def wakeEvents (c : Config) : List Event :=
  (if c.hasRst then resetEvents else []) ++ (if c.hasBl then [.drive .bl .high] else [])

/-- The events of the table (R142). -/
def tableEvents (t : List TableEntry) : List Event :=
  t.flatMap fun e => commandEvents e.1 ++ e.2.flatMap byteEvents

/-- The cycles of the table (R142). -/
def tableCycles (t : List TableEntry) : List (Latch × U16) :=
  t.flatMap fun e => commandCycle e.1 :: e.2.map byteCycle

/-- How many drives the table takes: one per command and one per data byte (R141). -/
def tableDrives (t : List TableEntry) : Nat := (t.map fun e => e.2.length + 1).sum

/-- The events of `init` (R141). -/
def initEvents (c : Config) : List Event :=
  wakeEvents c ++ tableEvents c.initTable ++ (commandEvents 0x11 ++ .delay 60 :: commandEvents 0x29)

/-- How many drives `wakeEvents` takes. -/
def wakeDrives (c : Config) : Nat := (if c.hasRst then 3 else 0) + (if c.hasBl then 1 else 0)

/-- The sink as an `init` finds it when its table begins: everything sent before has arrived, and the
`init` has made the window and the frame memory unspecified (R71). -/
def State.sinkAtTable (s : State) : Sink := (s.sink.takeAll s.buffer).note .initBegin

/-! ## Legal traces -/

/-- The lines a trace may drive, and the delays it may hold: only present lines (R27), the backlight
never to 0 (R143), 10 ms and 60 ms (R181). -/
def eventLegal (c : Config) : Event → Bool
  | .drive line l => linePresent c line && !(line == .bl && l == .low)
  | .driveFail line l => linePresent c line && !(line == .bl && l == .low)
  | .write _ => true
  | .delay ms => ms == 10 || ms == 60

/-- What may stand before a delay: `Delay(10)` directly follows a drive of `RST` (R140), `Delay(60)` the
word of sleep out (R141). -/
def delayPlaced : Option Event → Event → Bool
  | some (.drive .rst _), .delay 10 => true
  | some (.write 0x0011), .delay 60 => true
  | _, .delay _ => false
  | _, _ => true

/-- Every delay of a trace stands where it may, from the event before the trace. -/
def delaysPlaced : Option Event → List Event → Bool
  | _, [] => true
  | prev, e :: es => delayPlaced prev e && delaysPlaced (some e) es

/-- A cycle with a level, and with zero on lines [15:8] when it is a command (R10, R54, R80). -/
def cycleLegal (c : Latch × U16) : Bool :=
  match c.1 with
  | .U => false
  | .driven .low => c.2.extractLsb' 8 8 == (0 : Byte)
  | .driven .high => true

/-- The busy sequencer is where its trace says (R22): the trace ends in the first `k` events of the
request's list, all of them performed. -/
def State.inStep (s : State) : Prop :=
  match s.seq with
  | .idle => True
  | .busy i k _ =>
    k ≤ (planOf s.cfg i).acts.length ∧
      ∃ before, s.tr = before ++ ((planOf s.cfg i).acts.take k).map eventOf

/-! ## Invariants -/

/-- The latches are what the trace says (R9, R23 to R25), and the cycles that have reached the pins,
followed by those in the buffer, are the wire view of the trace: none lost, doubled or reordered
(R31, R61). -/
def State.Coherent (s : State) : Prop :=
  (∀ line, s.latch line = latchAfter line .U s.tr) ∧ wire s.tr = s.pins ++ cyclesOf s.buffer

/-- Every event drives a present line or is a legal delay (R27, R143, R181). -/
def State.EventsLegal (s : State) : Prop := ∀ e ∈ s.tr, eventLegal s.cfg e = true

/-- Every cycle has a level and every command cycle a zero upper half (R10, R80); every delay follows
the event it settles (R140, R141); and a busy sequencer is where its trace says (R22). -/
def State.WellPlaced (s : State) : Prop :=
  s.inStep ∧ (∀ c ∈ wire s.tr, cycleLegal c = true) ∧ delaysPlaced none s.tr = true

/-- The frame memory is in canonical form, and nothing is specified outside the premises of R71. -/
def Sink.Canonical (k : Sink) : Prop :=
  k.gram.wf = true ∧ (k.configured = false → k.gram = [])

/-- Nothing of the window and the frame memory is specified, and the premises of R71 do not hold. -/
def Sink.Blank (k : Sink) : Prop :=
  k.configured = false ∧ k.gram = [] ∧ k.xs = none ∧ k.xe = none ∧ k.ys = none ∧ k.ye = none

/-- An absent line is never driven, so its latch stays `U` (R24, R25, R27). -/
def State.AbsentUndriven (s : State) : Prop :=
  (s.cfg.hasRst = false → s.rst = .U) ∧ (s.cfg.hasBl = false → s.bl = .U)

/-! ## The sink's input -/

/-- Cycles at the sink, in order (R66). -/
def Sink.takeCycles (k : Sink) (cycles : List (Latch × U16)) : Sink :=
  k.takeAll (cycles.map fun c => .cycle c.1 c.2)

end Sys2Proof.Machine
end

