-- ==== Sys2Proof/Certificates/Slice0/Obligations.lean ====
section
/-! DEFINITION. The statements for the provers. Where a statement gives the whole next state, it also
fixes fields that are the model's own and no rule's: the answers of the environment used up
(`lineAnswers`, `drives`; assumption 6), the marks in the buffer (assumption 10), `discard` (assumption
8). Those clauses are the model's choice. -/

open Sys2Proof Sys2Proof.Machine

/-! ## Bus Transport -/

/-- R110 (with D2, D3): one drive of `DC` to the command level, then one command cycle per byte; a
failed drive emits no cycle. -/
def Obligations.SendCommandWritesCommandCycles : Prop :=
  ∀ (bytes : List Byte) (s : State),
    runsOnBus (.sendCommand bytes) s 1 .low (.drive .dc .low :: bytes.map fun b => .write (b.setWidth 16)) ∧
    wireFrom .U (.drive .dc .low :: bytes.map fun b => .write (b.setWidth 16)) = bytes.map commandCycle

/-- R111 (with D1, D2, D3), the three supported formats: one drive to the data level, then one cycle
per element, bytes zero-extended and words as they are. -/
def Obligations.SendDataWritesSupportedPayloads : Prop :=
  ∀ (bytes : List Byte) (words : List U16) (s : State),
    runsOnBus (.sendData (.u8 bytes)) s 1 .high (.drive .dc .high :: bytes.map fun b => .write (b.setWidth 16)) ∧
    runsOnBus (.sendData (.u16le words)) s 1 .high (.drive .dc .high :: words.map .write) ∧
    runsOnBus (.sendData (.u16leIter words)) s 1 .high (.drive .dc .high :: words.map .write) ∧
    wireFrom .U (.drive .dc .high :: bytes.map fun b => .write (b.setWidth 16)) = bytes.map byteCycle ∧
    wireFrom .U (.drive .dc .high :: words.map .write) = words.map wordCycle

/-- R111 and R172 (with D14): any other format drives `DC` to the data level, writes no word and
reports `UnsupportedDataFormat`; a failed drive is reported instead (R178 (a)). -/
def Obligations.SendDataReportsOtherFormats : Prop :=
  ∀ (code : Byte) (raw : List Word) (s : State),
    (s.answersOk 1 → exec (.sendData (.other code raw)) s =
      .next (s.busEnd 1 (.driven .high) [.drive .dc .high] []
        { status := .unsupportedDataFormat, dims := none } [0x00000002])) ∧
    (s.firstFailure 0 → exec (.sendData (.other code raw)) s = .next (s.busFault 0 [.drive .dc .high]))

/-- R112: both transport calls perform exactly one drive of `DC`, as the first event, whatever its level
was; it is not driven again, and stays at the level of the call; all cycles of the call share it. That
the levels are low for `send_command` and high for `send_data` is D3 (assumption 15), that a failed
drive leaves `U` is D15. -/
def Obligations.SelectLineIsSetNotPulsed : Prop :=
  ∀ (i : Instr) (l : Level) (s : State),
    ((∃ bytes, i = .sendCommand bytes) ∧ l = .low ∨ (∃ p, i = .sendData p) ∧ l = .high) →
    ∃ (t : State) (words : List U16), exec i s = .next t ∧
      (s.answerAt 0 = true → t.tr = s.tr ++ .drive .dc l :: words.map .write ∧ t.dc = .driven l) ∧
      (s.answerAt 0 = false → t.tr = s.tr ++ [.driveFail .dc l] ∧ t.dc = .U) ∧
      (∀ c ∈ wireFrom s.dc (.drive .dc l :: words.map .write), c.1 = .driven l)

/-! ## Controller Driver -/

/-- R120: host opcode 3 with the byte in `IMM[7:0]`; the expansion; one command cycle, `dc` 0 afterwards,
for every byte; a failed drive leaves `dc` unspecified, emits no cycle and is reported. Nothing else of
the block or the panel changes. -/
def Obligations.WriteCommandIsOneCommandCycle : Prop :=
  ∀ (cmd : Byte) (s : State),
    (∀ (w : Word) (rest : List Word), w.extractLsb' 0 8 = (3 : Byte) → w.extractLsb' 16 8 = cmd →
      decodeRequest (w :: rest) = .ok (.writeCommand cmd, rest)) ∧
    exec (.writeCommand cmd) s = exec (.sendCommand [cmd]) s ∧
    (s.answerAt 0 = true → ∃ t, exec (.writeCommand cmd) s = .next t ∧
      t.tr = s.tr ++ [.drive .dc .low, .write (cmd.setWidth 16)] ∧
      wireFrom s.dc [.drive .dc .low, .write (cmd.setWidth 16)] = [(.driven .low, cmd.setWidth 16)] ∧
      t.dc = .driven .low ∧ t.result = { status := .ok, dims := none } ∧ t.seq = .idle ∧
      t.rst = s.rst ∧ t.bl = s.bl ∧ t.cfg = s.cfg ∧ t.sink = s.sink ∧ t.port = s.port) ∧
    (s.answerAt 0 = false → ∃ t, exec (.writeCommand cmd) s = .next t ∧
      t.tr = s.tr ++ [.driveFail .dc .low] ∧ t.dc = .U ∧
      t.result = { status := .controlLineFault, dims := none } ∧ t.seq = .idle ∧
      t.rst = s.rst ∧ t.bl = s.bl ∧ t.cfg = s.cfg ∧ t.sink = s.sink ∧ t.port = s.port)

/-- R121, R122, R123 (with D1, D2, D3, D24): one data byte; a word list, value unchanged; a pixel
stream, each colour its own packing, with no memory-write command and no window. -/
def Obligations.DataCallsStreamTheirOperands : Prop :=
  ∀ (byte : Byte) (words : List U16) (colours : List Colour) (s : State),
    runsOnBus (.writeData byte) s 1 .high (byteEvents byte) ∧
    runsOnBus (.writeDataWords words) s 1 .high (.drive .dc .high :: words.map .write) ∧
    runsOnBus (.writePixels colours) s 1 .high (.drive .dc .high :: colours.map .write)

/-- R94: the four wrappers are their expansions. -/
def Obligations.WrappersAreTheirExpansions : Prop :=
  ∀ (cmd byte : Byte) (words : List U16) (colours : List Colour) (s : State),
    exec (.writeCommand cmd) s = exec (.sendCommand [cmd]) s ∧
    exec (.writeData byte) s = exec (.sendData (.u8 [byte])) s ∧
    exec (.writeDataWords words) s = exec (.sendData (.u16le words)) s ∧
    exec (.writePixels colours) s = exec (.sendData (.u16leIter (colours.map fun c => pack (unpack c)))) s

/-- R124 (with D5): twenty events, ten drives, exactly the ten cycles of the big-endian decomposition,
for every four coordinates; at the first failing drive it stops. -/
def Obligations.AddressWindowProgram : Prop :=
  ∀ (xs ys xe ye : U16) (s : State),
    runsOnBus (.setAddressWindow xs ys xe ye) s 10 .high (windowEvents xs ys xe ye) ∧
    wireFrom .U (windowEvents xs ys xe ye) = windowCycles xs ys xe ye ∧
    (windowEvents xs ys xe ye).length = 20

/-- R125: the window of the full canvas, memory write, and `WIDTH * HEIGHT` words of the colour; twelve
drives, and the counts of the rule. -/
def Obligations.ClearStreamsTheWholeCanvas : Prop :=
  ∀ (colour : Colour) (s : State), s.cfg.legal = true →
    let xe : U16 := BitVec.ofNat 16 (s.cfg.width - 1)
    let ye : U16 := BitVec.ofNat 16 (s.cfg.height - 1)
    let pixels := List.replicate (s.cfg.width * s.cfg.height) colour
    runsOnBus (.clear colour) s 12 .high (paintEvents 0 0 xe ye pixels) ∧
    wireFrom .U (paintEvents 0 0 xe ye pixels) = paintCycles 0 0 xe ye pixels ∧
    xe.toNat = s.cfg.width - 1 ∧ ye.toNat = s.cfg.height - 1 ∧
    (paintCycles 0 0 xe ye pixels).length = 11 + s.cfg.width * s.cfg.height ∧
    (paintEvents 0 0 xe ye pixels).length = 23 + s.cfg.width * s.cfg.height

/-- R125 (its derived sentence): `clear` does what `fill_solid` of the whole canvas does. -/
def Obligations.ClearEqualsSolidFillOfTheCanvas : Prop :=
  ∀ (colour : Colour) (s : State), s.cfg.legal = true →
    exec (.clear colour) s =
      exec (.fillSolid { x := 0, y := 0, w := s.cfg.width, h := s.cfg.height } colour) s

/-! ## Reset and initialisation -/

/-- R140 (with D20): no event without a reset line; with one, three drives and three delays, `rst` at 1,
`dc` and `bl` untouched; at the first failing drive it stops, without the delay behind it. That
everything buffered reaches the panel first is R207 (c) (assumption 9). The loss of the window and the
frame memory, with a reset line or without one, is R71, R144 and U17; that it takes its place in the
order as a mark, and that it ends the premises of R71, is the model's choice (assumptions 10, 11). -/
def Obligations.HardResetPulsesTheLine : Prop :=
  ∀ (s : State),
    (s.cfg.hasRst = false →
      exec .hardReset s = .next { s.quietEnd { status := .ok, dims := none } [0x00000000] with
        buffer := s.buffer ++ [.note .panelReset] }) ∧
    (∀ t, exec .hardReset s = .next t → (t.sink.takeAll t.buffer).Blank) ∧
    (s.cfg.hasRst = true → s.answersOk 3 → exec .hardReset s = .next
      { s with rst := .driven .high, tr := s.tr ++ resetEvents,
               pins := s.pins ++ cyclesOf s.buffer, sink := (s.sink.takeAll s.buffer).forget, buffer := [],
               result := { status := .ok, dims := none }, resp := s.resp ++ [0x00000000],
               seq := .idle, discard := 0,
               lineAnswers := s.lineAnswers.drop 3, drives := s.drives + 3 }) ∧
    (s.cfg.hasRst = true → ∀ m, m < 3 → s.firstFailure m → exec .hardReset s = .next
      { s with rst := .U, tr := s.tr ++ untilDrive m resetEvents,
               pins := s.pins ++ cyclesOf s.buffer, sink := (s.sink.takeAll s.buffer).forget,
               buffer := [.note .aborted],
               result := { status := .controlLineFault, dims := none }, resp := s.resp ++ [0x00000001],
               seq := .idle, discard := 0,
               lineAnswers := s.lineAnswers.drop (m + 1), drives := s.drives + (m + 1) })

/-- R141, R142, R143 (with D5): the reset pulse, the backlight, the table, sleep out, 60 ms, display on,
for every table; `rst` and `bl` at 1 when present, `dc` at 0. What is on the pins and in the buffer at
the end follows R61 (c) for the last delay; the sink's state is R71's (assumptions 9, 10). -/
def Obligations.InitReplaysTheTable : Prop :=
  ∀ (s : State), s.answersOk (wakeDrives s.cfg + tableDrives s.cfg.initTable + 2) →
    exec .init s = .next
      { s with dc := .driven .low,
               rst := if s.cfg.hasRst then .driven .high else s.rst,
               bl := if s.cfg.hasBl then .driven .high else s.bl,
               tr := s.tr ++ initEvents s.cfg,
               pins := s.pins ++ cyclesOf s.buffer ++ tableCycles s.cfg.initTable ++ [commandCycle 0x11],
               buffer := [.cycle (.driven .low) 0x0029, .note (.initEnd (setsFormat16 s.cfg.initTable))],
               sink := s.sinkAtTable.takeCycles (tableCycles s.cfg.initTable ++ [commandCycle 0x11]),
               result := { status := .ok, dims := none }, resp := s.resp ++ [0x00000000],
               seq := .idle, discard := 0,
               lineAnswers := s.lineAnswers.drop (wakeDrives s.cfg + tableDrives s.cfg.initTable + 2),
               drives := s.drives + (wakeDrives s.cfg + tableDrives s.cfg.initTable + 2) }

/-- R141's counts, of what a completed `init` adds to the trace and to the bus: `2 * (n + m + 2) + 1`
events plus 6 with a reset line plus 1 with a backlight, and `n + m + 2` cycles, for a table of `n`
entries with `m` data bytes in all. -/
def Obligations.InitEventCounts : Prop :=
  ∀ (s : State) (n m : Nat), n = s.cfg.initTable.length →
    m = (s.cfg.initTable.map fun e => e.2.length).sum →
    s.answersOk ((if s.cfg.hasRst then 3 else 0) + (if s.cfg.hasBl then 1 else 0) + (n + m + 2)) →
    ∃ t es, exec .init s = .next t ∧ t.result.status = .ok ∧ t.tr = s.tr ++ es ∧
      es.length = 2 * (n + m + 2) + 1 + (if s.cfg.hasRst then 6 else 0) + (if s.cfg.hasBl then 1 else 0) ∧
      (wireFrom s.dc es).length = n + m + 2 ∧
      (t.pins ++ cyclesOf t.buffer).length = (s.pins ++ cyclesOf s.buffer).length + (n + m + 2)

/-- R25: the backlight latch is written only by `init`, to 1, and only when the line exists; no
operation drives it low, and no operation's events or result depend on it; `U` after construction. -/
def Obligations.BacklightLatchIsInitsAlone : Prop :=
  (∀ c, (State.construct c).bl = .U) ∧
  ∀ (i : Instr) (s t : State), isRequest i = true → exec i s = .next t →
    (i ≠ .init → t.bl = s.bl) ∧
    (s.cfg.hasBl = false → t.bl = s.bl) ∧
    (i = .init → s.cfg.hasBl = true → t.result.status = .ok → t.bl = .driven .high) ∧
    (∃ es, t.tr = s.tr ++ es ∧ Event.drive .bl .low ∉ es) ∧
    (∀ v, ∃ u, exec i { s with bl := v } = .next u ∧ u.tr = t.tr ∧ u.result = t.result)

/-! ## Drawing Adapter -/

/-- R151: host opcode 11; the two dimensions as configured; the response carries two extra words; no
event, no state written but the result; and no step ever changes the answer. -/
def Obligations.SizeReportsTheGeometry : Prop :=
  (∀ (s : State), ∃ t, exec .size s = .next t ∧
    t.result = { status := .ok, dims := some (s.cfg.width, s.cfg.height) } ∧
    t.resp.length = s.resp.length + (1 + 2) ∧
    t.tr = s.tr ∧ t.pins = s.pins ∧ t.buffer = s.buffer ∧
    t.dc = s.dc ∧ t.rst = s.rst ∧ t.bl = s.bl ∧ t.cfg = s.cfg ∧ t.sink = s.sink) ∧
  (∀ (w : Word) (rest : List Word), w.extractLsb' 0 8 = (11 : Byte) →
    decodeRequest (w :: rest) = .ok (.size, rest)) ∧
  (∀ s t : State, step s = .next t → t.cfg.width = s.cfg.width ∧ t.cfg.height = s.cfg.height)

/-- R88: the response of SIZE is `S0 = 0`, `S1 = WIDTH`, `S2 = HEIGHT` (D11), and nothing else of the
state changes. -/
def Obligations.SizeRespondsThreeWords : Prop :=
  ∀ (s : State), exec .size s = .next
    (s.quietEnd { status := .ok, dims := some (s.cfg.width, s.cfg.height) }
      [0x00000000, BitVec.ofNat 32 s.cfg.width, BitVec.ofNat 32 s.cfg.height])

/-- R152 (with D6, D9): twelve drives and 24 events per triple sent; every triple on the canvas is sent,
in order, no batching; the empty stream emits nothing. Off the canvas the policy `PIXEL_OOB` decides:
`emit` sends truncated coordinates, `skip` drops the triple. -/
def Obligations.DrawPixelsSendsEachTriple : Prop :=
  ∀ (ps : List Pixel) (s : State), admitted s.cfg (.drawPixels ps) = true →
    (sentPixels s.cfg ps = [] →
      exec (.drawPixels ps) s = .next (s.quietEnd { status := .ok, dims := none } [0x00000000])) ∧
    (sentPixels s.cfg ps ≠ [] →
      runsOnBus (.drawPixels ps) s (12 * (sentPixels s.cfg ps).length) .high
        ((sentPixels s.cfg ps).flatMap pixelEvents))

/-- R152, R5, U5: under `PIXEL_OOB = refuse` a request is not admitted exactly when one of its triples
is off the canvas; under the other policies every request is. -/
def Obligations.DrawPixelsOffCanvasIsNotAdmitted : Prop :=
  ∀ (ps : List Pixel) (s : State),
    (exec (.drawPixels ps) s = .refused .pixelOutsideCanvas ↔
      s.cfg.pixelOob = .refuse ∧
      ∃ p ∈ ps, ¬ (0 ≤ p.x ∧ p.x < s.cfg.width ∧ 0 ≤ p.y ∧ p.y < s.cfg.height)) ∧
    (∀ r, exec (.drawPixels ps) s ≠ .fault r) ∧
    (∀ r, exec (.drawPixels ps) s = .refused r → r = .pixelOutsideCanvas)

/-- R153 (with D6, D10, D17): an empty clip returns `OK` and a straddling rectangle reports
`UnsupportedOverlap`, both without any event; a rectangle inside the canvas is programmed unclipped and
the caller's colours are sent whole, in order. -/
def Obligations.FillRegionDispatch : Prop :=
  ∀ (r : Rect) (colours : List Colour) (s : State),
    (clip s.cfg r = none →
      exec (.fillRegion r colours) s = .next (s.quietEnd { status := .ok, dims := none } [0x00000000])) ∧
    (clip s.cfg r ≠ none → inside s.cfg r = false →
      exec (.fillRegion r colours) s =
        .next (s.quietEnd { status := .unsupportedOverlap, dims := none } [0x00000003])) ∧
    (inside s.cfg r = true →
      runsOnBus (.fillRegion r colours) s 12 .high
        (paintEvents (BitVec.ofInt 16 r.x) (BitVec.ofInt 16 r.y) (BitVec.ofInt 16 (r.x + r.w - 1))
          (BitVec.ofInt 16 (r.y + r.h - 1)) colours))

/-- R154 (with D6): an empty clip returns `OK` without any event; any other rectangle is clipped, and the
clipped rectangle's area is the number of words. -/
def Obligations.FillSolidClips : Prop :=
  ∀ (r : Rect) (colour : Colour) (s : State),
    (clip s.cfg r = none →
      exec (.fillSolid r colour) s = .next (s.quietEnd { status := .ok, dims := none } [0x00000000])) ∧
    (∀ g, clip s.cfg r = some g →
      runsOnBus (.fillSolid r colour) s 12 .high
        (paintEvents (BitVec.ofInt 16 g.x0) (BitVec.ofInt 16 g.y0) (BitVec.ofInt 16 (g.x1 - 1))
          (BitVec.ofInt 16 (g.y1 - 1)) (List.replicate g.area colour)))

/-- R150: the clip is the intersection with the canvas, point by point; it is empty exactly when no
point lies in both; and a rectangle is inside exactly when the clip is the rectangle itself. -/
def Obligations.ClipIsTheIntersection : Prop :=
  ∀ (c : Config) (r : Rect),
    (∀ g, clip c r = some g → g.x0 < g.x1 ∧ g.y0 < g.y1 ∧
      ∀ x y : Int, (g.x0 ≤ x ∧ x < g.x1 ∧ g.y0 ≤ y ∧ y < g.y1) ↔
        (r.x ≤ x ∧ x < r.x + r.w ∧ r.y ≤ y ∧ y < r.y + r.h) ∧
        (0 ≤ x ∧ x < c.width ∧ 0 ≤ y ∧ y < c.height)) ∧
    (clip c r = none ↔ ¬ ∃ x y : Int,
        (r.x ≤ x ∧ x < r.x + r.w ∧ r.y ≤ y ∧ y < r.y + r.h) ∧
        (0 ≤ x ∧ x < c.width ∧ 0 ≤ y ∧ y < c.height)) ∧
    (inside c r = true ↔ clip c r = some { x0 := r.x, y0 := r.y, x1 := r.x + r.w, y1 := r.y + r.h })

/-- R155: under the bounds of R6 a clip's coordinates fit the 16-bit window fields, and its area is at
most `WIDTH * HEIGHT`. -/
def Obligations.ClipFitsTheWindowFields : Prop :=
  ∀ (c : Config) (r : Rect) (g : Region), c.legal = true → clip c r = some g →
    ((BitVec.ofInt 16 g.x0).toNat : Int) = g.x0 ∧ ((BitVec.ofInt 16 g.y0).toNat : Int) = g.y0 ∧
    ((BitVec.ofInt 16 (g.x1 - 1)).toNat : Int) = g.x1 - 1 ∧
    ((BitVec.ofInt 16 (g.y1 - 1)).toNat : Int) = g.y1 - 1 ∧
    (g.area : Int) = (g.x1 - g.x0) * (g.y1 - g.y0) ∧ g.area ≤ c.width * c.height

/-- R84 (its bit positions are general knowledge, G6): packing and unpacking are inverse, the fields
stand where the rule puts them, and a colour held as a word is sent unchanged. -/
def Obligations.ColourPackingIsLossless : Prop :=
  (∀ w : U16, pack (unpack w) = w) ∧ (∀ c : Rgb565, unpack (pack c) = c) ∧
  (∀ c : Rgb565, (pack c).toNat = c.r.toNat * 2048 + c.g.toNat * 32 + c.b.toNat) ∧
  (∀ c : Colour, wireColour c = c)

/-- R83 and R54: the two bytes of a coordinate give it back, high byte first; a byte is widened with
zeros. -/
def Obligations.ByteSplitAndWidening : Prop :=
  (∀ v : U16, (hi8 v).toNat * 256 + (lo8 v).toNat = v.toNat) ∧
  (∀ v : U16, (hi8 v ++ lo8 v : U16) = v) ∧
  (∀ b : Byte, (zext16 b).toNat = b.toNat)

/-! ## Conditions -/

/-- R157 and R209: every admitted request comes to its end, idle, with one response for its result. -/
def Obligations.EveryRequestEndsIdle : Prop :=
  ∀ (i : Instr) (s : State), isRequest i = true → admitted s.cfg i = true →
    ∃ t, exec i s = .next t ∧ t.seq = .idle ∧ t.resp = s.resp ++ responseWords t.result ∧
      t.cfg = s.cfg ∧ t.port = s.port

/-- R176 and R171 (with D15): when drive `m` is the first to fail, every event before it has been
performed and none after it; its line is unspecified and the others are as the events left them; the
result is `ControlLineFault` and the block is idle; and no cycle is lost. -/
def Obligations.FailedDriveEndsTheRequest : Prop :=
  ∀ (i : Instr) (s : State) (m : Nat), isRequest i = true → admitted s.cfg i = true →
    m < drivesIn (planOf s.cfg i).acts → s.firstFailure m →
    ∃ before line l after t, (planOf s.cfg i).acts = before ++ .drive line l :: after ∧
      drivesIn before = m ∧ exec i s = .next t ∧
      t.tr = s.tr ++ before.map eventOf ++ [.driveFail line l] ∧
      t.latch line = .U ∧
      (∀ other, other ≠ line → t.latch other = latchAfter other (s.latch other) (before.map eventOf)) ∧
      t.pins ++ cyclesOf t.buffer = s.pins ++ cyclesOf s.buffer ++ wireFrom s.dc (before.map eventOf) ∧
      t.result = { status := .controlLineFault, dims := none } ∧
      t.resp = s.resp ++ [0x00000001] ∧ t.seq = .idle ∧ t.cfg = s.cfg

/-- R170 and R176 (I2 and I3 of `95_test_vectors.md`): a request adds at most one failed drive, and only
as its last event, exactly when its status is `ControlLineFault`. -/
def Obligations.StatusTellsTheFailedDrive : Prop :=
  ∀ (i : Instr) (s t : State), isRequest i = true → exec i s = .next t →
    ∃ es, t.tr = s.tr ++ es ∧
      (t.result.status = .controlLineFault → ∃ before line l, es = before ++ [.driveFail line l] ∧
        ∀ m v, Event.driveFail m v ∉ before) ∧
      (t.result.status ≠ .controlLineFault → ∀ m v, Event.driveFail m v ∉ es)

/-- R178: (a) a failing drive is reported before an unsupported format; (b) `fill_region` tests
emptiness, then containment, then drives; (c) `init` meets its drives in the order `RST` three times,
`BL`, `DC`, and stops at the first failure; (d) `BadRequest` is decided on `W0` alone. -/
def Obligations.ConditionPriority : Prop :=
  (∀ code raw s, s.answerAt 0 = false → ∃ t, exec (.sendData (.other code raw)) s = .next t ∧
    t.result.status = .controlLineFault) ∧
  (∀ r cs s, ∃ t, exec (.fillRegion r cs) s = .next t ∧
    (clip s.cfg r = none → t.result.status = .ok) ∧
    (clip s.cfg r ≠ none → inside s.cfg r = false → t.result.status = .unsupportedOverlap) ∧
    (t.result.status = .controlLineFault → inside s.cfg r = true)) ∧
  (∀ c, ∃ n, (initActs c).filterMap lineDriven =
      (if c.hasRst then [.rst, .rst, .rst] else []) ++ (if c.hasBl then [.bl] else []) ++
        List.replicate n .dc) ∧
  (∀ (s : State) (m : Nat), m < drivesIn (initActs s.cfg) → s.firstFailure m →
    ∃ t, exec .init s = .next t ∧ t.result.status = .controlLineFault ∧
      t.tr = s.tr ++ untilDrive m (initEvents s.cfg)) ∧
  (∀ w0 rest, (¬ (1 ≤ (lowByte w0).toNat ∧ (lowByte w0).toNat ≤ 14)) →
    decodeRequest (w0 :: rest) = .error (.badOp (lowByte w0)))

/-- R89, R174 and R176 (with D11, D12): a word that spells no request is taken from the port alone and
answered `BadRequest`; no event, no latch changed, idle; the next word is a new `W0`. -/
def Obligations.WordThatSpellsNoRequest : Prop :=
  ∀ (s : State) (w : Word) (rest : List Word), s.cfg.legal = true →
    (s.turn = .request ∨ s.turn = .event) → s.seq = .idle → s.discard = 0 → s.port = w :: rest →
    ((lowByte w).toNat = 0 ∨ 15 ≤ (lowByte w).toNat) →
    step s = .next { s.useTurn with port := rest, result := { status := .badRequest, dims := none },
                                    resp := s.resp ++ [0x000000FF] }

/-- R177 (with D16): the block keeps no record of past conditions. What a request does (its status, its
events) depends on the configuration, the request and the answers to its own drives, and on nothing
else of the state. -/
def Obligations.NoFaultLatch : Prop :=
  ∀ (i : Instr) (s t s' t' : State), isRequest i = true → s.cfg = s'.cfg →
    (∀ j, j < drivesIn (planOf s.cfg i).acts → s.answerAt j = s'.answerAt j) → exec i s = .next t → exec i s' = .next t' →
    t.result = t'.result ∧ ∃ es, t.tr = s.tr ++ es ∧ t'.tr = s'.tr ++ es

/-! ## The far end: the wire command codes and the reference sink -/

/-- R67, R68, R69: the three commands the sink acts on, where they arrive; memory write sets the cursor
to `(xs, ys)`, ordered or not, and where one of the two is `U` the cursor is unspecified too. Nothing of
the block changes. -/
def Obligations.WireWindowCommands : Prop :=
  ∀ (s : State),
    exec .wireColumnAddressSet s =
      .next { s with sink := { s.sink with xs := none, xe := none, mode := .param 0x2A [] } } ∧
    exec .wireRowAddressSet s =
      .next { s with sink := { s.sink with ys := none, ye := none, mode := .param 0x2B [] } } ∧
    (∀ xs ys : U16, s.sink.xs = some xs → s.sink.ys = some ys →
      exec .wireMemoryWrite s =
        .next { s with sink := { s.sink with mode := .pixels, cursor := some (xs.toNat, ys.toNat) } }) ∧
    ((s.sink.xs = none ∨ s.sink.ys = none) →
      exec .wireMemoryWrite s = .next { s with sink := { s.sink with mode := .pixels, cursor := none } })

/-- R71: the sixteen other codes of R82. (a) Inside an `init` they are logged and leave the window and
the frame memory alone; (b) outside one they make both unspecified (and end the premises, assumption
11). Nothing of the block changes. -/
def Obligations.WireInitCommands : Prop :=
  ∀ (c : Byte) (i : Instr) (s : State), (c, i) ∈ wireMap → c ≠ 0x2A → c ≠ 0x2B → c ≠ 0x2C →
    (s.sink.inInit = true → exec i s =
      .next { s with sink := { s.sink with log := .command c [] :: s.sink.log, mode := .param c [] } }) ∧
    (s.sink.inInit = false → exec i s =
      .next { s with sink := { s.sink with log := .command c [] :: s.sink.log, mode := .param c [],
                                           xs := none, xe := none, ys := none, ye := none, gram := [],
                                           configured := false, tainted := true } })

/-- R68, under the premises of R71 (assumption 11): four parameter bytes after 0x2A set the columns, after
0x2B the rows, big-endian; with fewer, the fields are unspecified. The frame memory is untouched. -/
def Obligations.WindowParametersSetTheWindow : Prop :=
  ∀ (k : Sink) (p0 p1 p2 p3 : Byte), k.configured = true →
    (let t := k.takeCycles [commandCycle 0x2A, byteCycle p0, byteCycle p1, byteCycle p2, byteCycle p3]
     t.xs = some (p0 ++ p1) ∧ t.xe = some (p2 ++ p3) ∧ t.ys = k.ys ∧ t.ye = k.ye ∧
     t.gram = k.gram ∧ t.configured = true) ∧
    (let t := k.takeCycles [commandCycle 0x2B, byteCycle p0, byteCycle p1, byteCycle p2, byteCycle p3]
     t.ys = some (p0 ++ p1) ∧ t.ye = some (p2 ++ p3) ∧ t.xs = k.xs ∧ t.xe = k.xe ∧
     t.gram = k.gram ∧ t.configured = true) ∧
    (∀ ps : List Byte, ps.length < 4 →
      (k.takeCycles (commandCycle 0x2A :: ps.map byteCycle)).xs = none ∧
      (k.takeCycles (commandCycle 0x2A :: ps.map byteCycle)).xe = none ∧
      (k.takeCycles (commandCycle 0x2B :: ps.map byteCycle)).ys = none ∧
      (k.takeCycles (commandCycle 0x2B :: ps.map byteCycle)).ye = none)

/-- R70, R69, U6, U12: a pixel word past the last position of the window or under an unusable window
leaves the whole frame memory unspecified, and the window as it is. U7: data words after the four
parameters of 0x2A or 0x2B, without memory write, lose the window as well. That the premises of R71
stand, and that a fifth byte of either command counts as U7, is the model's reading (assumption 11). -/
def Obligations.ExcessWordsAreUnspecified : Prop :=
  (∀ (k : Sink) (w : U16), k.mode = .pixels →
    (k.window = none ∨ k.cursor = none ∨
      ∃ col row ye, k.cursor = some (col, row) ∧ k.ye = some ye ∧ ye.toNat < row) →
    (k.data w).gram = [] ∧ (k.data w).configured = k.configured ∧ (k.data w).xs = k.xs ∧
    (k.data w).xe = k.xe ∧ (k.data w).ys = k.ys ∧ (k.data w).ye = k.ye) ∧
  (∀ (k : Sink) (got : List Byte) (w : U16), 4 ≤ got.length →
    (k.mode = .param 0x2A got ∨ k.mode = .param 0x2B got) →
    (k.data w).gram = [] ∧ (k.data w).configured = k.configured ∧
    (k.data w).xs = none ∧ (k.data w).xe = none ∧ (k.data w).ys = none ∧ (k.data w).ye = none)

/-- R72, under the premises of R71: a window program for an ordered window, memory write, and exactly
`n` words: word `i` is at column `xs + i mod m`, row `ys + i div m`; every other pixel is unchanged. -/
def Obligations.PixelStreamFillsTheWindow : Prop :=
  ∀ (k : Sink) (xs ys xe ye : U16) (colours : List U16), k.configured = true →
    xs.toNat ≤ xe.toNat → ys.toNat ≤ ye.toNat →
    colours.length = (xe.toNat - xs.toNat + 1) * (ye.toNat - ys.toNat + 1) →
    let t := k.takeCycles (paintCycles xs ys xe ye colours)
    let m := xe.toNat - xs.toNat + 1
    (∀ i, i < colours.length →
      t.gram.read (gramAddr (xs.toNat + i % m) (ys.toNat + i / m)) = colours[i]?) ∧
    (∀ col row, col < 65536 →
      ¬ (xs.toNat ≤ col ∧ col ≤ xe.toNat ∧ ys.toNat ≤ row ∧ row ≤ ye.toNat) →
      t.gram.read (gramAddr col row) = k.gram.read (gramAddr col row)) ∧
    t.configured = true

/-- R154 through the sink (R72), under the premises of R71: when a solid fill with no failed drive has
arrived at the panel, exactly the clipped rectangle has the colour, every other pixel is as before. -/
def Obligations.SolidFillPaintsExactlyTheClip : Prop :=
  ∀ (r : Rect) (colour : Colour) (s t : State) (g : Region), s.cfg.legal = true →
    clip s.cfg r = some g → s.answersOk 12 → exec (.fillSolid r colour) s = .next t →
    (s.sink.takeAll s.buffer).configured = true →
    ∀ col row : Nat, col < 65536 →
      (t.sink.takeAll t.buffer).gram.read (gramAddr col row) =
        if g.x0 ≤ col ∧ (col : Int) < g.x1 ∧ g.y0 ≤ row ∧ (row : Int) < g.y1 then some colour
        else (s.sink.takeAll s.buffer).gram.read (gramAddr col row)

/-- How the premises of R71 (the field `configured`, assumption 11) come about and end, when everything
sent has arrived. A completed `init`, whose table has only codes that R142 (a) allows and 0x55 as its
last 0x3A entry, brings them about (R71). A request that ended in a `ControlLineFault` (R206, U1) and every
`hard_reset` (R71, R144, U17) end them, and a failed or completed `init` leaves nothing of the window or
the frame memory specified (R71, U17). -/
def Obligations.PremisesComeAndGo : Prop :=
  (∀ s : State, (∀ e ∈ s.cfg.initTable, e.1 ∈ Config.tableCodes) → setsFormat16 s.cfg.initTable = true →
    s.answersOk (wakeDrives s.cfg + tableDrives s.cfg.initTable + 2) →
    ∃ t, exec .init s = .next t ∧ (t.sink.takeAll t.buffer).configured = true) ∧
  (∀ (i : Instr) (s t : State), isRequest i = true → exec i s = .next t →
    t.result.status = .controlLineFault → (t.sink.takeAll t.buffer).Blank) ∧
  (∀ s t : State, exec .hardReset s = .next t → (t.sink.takeAll t.buffer).Blank) ∧
  (∀ s t : State, exec .init s = .next t →
    let k := t.sink.takeAll t.buffer
    k.gram = [] ∧ k.xs = none ∧ k.xe = none ∧ k.ys = none ∧ k.ye = none)

/-- R71, R67: a command other than 0x2A, 0x2B and 0x2C is logged with its data bytes, the low halves of
the data cycles after it. (a) A code of R82's map inside an `init` changes nothing else but the sink's
place among its data. (b) Any code outside an `init` makes the window and the frame memory unspecified
(U8), be it in the map or not (R91). That (b) ends the premises, and that a code outside the map is
treated so inside an `init` too, is the model's choice (assumption 11). R67: a data word in the mode idle
is logged and changes nothing else. -/
def Obligations.SinkLogsOtherTraffic : Prop :=
  (∀ (k : Sink) (c : Byte) (ws : List U16), c ≠ 0x2A → c ≠ 0x2B → c ≠ 0x2C →
    let t := k.takeCycles (commandCycle c :: ws.map wordCycle)
    let data := ws.map fun w => w.extractLsb' 0 8
    (k.inInit = true → (∃ i, (c, i) ∈ wireMap) →
      t = { k with mode := .param c data, log := .command c data :: k.log }) ∧
    ((k.inInit = false ∨ ¬ ∃ i, (c, i) ∈ wireMap) →
      t = { k with mode := .param c data, log := .command c data :: k.log,
                   xs := none, xe := none, ys := none, ye := none, gram := [],
                   configured := false, tainted := true })) ∧
  (∀ (k : Sink) (w : U16), k.mode = .idle →
    k.takeCycles [wordCycle w] = { k with log := .stray w :: k.log })

/-! ## Encodings -/

/-- R82, R85 to R87: every well-formed instruction decodes from its encoding, with every operand at
every value, and leaves the words behind it (assumption 5: unused fields are encoded as zero). -/
def Obligations.EncodedInstructionsDecode : Prop :=
  ∀ (i : Instr) (rest : List Word), i.wellFormed = true →
    decode ((encode i).andThen rest) = .ok (i, if isRequest i then rest else [])

/-- Words written out from the tables of R82, R86 and the host encodings of `95_test_vectors.md`. -/
def Obligations.SampleWordsDecode : Prop :=
  decodeRequest [0x00000001, 0x00000001, 0x0000002A] = .ok (.sendCommand [0x2A], []) ∧
  decodeRequest [0x002C0003] = .ok (.writeCommand 0x2C, []) ∧
  decodeRequest [0x00000007, 0x000001D6, 0x000901DF] = .ok (.setAddressWindow 470 0 479 9, []) ∧
  decodeRequest [0xABCD1208] = .ok (.hardReset, []) ∧
  decodeRequest [0x001F000E, 0xFFFFFFFB, 0xFFFFFFFB, 0x0000000A, 0x0000000A] =
    .ok (.fillSolid { x := -5, y := -5, w := 10, h := 10 } 0x001F, []) ∧
  decodeTableWord 24 0x0002C = some .wireMemoryWrite ∧ decodeTableWord 24 0x000E1 = some .wireVendorE1

/-- R89, R82: an `OP` outside 0x01 to 0x0E spells no request; a bus cycle is one of the nineteen codes
only with the command level, a zero upper half and a code of the map. -/
def Obligations.UnassignedEncodingsAreRejected : Prop :=
  (∀ (w : Word) (rest : List Word), ((lowByte w).toNat = 0 ∨ 15 ≤ (lowByte w).toNat) →
    decodeHeader (w :: rest) = .error (.badOp (lowByte w))) ∧
  (∀ (c : BitVec 17) (i : Instr), decodeCycle c = .ok i ↔
    ∃ code, (code, i) ∈ wireMap ∧ c.toNat = code.toNat)

/-- R85: a field an operation does not use is ignored: the request depends on `OP`, on `IMM` for
WRITE_COMMAND, WRITE_DATA (its low byte), CLEAR and FILL_SOLID, and on `FMT` for SEND_DATA. -/
def Obligations.UnusedFieldsAreIgnored : Prop :=
  ∀ (v w : Word) (rest : List Word), lowByte v = lowByte w →
    ((lowByte w).toNat = 2 → fmtField v = fmtField w) →
    ((lowByte w).toNat = 3 ∨ (lowByte w).toNat = 4 → immByte v = immByte w) →
    ((lowByte w).toNat = 10 ∨ (lowByte w).toNat = 14 → highHalf v = highHalf w) →
    decodeRequest (v :: rest) = decodeRequest (w :: rest)

/-- R87: the upper bits of an element word that are not named are ignored: bits 31 to 8 of a byte, bits
31 to 16 of a 16-bit word or a colour, and of a pixel triple those of the third word. The elements of an
`Other` format change nothing of what the request does. -/
def Obligations.ElementUpperBitsAreIgnored : Prop :=
  (∀ (w n : Word) (es fs rest : List Word), es.length = n.toNat → es.map lowByte = fs.map lowByte →
    (lowByte w).toNat = 1 ∨ (lowByte w).toNat = 2 ∧ (fmtField w).toNat = 0 →
    decodeRequest (w :: n :: (es ++ rest)) = decodeRequest (w :: n :: (fs ++ rest))) ∧
  (∀ (w n : Word) (es fs rest : List Word), es.length = n.toNat → es.map lowHalf = fs.map lowHalf →
    (lowByte w).toNat = 5 ∨ (lowByte w).toNat = 6 ∨
      (lowByte w).toNat = 2 ∧ ((fmtField w).toNat = 1 ∨ (fmtField w).toNat = 2) →
    decodeRequest (w :: n :: (es ++ rest)) = decodeRequest (w :: n :: (fs ++ rest))) ∧
  (∀ (w x y a b n : Word) (es fs rest : List Word), es.length = n.toNat →
    es.map lowHalf = fs.map lowHalf → (lowByte w).toNat = 13 →
    decodeRequest (w :: x :: y :: a :: b :: n :: (es ++ rest)) =
      decodeRequest (w :: x :: y :: a :: b :: n :: (fs ++ rest))) ∧
  (∀ (w n : Word) (ps : List (Word × Word × Word × Word)) (rest : List Word), ps.length = n.toNat →
    (∀ p ∈ ps, lowHalf p.2.2.1 = lowHalf p.2.2.2) → (lowByte w).toNat = 12 →
    decodeRequest (w :: n :: (ps.flatMap (fun p => [p.1, p.2.1, p.2.2.1]) ++ rest)) =
      decodeRequest (w :: n :: (ps.flatMap (fun p => [p.1, p.2.1, p.2.2.2]) ++ rest))) ∧
  (∀ (code : Byte) (es fs : List Word) (s : State),
    exec (.sendData (.other code es)) s = exec (.sendData (.other code fs)) s)

/-- R92 (with R86): a decoded request has used exactly the words that its `OP` and its count word `LEN`
give it, and leaves the rest: the low byte of the first word is its opcode, the count word its number of
elements. No request decodes to a wire command. -/
def Obligations.RequestLengthFollowsOpAndLen : Prop :=
  ∀ (ws rest : List Word) (i : Instr), decodeRequest ws = .ok (i, rest) →
    ∃ used, ws = used ++ rest ∧
      let op := used[0]?.map fun w => (lowByte w).toNat
      let count (k : Nat) := used[k]?.map BitVec.toNat
      match i with
      | .sendCommand bs => op = some 1 ∧ count 1 = some bs.length ∧ used.length = 2 + bs.length
      | .sendData p => op = some 2 ∧ count 1 = some p.words.length ∧ used.length = 2 + p.words.length
      | .writeCommand _ => op = some 3 ∧ used.length = 1
      | .writeData _ => op = some 4 ∧ used.length = 1
      | .writeDataWords vs => op = some 5 ∧ count 1 = some vs.length ∧ used.length = 2 + vs.length
      | .writePixels cs => op = some 6 ∧ count 1 = some cs.length ∧ used.length = 2 + cs.length
      | .setAddressWindow _ _ _ _ => op = some 7 ∧ used.length = 3
      | .hardReset => op = some 8 ∧ used.length = 1
      | .init => op = some 9 ∧ used.length = 1
      | .clear _ => op = some 10 ∧ used.length = 1
      | .size => op = some 11 ∧ used.length = 1
      | .drawPixels ps => op = some 12 ∧ count 1 = some ps.length ∧ used.length = 2 + 3 * ps.length
      | .fillRegion _ cs => op = some 13 ∧ count 5 = some cs.length ∧ used.length = 6 + cs.length
      | .fillSolid _ _ => op = some 14 ∧ used.length = 5
      | _ => False

/-! ## Steps -/

/-- A step of the sequencer runs the request decoded from the port (R11, R22), the words and the turn
used up. -/
def Obligations.StepRunsTheDecodedRequest : Prop :=
  ∀ (s : State) (i : Instr) (rest : List Word), s.cfg.legal = true → s.turn = .request →
    s.seq = .idle → s.discard = 0 → decodeRequest s.port = .ok (i, rest) →
    step s = exec i { s.useTurn with port := rest }

/-- R22, R95: an idle sequencer accepts a request (`seq <- (req, 0)`) when its operand words are on the
port, also when payload is missing, with its `LEN` elements still to be read; while an operand word is
missing it waits, and takes nothing. A request's operand words are those of R92's table. That it starts
before its payload is there is the model's reading of R95 (assumption 8), its opening mark the model's
own (assumption 10). -/
def Obligations.IdleStepAcceptsOrWaits : Prop :=
  (∀ s : State, s.cfg.legal = true → s.seq = .idle → s.discard = 0 →
    (∀ h, decodeHeader s.port = .ok h →
      (s.turn = .event ∨ s.turn = .request ∧ decodeRequest s.port = .error .cutShort) →
      step s = .next { s.useTurn with
        port := h.rest, seq := .busy h.instr 0 h.len,
        buffer := s.buffer ++ (planOf s.cfg h.instr).opening.map BusItem.note }) ∧
    ((s.turn = .request ∨ s.turn = .event) →
      (decodeHeader s.port = .error .noWord ∨ decodeHeader s.port = .error .cutShort) →
      step s = .next s.useTurn)) ∧
  decodeHeader [] = .error .noWord ∧
  (∀ (w : Word) (ws : List Word), 1 ≤ (lowByte w).toNat → (lowByte w).toNat ≤ 14 →
    ((w :: ws).length < requestLength (lowByte w).toNat → decodeHeader (w :: ws) = .error .cutShort) ∧
    (requestLength (lowByte w).toNat ≤ (w :: ws).length →
      ∃ h, decodeHeader (w :: ws) = .ok h ∧ h.rest = (w :: ws).drop (requestLength (lowByte w).toNat) ∧
        (h.rest.length < h.len * elementWords h.instr → decodeRequest (w :: ws) = .error .cutShort) ∧
        ∀ es rest, h.rest = es ++ rest → es.length = h.len * elementWords h.instr →
          decodeRequest (w :: ws) = .ok (h.instr.withElements es, rest)))

/-- R7 (1), R186: the host's step puts the next word of the request it has issued on the port; when all
its words are there it waits until a response has been given; then it takes the result; and only then
it issues the next request, if it has one. Nothing else of the machine changes, and no other turn
changes the host. That the host's requests stand in a list of the state, and that a payload is sent to
its end, is the model's choice (assumption 22). -/
def Obligations.HostIssuesOneRequestAtATime : Prop :=
  (∀ s : State, s.cfg.legal = true → s.turn = .host →
    (∀ w ws, s.host.sending = w :: ws →
      step s = .next { s.useTurn with port := s.port ++ [w], host := { s.host with sending := ws } }) ∧
    (∀ n, s.host.sending = [] → s.host.awaiting = some n → s.resp.length ≤ n → step s = .next s.useTurn) ∧
    (∀ n, s.host.sending = [] → s.host.awaiting = some n → n < s.resp.length →
      step s = .next { s.useTurn with host := { s.host with awaiting := none } }) ∧
    (∀ r rs, s.host.sending = [] → s.host.awaiting = none → s.host.script = r :: rs →
      step s = .next { s.useTurn with
        host := { script := rs, sending := r, awaiting := some s.resp.length } }) ∧
    (s.host.sending = [] → s.host.awaiting = none → s.host.script = [] → step s = .next s.useTurn)) ∧
  (∀ s t : State, step s = .next t → s.turn ≠ .host → t.host = s.host)

/-- A step of the far end carries out the oldest bus cycle (R31, R66): a command cycle of the map of R82
as its instruction, any other cycle or mark at the sink. -/
def Obligations.StepDeliversTheOldestCycle : Prop :=
  ∀ (s : State), s.cfg.legal = true → s.turn = .transport →
    (s.buffer = [] → step s = .next s.useTurn) ∧
    (∀ l w rest i, s.buffer = .cycle (.driven l) w :: rest → decodeCycle (cycleBits l w) = .ok i →
      step s = exec i { s.useTurn with buffer := rest, pins := s.pins ++ [(.driven l, w)] } ∧
      step s = .next { s.useTurn with buffer := rest, pins := s.pins ++ [(.driven l, w)],
                                      sink := s.sink.cycle (.driven l) w }) ∧
    (∀ l w rest e, s.buffer = .cycle (.driven l) w :: rest → decodeCycle (cycleBits l w) = .error e →
      step s = .next { s.useTurn with buffer := rest, pins := s.pins ++ [(.driven l, w)],
                                      sink := s.sink.cycle (.driven l) w }) ∧
    (∀ n rest, s.buffer = .note n :: rest →
      step s = .next { s.useTurn with buffer := rest, sink := s.sink.note n })

/-- R22: a busy sequencer performs event number `k` and goes to `k + 1`, or ends the request when the
drive fails; when the list so far is exhausted and no element is owed, or the operation does not use
its payload, it ends. The model's reading of R95 (assumption 8): otherwise it reads the next payload
element, or waits for it. R152 (assumption 14): under `PIXEL_OOB = refuse` an element off the canvas is
not admitted. -/
def Obligations.StepPerformsOneEvent : Prop :=
  ∀ (s : State) (i : Instr) (k owed : Nat), s.cfg.legal = true →
    (s.turn = .request ∨ s.turn = .event) → s.seq = .busy i k owed →
    (∀ a, (planOf s.cfg i).acts[k]? = some a →
      step s = match s.useTurn.perform a with
        | (t, true) => .next { t with seq := .busy i (k + 1) owed }
        | (t, false) => .next (t.raise .controlLineFault (owed * elementWords i))) ∧
    ((planOf s.cfg i).acts[k]? = none → (owed = 0 ∨ (planOf s.cfg i).streams = false) →
      step s = .next (s.useTurn.conclude (planOf s.cfg i) (owed * elementWords i))) ∧
    ((planOf s.cfg i).acts[k]? = none → 0 < owed → (planOf s.cfg i).streams = true →
      s.port.length < elementWords i → step s = .next s.useTurn) ∧
    ((planOf s.cfg i).acts[k]? = none → 0 < owed → (planOf s.cfg i).streams = true →
      elementWords i ≤ s.port.length →
      admitted s.cfg (i.withElements (s.port.take (elementWords i))) = true →
      step s = .next { s.useTurn with port := s.port.drop (elementWords i),
                                      seq := .busy (i.withElements (s.port.take (elementWords i))) k (owed - 1) }) ∧
    ((planOf s.cfg i).acts[k]? = none → 0 < owed → (planOf s.cfg i).streams = true →
      elementWords i ≤ s.port.length →
      admitted s.cfg (i.withElements (s.port.take (elementWords i))) = false →
      step s = .refused .pixelOutsideCanvas)

/-- R92: the unread payload words of an ended request are taken from the port and discarded before the
next `W0`, without an event, as far as they have arrived. -/
def Obligations.UnreadPayloadIsDiscarded : Prop :=
  ∀ (s : State), s.cfg.legal = true → (s.turn = .request ∨ s.turn = .event) → s.seq = .idle →
    0 < s.discard →
    step s = .next { s.useTurn with port := s.port.drop s.discard, discard := s.discard - s.port.length }

/-- R6, U16: the geometry is refused exactly when it is outside the bounds. R209, U18: a transport or a
delay that never returns stops a request whose next event is a word or a delay, and nothing else faults
(the turn is the model's, assumption 17). R152, U5: a triple off the canvas is refused exactly under
`PIXEL_OOB = refuse`, in the `draw_pixels` fetched or in the one begun with the element just read
(assumptions 8, 14). There is no other refusal. -/
def Obligations.OnlyTheseStops : Prop :=
  (∀ s : State, step s = .refused .illegalConfiguration ↔ s.cfg.legal = false) ∧
  (∀ (s : State) (r : Fault), step s = .fault r ↔
    r = .requestHung ∧ s.cfg.legal = true ∧ s.turn = .hang ∧ ∃ i k owed, s.seq = .busy i k owed ∧
      ((∃ w, (planOf s.cfg i).acts[k]? = some (.write w)) ∨
        (∃ ms, (planOf s.cfg i).acts[k]? = some (.delay ms)))) ∧
  (∀ s : State, step s = .refused .pixelOutsideCanvas ↔
    s.cfg.legal = true ∧ s.cfg.pixelOob = .refuse ∧
    ∃ ps : List Pixel, (∃ p ∈ ps, ¬ (0 ≤ p.x ∧ p.x < s.cfg.width ∧ 0 ≤ p.y ∧ p.y < s.cfg.height)) ∧
      ((s.turn = .request ∧ s.seq = .idle ∧ s.discard = 0 ∧
          ∃ rest, decodeRequest s.port = .ok (.drawPixels ps, rest)) ∨
       ((s.turn = .request ∨ s.turn = .event) ∧ ∃ qs k owed, s.seq = .busy (.drawPixels qs) k owed ∧
          (planOf s.cfg (.drawPixels qs)).acts[k]? = none ∧ 0 < owed ∧ 3 ≤ s.port.length ∧
          ps = qs ++ pixelsOfWords (s.port.take 3)))) ∧
  (∀ (s : State) (r : Refusal), step s = .refused r → r = .illegalConfiguration ∨ r = .pixelOutsideCanvas)

/-- R11 and R22: performed one event at a time, from acceptance to the end, a request on the port, in
whatever words spell it, does what the big-step rule gives, to every field of the state. -/
def Obligations.EventStepsAgreeWithWholeRequest : Prop :=
  ∀ (i : Instr) (s t : State) (rest : List Word) (turns : List Turn), s.cfg.legal = true →
    s.seq = .idle → s.discard = 0 → decodeRequest s.port = .ok (i, rest) →
    exec i { s with port := rest, schedule := turns } = .next t →
    ∃ n, Sys2Proof.core.run n { s with schedule := List.replicate n .event ++ turns } = .next t

/-! ## Invariants -/

/-- R9, R10, R31, R61: every step keeps the latches equal to what the trace says, and the wire view equal
to the cycles on the pins followed by those in the buffer. -/
def Obligations.StepKeepsTraceAndWireCoherent : Prop :=
  ∀ s t : State, s.Coherent → step s = .next t → t.Coherent

/-- R27, R143, R181 (I4, I5): every step keeps that only present lines are driven, the backlight never
to 0, and only the two durations are requested. -/
def Obligations.StepKeepsEventsLegal : Prop :=
  ∀ s t : State, s.EventsLegal → step s = .next t → t.EventsLegal

/-- R10, R80, R140, R141 (I1, I4, I6): every step keeps that each cycle has a level and each command
cycle a zero upper half, and that each delay follows the event it settles. -/
def Obligations.StepKeepsEventsWellPlaced : Prop :=
  ∀ s t : State, s.WellPlaced → step s = .next t → t.WellPlaced

/-- Every step keeps the model's canonical form of the frame memory (assumption 12), and that nothing
is specified outside the premises of R71 (assumption 11). Both are the model's choice. -/
def Obligations.StepKeepsFrameMemoryCanonical : Prop :=
  ∀ s t : State, s.sink.Canonical → step s = .next t → t.sink.Canonical

/-- R24, R25, R27: every step keeps the latch of an absent line unspecified, and the configuration as
constructed (R26 to R28). -/
def Obligations.StepKeepsConfigurationAndAbsentLines : Prop :=
  ∀ s t : State, step s = .next t → t.cfg = s.cfg ∧ (s.AbsentUndriven → t.AbsentUndriven)

/-- The invariants hold after construction, for every configuration. -/
def Obligations.ConstructionMeetsTheInvariants : Prop :=
  ∀ c : Config, (State.construct c).Coherent ∧ (State.construct c).EventsLegal ∧
    (State.construct c).WellPlaced ∧ (State.construct c).sink.Canonical ∧
    (State.construct c).AbsentUndriven ∧ State.reset = State.construct Config.reference

/-- R34 (with D18): the state after construction, and R66, R202: the sink before any cycle, of whose
window, cursor and frame memory nothing is specified (that the premises of R71 stand in a field
`configured`, false here, is assumption 11); the reference instance is 480 x 320 (R5). -/
def Obligations.StateAfterConstruction : Prop :=
  (∀ c : Config, (State.construct c).cfg = c ∧ (State.construct c).seq = .idle ∧
    (State.construct c).dc = .U ∧ (State.construct c).rst = .U ∧ (State.construct c).bl = .U ∧
    (State.construct c).tr = [] ∧ (State.construct c).buffer = [] ∧ (State.construct c).pins = [] ∧
    (State.construct c).sink.Blank ∧ (State.construct c).sink.mode = .idle ∧
    (State.construct c).sink.cursor = none) ∧
  State.reset.cfg.width = 480 ∧ State.reset.cfg.height = 320 ∧ State.reset.cfg.pixelOob = .refuse
end

