-- ==== Sys2Proof/Laws/State.lean ====
section
/-! SUPPORT. One lemma per field per update of State, so that no later proof unfolds a record update. -/

namespace Sys2Proof.Machine

/-! ## emit -/

@[simp] theorem State.emit_cfg (s : State) (e : Event) : (s.emit e).cfg = s.cfg := rfl
@[simp] theorem State.emit_dc (s : State) (e : Event) : (s.emit e).dc = s.dc := rfl
@[simp] theorem State.emit_rst (s : State) (e : Event) : (s.emit e).rst = s.rst := rfl
@[simp] theorem State.emit_bl (s : State) (e : Event) : (s.emit e).bl = s.bl := rfl
@[simp] theorem State.emit_seq (s : State) (e : Event) : (s.emit e).seq = s.seq := rfl
@[simp] theorem State.emit_result (s : State) (e : Event) : (s.emit e).result = s.result := rfl
@[simp] theorem State.emit_tr (s : State) (e : Event) : (s.emit e).tr = s.tr ++ [e] := rfl
@[simp] theorem State.emit_port (s : State) (e : Event) : (s.emit e).port = s.port := rfl
@[simp] theorem State.emit_discard (s : State) (e : Event) : (s.emit e).discard = s.discard := rfl
@[simp] theorem State.emit_resp (s : State) (e : Event) : (s.emit e).resp = s.resp := rfl
@[simp] theorem State.emit_buffer (s : State) (e : Event) : (s.emit e).buffer = s.buffer := rfl
@[simp] theorem State.emit_pins (s : State) (e : Event) : (s.emit e).pins = s.pins := rfl
@[simp] theorem State.emit_sink (s : State) (e : Event) : (s.emit e).sink = s.sink := rfl
@[simp] theorem State.emit_lineAnswers (s : State) (e : Event) : (s.emit e).lineAnswers = s.lineAnswers := rfl
@[simp] theorem State.emit_drives (s : State) (e : Event) : (s.emit e).drives = s.drives := rfl
@[simp] theorem State.emit_schedule (s : State) (e : Event) : (s.emit e).schedule = s.schedule := rfl
@[simp] theorem State.emit_freeMoves (s : State) (e : Event) : (s.emit e).freeMoves = s.freeMoves := rfl
@[simp] theorem State.emit_host (s : State) (e : Event) : (s.emit e).host = s.host := rfl

/-! ## enqueue -/

@[simp] theorem State.enqueue_cfg (s : State) (items : List BusItem) : (s.enqueue items).cfg = s.cfg := rfl
@[simp] theorem State.enqueue_dc (s : State) (items : List BusItem) : (s.enqueue items).dc = s.dc := rfl
@[simp] theorem State.enqueue_rst (s : State) (items : List BusItem) : (s.enqueue items).rst = s.rst := rfl
@[simp] theorem State.enqueue_bl (s : State) (items : List BusItem) : (s.enqueue items).bl = s.bl := rfl
@[simp] theorem State.enqueue_seq (s : State) (items : List BusItem) : (s.enqueue items).seq = s.seq := rfl
@[simp] theorem State.enqueue_result (s : State) (items : List BusItem) : (s.enqueue items).result = s.result := rfl
@[simp] theorem State.enqueue_tr (s : State) (items : List BusItem) : (s.enqueue items).tr = s.tr := rfl
@[simp] theorem State.enqueue_port (s : State) (items : List BusItem) : (s.enqueue items).port = s.port := rfl
@[simp] theorem State.enqueue_discard (s : State) (items : List BusItem) : (s.enqueue items).discard = s.discard := rfl
@[simp] theorem State.enqueue_resp (s : State) (items : List BusItem) : (s.enqueue items).resp = s.resp := rfl
@[simp] theorem State.enqueue_buffer (s : State) (items : List BusItem) : (s.enqueue items).buffer = s.buffer ++ items := rfl
@[simp] theorem State.enqueue_pins (s : State) (items : List BusItem) : (s.enqueue items).pins = s.pins := rfl
@[simp] theorem State.enqueue_sink (s : State) (items : List BusItem) : (s.enqueue items).sink = s.sink := rfl
@[simp] theorem State.enqueue_lineAnswers (s : State) (items : List BusItem) : (s.enqueue items).lineAnswers = s.lineAnswers := rfl
@[simp] theorem State.enqueue_drives (s : State) (items : List BusItem) : (s.enqueue items).drives = s.drives := rfl
@[simp] theorem State.enqueue_schedule (s : State) (items : List BusItem) : (s.enqueue items).schedule = s.schedule := rfl
@[simp] theorem State.enqueue_freeMoves (s : State) (items : List BusItem) : (s.enqueue items).freeMoves = s.freeMoves := rfl
@[simp] theorem State.enqueue_host (s : State) (items : List BusItem) : (s.enqueue items).host = s.host := rfl

/-! ## useAnswer -/

@[simp] theorem State.useAnswer_cfg (s : State) : s.useAnswer.cfg = s.cfg := rfl
@[simp] theorem State.useAnswer_dc (s : State) : s.useAnswer.dc = s.dc := rfl
@[simp] theorem State.useAnswer_rst (s : State) : s.useAnswer.rst = s.rst := rfl
@[simp] theorem State.useAnswer_bl (s : State) : s.useAnswer.bl = s.bl := rfl
@[simp] theorem State.useAnswer_seq (s : State) : s.useAnswer.seq = s.seq := rfl
@[simp] theorem State.useAnswer_result (s : State) : s.useAnswer.result = s.result := rfl
@[simp] theorem State.useAnswer_tr (s : State) : s.useAnswer.tr = s.tr := rfl
@[simp] theorem State.useAnswer_port (s : State) : s.useAnswer.port = s.port := rfl
@[simp] theorem State.useAnswer_discard (s : State) : s.useAnswer.discard = s.discard := rfl
@[simp] theorem State.useAnswer_resp (s : State) : s.useAnswer.resp = s.resp := rfl
@[simp] theorem State.useAnswer_buffer (s : State) : s.useAnswer.buffer = s.buffer := rfl
@[simp] theorem State.useAnswer_pins (s : State) : s.useAnswer.pins = s.pins := rfl
@[simp] theorem State.useAnswer_sink (s : State) : s.useAnswer.sink = s.sink := rfl
@[simp] theorem State.useAnswer_lineAnswers (s : State) : s.useAnswer.lineAnswers = s.lineAnswers.drop 1 := rfl
@[simp] theorem State.useAnswer_drives (s : State) : s.useAnswer.drives = s.drives + 1 := rfl
@[simp] theorem State.useAnswer_schedule (s : State) : s.useAnswer.schedule = s.schedule := rfl
@[simp] theorem State.useAnswer_freeMoves (s : State) : s.useAnswer.freeMoves = s.freeMoves := rfl
@[simp] theorem State.useAnswer_host (s : State) : s.useAnswer.host = s.host := rfl

/-! ## drain -/

@[simp] theorem State.drain_cfg (s : State) : s.drain.cfg = s.cfg := rfl
@[simp] theorem State.drain_dc (s : State) : s.drain.dc = s.dc := rfl
@[simp] theorem State.drain_rst (s : State) : s.drain.rst = s.rst := rfl
@[simp] theorem State.drain_bl (s : State) : s.drain.bl = s.bl := rfl
@[simp] theorem State.drain_seq (s : State) : s.drain.seq = s.seq := rfl
@[simp] theorem State.drain_result (s : State) : s.drain.result = s.result := rfl
@[simp] theorem State.drain_tr (s : State) : s.drain.tr = s.tr := rfl
@[simp] theorem State.drain_port (s : State) : s.drain.port = s.port := rfl
@[simp] theorem State.drain_discard (s : State) : s.drain.discard = s.discard := rfl
@[simp] theorem State.drain_resp (s : State) : s.drain.resp = s.resp := rfl
@[simp] theorem State.drain_buffer (s : State) : s.drain.buffer = [] := rfl
@[simp] theorem State.drain_pins (s : State) : s.drain.pins = s.pins ++ cyclesOf s.buffer := rfl
@[simp] theorem State.drain_sink (s : State) : s.drain.sink = s.sink.takeAll s.buffer := rfl
@[simp] theorem State.drain_lineAnswers (s : State) : s.drain.lineAnswers = s.lineAnswers := rfl
@[simp] theorem State.drain_drives (s : State) : s.drain.drives = s.drives := rfl
@[simp] theorem State.drain_schedule (s : State) : s.drain.schedule = s.schedule := rfl
@[simp] theorem State.drain_freeMoves (s : State) : s.drain.freeMoves = s.freeMoves := rfl
@[simp] theorem State.drain_host (s : State) : s.drain.host = s.host := rfl

/-! ## endRequest -/

@[simp] theorem State.endRequest_cfg (s : State) (r : Result) (n : Nat) : (s.endRequest r n).cfg = s.cfg := rfl
@[simp] theorem State.endRequest_dc (s : State) (r : Result) (n : Nat) : (s.endRequest r n).dc = s.dc := rfl
@[simp] theorem State.endRequest_rst (s : State) (r : Result) (n : Nat) : (s.endRequest r n).rst = s.rst := rfl
@[simp] theorem State.endRequest_bl (s : State) (r : Result) (n : Nat) : (s.endRequest r n).bl = s.bl := rfl
@[simp] theorem State.endRequest_seq (s : State) (r : Result) (n : Nat) : (s.endRequest r n).seq = .idle := rfl
@[simp] theorem State.endRequest_result (s : State) (r : Result) (n : Nat) : (s.endRequest r n).result = r := rfl
@[simp] theorem State.endRequest_tr (s : State) (r : Result) (n : Nat) : (s.endRequest r n).tr = s.tr := rfl
@[simp] theorem State.endRequest_port (s : State) (r : Result) (n : Nat) : (s.endRequest r n).port = s.port := rfl
@[simp] theorem State.endRequest_discard (s : State) (r : Result) (n : Nat) : (s.endRequest r n).discard = n := rfl
@[simp] theorem State.endRequest_resp (s : State) (r : Result) (n : Nat) : (s.endRequest r n).resp = s.resp ++ responseWords r := rfl
@[simp] theorem State.endRequest_buffer (s : State) (r : Result) (n : Nat) : (s.endRequest r n).buffer = s.buffer := rfl
@[simp] theorem State.endRequest_pins (s : State) (r : Result) (n : Nat) : (s.endRequest r n).pins = s.pins := rfl
@[simp] theorem State.endRequest_sink (s : State) (r : Result) (n : Nat) : (s.endRequest r n).sink = s.sink := rfl
@[simp] theorem State.endRequest_lineAnswers (s : State) (r : Result) (n : Nat) : (s.endRequest r n).lineAnswers = s.lineAnswers := rfl
@[simp] theorem State.endRequest_drives (s : State) (r : Result) (n : Nat) : (s.endRequest r n).drives = s.drives := rfl
@[simp] theorem State.endRequest_schedule (s : State) (r : Result) (n : Nat) : (s.endRequest r n).schedule = s.schedule := rfl
@[simp] theorem State.endRequest_freeMoves (s : State) (r : Result) (n : Nat) : (s.endRequest r n).freeMoves = s.freeMoves := rfl
@[simp] theorem State.endRequest_host (s : State) (r : Result) (n : Nat) : (s.endRequest r n).host = s.host := rfl

/-! ## write -/

@[simp] theorem State.write_cfg (s : State) (w : U16) : (s.write w).cfg = s.cfg := rfl
@[simp] theorem State.write_dc (s : State) (w : U16) : (s.write w).dc = s.dc := rfl
@[simp] theorem State.write_rst (s : State) (w : U16) : (s.write w).rst = s.rst := rfl
@[simp] theorem State.write_bl (s : State) (w : U16) : (s.write w).bl = s.bl := rfl
@[simp] theorem State.write_seq (s : State) (w : U16) : (s.write w).seq = s.seq := rfl
@[simp] theorem State.write_result (s : State) (w : U16) : (s.write w).result = s.result := rfl
@[simp] theorem State.write_tr (s : State) (w : U16) : (s.write w).tr = s.tr ++ [.write w] := rfl
@[simp] theorem State.write_port (s : State) (w : U16) : (s.write w).port = s.port := rfl
@[simp] theorem State.write_discard (s : State) (w : U16) : (s.write w).discard = s.discard := rfl
@[simp] theorem State.write_resp (s : State) (w : U16) : (s.write w).resp = s.resp := rfl
@[simp] theorem State.write_buffer (s : State) (w : U16) : (s.write w).buffer = s.buffer ++ [.cycle s.dc w] := rfl
@[simp] theorem State.write_pins (s : State) (w : U16) : (s.write w).pins = s.pins := rfl
@[simp] theorem State.write_sink (s : State) (w : U16) : (s.write w).sink = s.sink := rfl
@[simp] theorem State.write_lineAnswers (s : State) (w : U16) : (s.write w).lineAnswers = s.lineAnswers := rfl
@[simp] theorem State.write_drives (s : State) (w : U16) : (s.write w).drives = s.drives := rfl
@[simp] theorem State.write_schedule (s : State) (w : U16) : (s.write w).schedule = s.schedule := rfl
@[simp] theorem State.write_freeMoves (s : State) (w : U16) : (s.write w).freeMoves = s.freeMoves := rfl
@[simp] theorem State.write_host (s : State) (w : U16) : (s.write w).host = s.host := rfl

/-! ## delay -/

@[simp] theorem State.delay_cfg (s : State) (ms : Nat) : (s.delay ms).cfg = s.cfg := rfl
@[simp] theorem State.delay_dc (s : State) (ms : Nat) : (s.delay ms).dc = s.dc := rfl
@[simp] theorem State.delay_rst (s : State) (ms : Nat) : (s.delay ms).rst = s.rst := rfl
@[simp] theorem State.delay_bl (s : State) (ms : Nat) : (s.delay ms).bl = s.bl := rfl
@[simp] theorem State.delay_seq (s : State) (ms : Nat) : (s.delay ms).seq = s.seq := rfl
@[simp] theorem State.delay_result (s : State) (ms : Nat) : (s.delay ms).result = s.result := rfl
@[simp] theorem State.delay_tr (s : State) (ms : Nat) : (s.delay ms).tr = s.tr ++ [.delay ms] := rfl
@[simp] theorem State.delay_port (s : State) (ms : Nat) : (s.delay ms).port = s.port := rfl
@[simp] theorem State.delay_discard (s : State) (ms : Nat) : (s.delay ms).discard = s.discard := rfl
@[simp] theorem State.delay_resp (s : State) (ms : Nat) : (s.delay ms).resp = s.resp := rfl
@[simp] theorem State.delay_buffer (s : State) (ms : Nat) : (s.delay ms).buffer = [] := rfl
@[simp] theorem State.delay_pins (s : State) (ms : Nat) : (s.delay ms).pins = s.pins ++ cyclesOf s.buffer := rfl
@[simp] theorem State.delay_sink (s : State) (ms : Nat) : (s.delay ms).sink = s.sink.takeAll s.buffer := rfl
@[simp] theorem State.delay_lineAnswers (s : State) (ms : Nat) : (s.delay ms).lineAnswers = s.lineAnswers := rfl
@[simp] theorem State.delay_drives (s : State) (ms : Nat) : (s.delay ms).drives = s.drives := rfl
@[simp] theorem State.delay_schedule (s : State) (ms : Nat) : (s.delay ms).schedule = s.schedule := rfl
@[simp] theorem State.delay_freeMoves (s : State) (ms : Nat) : (s.delay ms).freeMoves = s.freeMoves := rfl
@[simp] theorem State.delay_host (s : State) (ms : Nat) : (s.delay ms).host = s.host := rfl

/-! ## atSink -/

@[simp] theorem State.atSink_cfg (s : State) (f : Sink → Sink) : (s.atSink f).cfg = s.cfg := rfl
@[simp] theorem State.atSink_dc (s : State) (f : Sink → Sink) : (s.atSink f).dc = s.dc := rfl
@[simp] theorem State.atSink_rst (s : State) (f : Sink → Sink) : (s.atSink f).rst = s.rst := rfl
@[simp] theorem State.atSink_bl (s : State) (f : Sink → Sink) : (s.atSink f).bl = s.bl := rfl
@[simp] theorem State.atSink_seq (s : State) (f : Sink → Sink) : (s.atSink f).seq = s.seq := rfl
@[simp] theorem State.atSink_result (s : State) (f : Sink → Sink) : (s.atSink f).result = s.result := rfl
@[simp] theorem State.atSink_tr (s : State) (f : Sink → Sink) : (s.atSink f).tr = s.tr := rfl
@[simp] theorem State.atSink_port (s : State) (f : Sink → Sink) : (s.atSink f).port = s.port := rfl
@[simp] theorem State.atSink_discard (s : State) (f : Sink → Sink) : (s.atSink f).discard = s.discard := rfl
@[simp] theorem State.atSink_resp (s : State) (f : Sink → Sink) : (s.atSink f).resp = s.resp := rfl
@[simp] theorem State.atSink_buffer (s : State) (f : Sink → Sink) : (s.atSink f).buffer = s.buffer := rfl
@[simp] theorem State.atSink_pins (s : State) (f : Sink → Sink) : (s.atSink f).pins = s.pins := rfl
@[simp] theorem State.atSink_sink (s : State) (f : Sink → Sink) : (s.atSink f).sink = f s.sink := rfl
@[simp] theorem State.atSink_lineAnswers (s : State) (f : Sink → Sink) : (s.atSink f).lineAnswers = s.lineAnswers := rfl
@[simp] theorem State.atSink_drives (s : State) (f : Sink → Sink) : (s.atSink f).drives = s.drives := rfl
@[simp] theorem State.atSink_schedule (s : State) (f : Sink → Sink) : (s.atSink f).schedule = s.schedule := rfl
@[simp] theorem State.atSink_freeMoves (s : State) (f : Sink → Sink) : (s.atSink f).freeMoves = s.freeMoves := rfl
@[simp] theorem State.atSink_host (s : State) (f : Sink → Sink) : (s.atSink f).host = s.host := rfl

/-! ## skipUnread -/

@[simp] theorem State.skipUnread_cfg (s : State) : s.skipUnread.cfg = s.cfg := rfl
@[simp] theorem State.skipUnread_dc (s : State) : s.skipUnread.dc = s.dc := rfl
@[simp] theorem State.skipUnread_rst (s : State) : s.skipUnread.rst = s.rst := rfl
@[simp] theorem State.skipUnread_bl (s : State) : s.skipUnread.bl = s.bl := rfl
@[simp] theorem State.skipUnread_seq (s : State) : s.skipUnread.seq = s.seq := rfl
@[simp] theorem State.skipUnread_result (s : State) : s.skipUnread.result = s.result := rfl
@[simp] theorem State.skipUnread_tr (s : State) : s.skipUnread.tr = s.tr := rfl
@[simp] theorem State.skipUnread_port (s : State) : s.skipUnread.port = s.port.drop s.discard := rfl
@[simp] theorem State.skipUnread_discard (s : State) : s.skipUnread.discard = s.discard - s.port.length := rfl
@[simp] theorem State.skipUnread_resp (s : State) : s.skipUnread.resp = s.resp := rfl
@[simp] theorem State.skipUnread_buffer (s : State) : s.skipUnread.buffer = s.buffer := rfl
@[simp] theorem State.skipUnread_pins (s : State) : s.skipUnread.pins = s.pins := rfl
@[simp] theorem State.skipUnread_sink (s : State) : s.skipUnread.sink = s.sink := rfl
@[simp] theorem State.skipUnread_lineAnswers (s : State) : s.skipUnread.lineAnswers = s.lineAnswers := rfl
@[simp] theorem State.skipUnread_drives (s : State) : s.skipUnread.drives = s.drives := rfl
@[simp] theorem State.skipUnread_schedule (s : State) : s.skipUnread.schedule = s.schedule := rfl
@[simp] theorem State.skipUnread_freeMoves (s : State) : s.skipUnread.freeMoves = s.freeMoves := rfl
@[simp] theorem State.skipUnread_host (s : State) : s.skipUnread.host = s.host := rfl

/-! ## openRequest -/

@[simp] theorem State.openRequest_cfg (s : State) (p : Plan) : (s.openRequest p).cfg = s.cfg := rfl
@[simp] theorem State.openRequest_dc (s : State) (p : Plan) : (s.openRequest p).dc = s.dc := rfl
@[simp] theorem State.openRequest_rst (s : State) (p : Plan) : (s.openRequest p).rst = s.rst := rfl
@[simp] theorem State.openRequest_bl (s : State) (p : Plan) : (s.openRequest p).bl = s.bl := rfl
@[simp] theorem State.openRequest_seq (s : State) (p : Plan) : (s.openRequest p).seq = s.seq := rfl
@[simp] theorem State.openRequest_result (s : State) (p : Plan) : (s.openRequest p).result = s.result := rfl
@[simp] theorem State.openRequest_tr (s : State) (p : Plan) : (s.openRequest p).tr = s.tr := rfl
@[simp] theorem State.openRequest_port (s : State) (p : Plan) : (s.openRequest p).port = s.port := rfl
@[simp] theorem State.openRequest_discard (s : State) (p : Plan) : (s.openRequest p).discard = s.discard := rfl
@[simp] theorem State.openRequest_resp (s : State) (p : Plan) : (s.openRequest p).resp = s.resp := rfl
@[simp] theorem State.openRequest_buffer (s : State) (p : Plan) : (s.openRequest p).buffer = s.buffer ++ p.opening.map .note := rfl
@[simp] theorem State.openRequest_pins (s : State) (p : Plan) : (s.openRequest p).pins = s.pins := rfl
@[simp] theorem State.openRequest_sink (s : State) (p : Plan) : (s.openRequest p).sink = s.sink := rfl
@[simp] theorem State.openRequest_lineAnswers (s : State) (p : Plan) : (s.openRequest p).lineAnswers = s.lineAnswers := rfl
@[simp] theorem State.openRequest_drives (s : State) (p : Plan) : (s.openRequest p).drives = s.drives := rfl
@[simp] theorem State.openRequest_schedule (s : State) (p : Plan) : (s.openRequest p).schedule = s.schedule := rfl
@[simp] theorem State.openRequest_freeMoves (s : State) (p : Plan) : (s.openRequest p).freeMoves = s.freeMoves := rfl
@[simp] theorem State.openRequest_host (s : State) (p : Plan) : (s.openRequest p).host = s.host := rfl

/-! ## accept -/

@[simp] theorem State.accept_cfg (s : State) (i : Instr) (n : Nat) : (s.accept i n).cfg = s.cfg := rfl
@[simp] theorem State.accept_dc (s : State) (i : Instr) (n : Nat) : (s.accept i n).dc = s.dc := rfl
@[simp] theorem State.accept_rst (s : State) (i : Instr) (n : Nat) : (s.accept i n).rst = s.rst := rfl
@[simp] theorem State.accept_bl (s : State) (i : Instr) (n : Nat) : (s.accept i n).bl = s.bl := rfl
@[simp] theorem State.accept_seq (s : State) (i : Instr) (n : Nat) : (s.accept i n).seq = .busy i 0 n := rfl
@[simp] theorem State.accept_result (s : State) (i : Instr) (n : Nat) : (s.accept i n).result = s.result := rfl
@[simp] theorem State.accept_tr (s : State) (i : Instr) (n : Nat) : (s.accept i n).tr = s.tr := rfl
@[simp] theorem State.accept_port (s : State) (i : Instr) (n : Nat) : (s.accept i n).port = s.port := rfl
@[simp] theorem State.accept_discard (s : State) (i : Instr) (n : Nat) : (s.accept i n).discard = s.discard := rfl
@[simp] theorem State.accept_resp (s : State) (i : Instr) (n : Nat) : (s.accept i n).resp = s.resp := rfl
@[simp] theorem State.accept_buffer (s : State) (i : Instr) (n : Nat) : (s.accept i n).buffer = s.buffer ++ (planOf s.cfg i).opening.map .note := rfl
@[simp] theorem State.accept_pins (s : State) (i : Instr) (n : Nat) : (s.accept i n).pins = s.pins := rfl
@[simp] theorem State.accept_sink (s : State) (i : Instr) (n : Nat) : (s.accept i n).sink = s.sink := rfl
@[simp] theorem State.accept_lineAnswers (s : State) (i : Instr) (n : Nat) : (s.accept i n).lineAnswers = s.lineAnswers := rfl
@[simp] theorem State.accept_drives (s : State) (i : Instr) (n : Nat) : (s.accept i n).drives = s.drives := rfl
@[simp] theorem State.accept_schedule (s : State) (i : Instr) (n : Nat) : (s.accept i n).schedule = s.schedule := rfl
@[simp] theorem State.accept_freeMoves (s : State) (i : Instr) (n : Nat) : (s.accept i n).freeMoves = s.freeMoves := rfl
@[simp] theorem State.accept_host (s : State) (i : Instr) (n : Nat) : (s.accept i n).host = s.host := rfl

/-! ## setLatch -/

@[simp] theorem State.setLatch_cfg (s : State) (line : Line) (v : Latch) : (s.setLatch line v).cfg = s.cfg := by
  cases line <;> rfl
@[simp] theorem State.setLatch_dc (s : State) (line : Line) (v : Latch) : (s.setLatch line v).dc = if line = .dc then v else s.dc := by
  cases line <;> rfl
@[simp] theorem State.setLatch_rst (s : State) (line : Line) (v : Latch) : (s.setLatch line v).rst = if line = .rst then v else s.rst := by
  cases line <;> rfl
@[simp] theorem State.setLatch_bl (s : State) (line : Line) (v : Latch) : (s.setLatch line v).bl = if line = .bl then v else s.bl := by
  cases line <;> rfl
@[simp] theorem State.setLatch_seq (s : State) (line : Line) (v : Latch) : (s.setLatch line v).seq = s.seq := by
  cases line <;> rfl
@[simp] theorem State.setLatch_result (s : State) (line : Line) (v : Latch) : (s.setLatch line v).result = s.result := by
  cases line <;> rfl
@[simp] theorem State.setLatch_tr (s : State) (line : Line) (v : Latch) : (s.setLatch line v).tr = s.tr := by
  cases line <;> rfl
@[simp] theorem State.setLatch_port (s : State) (line : Line) (v : Latch) : (s.setLatch line v).port = s.port := by
  cases line <;> rfl
@[simp] theorem State.setLatch_discard (s : State) (line : Line) (v : Latch) : (s.setLatch line v).discard = s.discard := by
  cases line <;> rfl
@[simp] theorem State.setLatch_resp (s : State) (line : Line) (v : Latch) : (s.setLatch line v).resp = s.resp := by
  cases line <;> rfl
@[simp] theorem State.setLatch_buffer (s : State) (line : Line) (v : Latch) : (s.setLatch line v).buffer = s.buffer := by
  cases line <;> rfl
@[simp] theorem State.setLatch_pins (s : State) (line : Line) (v : Latch) : (s.setLatch line v).pins = s.pins := by
  cases line <;> rfl
@[simp] theorem State.setLatch_sink (s : State) (line : Line) (v : Latch) : (s.setLatch line v).sink = s.sink := by
  cases line <;> rfl
@[simp] theorem State.setLatch_lineAnswers (s : State) (line : Line) (v : Latch) : (s.setLatch line v).lineAnswers = s.lineAnswers := by
  cases line <;> rfl
@[simp] theorem State.setLatch_drives (s : State) (line : Line) (v : Latch) : (s.setLatch line v).drives = s.drives := by
  cases line <;> rfl
@[simp] theorem State.setLatch_schedule (s : State) (line : Line) (v : Latch) : (s.setLatch line v).schedule = s.schedule := by
  cases line <;> rfl
@[simp] theorem State.setLatch_freeMoves (s : State) (line : Line) (v : Latch) : (s.setLatch line v).freeMoves = s.freeMoves := by
  cases line <;> rfl
@[simp] theorem State.setLatch_host (s : State) (line : Line) (v : Latch) : (s.setLatch line v).host = s.host := by
  cases line <;> rfl

/-! ## settle -/

@[simp] theorem State.settle_cfg (s : State) (line : Line) : (s.settle line).cfg = s.cfg := by
  cases line <;> rfl
@[simp] theorem State.settle_dc (s : State) (line : Line) : (s.settle line).dc = s.dc := by
  cases line <;> rfl
@[simp] theorem State.settle_rst (s : State) (line : Line) : (s.settle line).rst = s.rst := by
  cases line <;> rfl
@[simp] theorem State.settle_bl (s : State) (line : Line) : (s.settle line).bl = s.bl := by
  cases line <;> rfl
@[simp] theorem State.settle_seq (s : State) (line : Line) : (s.settle line).seq = s.seq := by
  cases line <;> rfl
@[simp] theorem State.settle_result (s : State) (line : Line) : (s.settle line).result = s.result := by
  cases line <;> rfl
@[simp] theorem State.settle_tr (s : State) (line : Line) : (s.settle line).tr = s.tr := by
  cases line <;> rfl
@[simp] theorem State.settle_port (s : State) (line : Line) : (s.settle line).port = s.port := by
  cases line <;> rfl
@[simp] theorem State.settle_discard (s : State) (line : Line) : (s.settle line).discard = s.discard := by
  cases line <;> rfl
@[simp] theorem State.settle_resp (s : State) (line : Line) : (s.settle line).resp = s.resp := by
  cases line <;> rfl
@[simp] theorem State.settle_buffer (s : State) (line : Line) : (s.settle line).buffer = if line = .dc then s.buffer else [] := by
  cases line <;> rfl
@[simp] theorem State.settle_pins (s : State) (line : Line) : (s.settle line).pins = if line = .dc then s.pins else s.pins ++ cyclesOf s.buffer := by
  cases line <;> rfl
@[simp] theorem State.settle_sink (s : State) (line : Line) : (s.settle line).sink = if line = .dc then s.sink else s.sink.takeAll s.buffer := by
  cases line <;> rfl
@[simp] theorem State.settle_lineAnswers (s : State) (line : Line) : (s.settle line).lineAnswers = s.lineAnswers := by
  cases line <;> rfl
@[simp] theorem State.settle_drives (s : State) (line : Line) : (s.settle line).drives = s.drives := by
  cases line <;> rfl
@[simp] theorem State.settle_schedule (s : State) (line : Line) : (s.settle line).schedule = s.schedule := by
  cases line <;> rfl
@[simp] theorem State.settle_freeMoves (s : State) (line : Line) : (s.settle line).freeMoves = s.freeMoves := by
  cases line <;> rfl
@[simp] theorem State.settle_host (s : State) (line : Line) : (s.settle line).host = s.host := by
  cases line <;> rfl

/-! ## useTurn -/

@[simp] theorem State.useTurn_cfg (s : State) : s.useTurn.cfg = s.cfg := by
  unfold State.useTurn; split <;> rfl
@[simp] theorem State.useTurn_dc (s : State) : s.useTurn.dc = s.dc := by
  unfold State.useTurn; split <;> rfl
@[simp] theorem State.useTurn_rst (s : State) : s.useTurn.rst = s.rst := by
  unfold State.useTurn; split <;> rfl
@[simp] theorem State.useTurn_bl (s : State) : s.useTurn.bl = s.bl := by
  unfold State.useTurn; split <;> rfl
@[simp] theorem State.useTurn_seq (s : State) : s.useTurn.seq = s.seq := by
  unfold State.useTurn; split <;> rfl
@[simp] theorem State.useTurn_result (s : State) : s.useTurn.result = s.result := by
  unfold State.useTurn; split <;> rfl
@[simp] theorem State.useTurn_tr (s : State) : s.useTurn.tr = s.tr := by
  unfold State.useTurn; split <;> rfl
@[simp] theorem State.useTurn_port (s : State) : s.useTurn.port = s.port := by
  unfold State.useTurn; split <;> rfl
@[simp] theorem State.useTurn_discard (s : State) : s.useTurn.discard = s.discard := by
  unfold State.useTurn; split <;> rfl
@[simp] theorem State.useTurn_resp (s : State) : s.useTurn.resp = s.resp := by
  unfold State.useTurn; split <;> rfl
@[simp] theorem State.useTurn_buffer (s : State) : s.useTurn.buffer = s.buffer := by
  unfold State.useTurn; split <;> rfl
@[simp] theorem State.useTurn_pins (s : State) : s.useTurn.pins = s.pins := by
  unfold State.useTurn; split <;> rfl
@[simp] theorem State.useTurn_sink (s : State) : s.useTurn.sink = s.sink := by
  unfold State.useTurn; split <;> rfl
@[simp] theorem State.useTurn_lineAnswers (s : State) : s.useTurn.lineAnswers = s.lineAnswers := by
  unfold State.useTurn; split <;> rfl
@[simp] theorem State.useTurn_drives (s : State) : s.useTurn.drives = s.drives := by
  unfold State.useTurn; split <;> rfl
@[simp] theorem State.useTurn_host (s : State) : s.useTurn.host = s.host := by
  unfold State.useTurn; split <;> rfl

/-! ## hostMove -/

/-- Everything the host's move can do: words behind those on the port, and its own side. -/
theorem State.hostMove_eq (s : State) :
    ∃ ws h, s.hostMove = { s with port := s.port ++ ws, host := h } := by
  unfold State.hostMove
  split
  · exact ⟨_, _, rfl⟩
  · split
    · split
      · exact ⟨[], _, by rw [List.append_nil]⟩
      · exact ⟨[], s.host, by rw [List.append_nil]⟩
    · split
      · exact ⟨[], _, by rw [List.append_nil]⟩
      · exact ⟨[], s.host, by rw [List.append_nil]⟩

@[simp] theorem State.hostMove_cfg (s : State) : s.hostMove.cfg = s.cfg := by
  obtain ⟨ws, h, e⟩ := s.hostMove_eq; rw [e]
@[simp] theorem State.hostMove_dc (s : State) : s.hostMove.dc = s.dc := by
  obtain ⟨ws, h, e⟩ := s.hostMove_eq; rw [e]
@[simp] theorem State.hostMove_rst (s : State) : s.hostMove.rst = s.rst := by
  obtain ⟨ws, h, e⟩ := s.hostMove_eq; rw [e]
@[simp] theorem State.hostMove_bl (s : State) : s.hostMove.bl = s.bl := by
  obtain ⟨ws, h, e⟩ := s.hostMove_eq; rw [e]
@[simp] theorem State.hostMove_seq (s : State) : s.hostMove.seq = s.seq := by
  obtain ⟨ws, h, e⟩ := s.hostMove_eq; rw [e]
@[simp] theorem State.hostMove_result (s : State) : s.hostMove.result = s.result := by
  obtain ⟨ws, h, e⟩ := s.hostMove_eq; rw [e]
@[simp] theorem State.hostMove_tr (s : State) : s.hostMove.tr = s.tr := by
  obtain ⟨ws, h, e⟩ := s.hostMove_eq; rw [e]
@[simp] theorem State.hostMove_discard (s : State) : s.hostMove.discard = s.discard := by
  obtain ⟨ws, h, e⟩ := s.hostMove_eq; rw [e]
@[simp] theorem State.hostMove_resp (s : State) : s.hostMove.resp = s.resp := by
  obtain ⟨ws, h, e⟩ := s.hostMove_eq; rw [e]
@[simp] theorem State.hostMove_buffer (s : State) : s.hostMove.buffer = s.buffer := by
  obtain ⟨ws, h, e⟩ := s.hostMove_eq; rw [e]
@[simp] theorem State.hostMove_pins (s : State) : s.hostMove.pins = s.pins := by
  obtain ⟨ws, h, e⟩ := s.hostMove_eq; rw [e]
@[simp] theorem State.hostMove_sink (s : State) : s.hostMove.sink = s.sink := by
  obtain ⟨ws, h, e⟩ := s.hostMove_eq; rw [e]
@[simp] theorem State.hostMove_lineAnswers (s : State) : s.hostMove.lineAnswers = s.lineAnswers := by
  obtain ⟨ws, h, e⟩ := s.hostMove_eq; rw [e]
@[simp] theorem State.hostMove_drives (s : State) : s.hostMove.drives = s.drives := by
  obtain ⟨ws, h, e⟩ := s.hostMove_eq; rw [e]
@[simp] theorem State.hostMove_schedule (s : State) : s.hostMove.schedule = s.schedule := by
  obtain ⟨ws, h, e⟩ := s.hostMove_eq; rw [e]
@[simp] theorem State.hostMove_freeMoves (s : State) : s.hostMove.freeMoves = s.freeMoves := by
  obtain ⟨ws, h, e⟩ := s.hostMove_eq; rw [e]

/-! ## raise -/

@[simp] theorem State.raise_cfg (s : State) (c : Status) (n : Nat) : (s.raise c n).cfg = s.cfg := by
  cases c <;> rfl
@[simp] theorem State.raise_dc (s : State) (c : Status) (n : Nat) : (s.raise c n).dc = s.dc := by
  cases c <;> rfl
@[simp] theorem State.raise_rst (s : State) (c : Status) (n : Nat) : (s.raise c n).rst = s.rst := by
  cases c <;> rfl
@[simp] theorem State.raise_bl (s : State) (c : Status) (n : Nat) : (s.raise c n).bl = s.bl := by
  cases c <;> rfl
@[simp] theorem State.raise_seq (s : State) (c : Status) (n : Nat) : (s.raise c n).seq = .idle := by
  cases c <;> rfl
@[simp] theorem State.raise_result (s : State) (c : Status) (n : Nat) : (s.raise c n).result = { status := c, dims := none } := by
  cases c <;> rfl
@[simp] theorem State.raise_tr (s : State) (c : Status) (n : Nat) : (s.raise c n).tr = s.tr := by
  cases c <;> rfl
@[simp] theorem State.raise_port (s : State) (c : Status) (n : Nat) : (s.raise c n).port = s.port := by
  cases c <;> rfl
@[simp] theorem State.raise_discard (s : State) (c : Status) (n : Nat) : (s.raise c n).discard = n := by
  cases c <;> rfl
@[simp] theorem State.raise_resp (s : State) (c : Status) (n : Nat) : (s.raise c n).resp = s.resp ++ responseWords { status := c, dims := none } := by
  cases c <;> rfl
@[simp] theorem State.raise_buffer (s : State) (c : Status) (n : Nat) : (s.raise c n).buffer = s.buffer ++ (if c = .controlLineFault then [.note .aborted] else []) := by
  cases c <;> simp [State.raise]
@[simp] theorem State.raise_pins (s : State) (c : Status) (n : Nat) : (s.raise c n).pins = s.pins := by
  cases c <;> rfl
@[simp] theorem State.raise_sink (s : State) (c : Status) (n : Nat) : (s.raise c n).sink = s.sink := by
  cases c <;> rfl
@[simp] theorem State.raise_lineAnswers (s : State) (c : Status) (n : Nat) : (s.raise c n).lineAnswers = s.lineAnswers := by
  cases c <;> rfl
@[simp] theorem State.raise_drives (s : State) (c : Status) (n : Nat) : (s.raise c n).drives = s.drives := by
  cases c <;> rfl
@[simp] theorem State.raise_schedule (s : State) (c : Status) (n : Nat) : (s.raise c n).schedule = s.schedule := by
  cases c <;> rfl
@[simp] theorem State.raise_freeMoves (s : State) (c : Status) (n : Nat) : (s.raise c n).freeMoves = s.freeMoves := by
  cases c <;> rfl
@[simp] theorem State.raise_host (s : State) (c : Status) (n : Nat) : (s.raise c n).host = s.host := by
  cases c <;> rfl

/-! ## latch -/

@[simp] theorem State.latch_dc (s : State) : s.latch .dc = s.dc := rfl
@[simp] theorem State.latch_rst (s : State) : s.latch .rst = s.rst := rfl
@[simp] theorem State.latch_bl (s : State) : s.latch .bl = s.bl := rfl

theorem State.latch_setLatch (s : State) (line m : Line) (v : Latch) :
    (s.setLatch line v).latch m = if line = m then v else s.latch m := by
  cases line <;> cases m <;> rfl

end Sys2Proof.Machine
end

