-- ==== Sys2Proof/Laws/Ops.lean ====
section
/-! SUPPORT. What each shared operation can do: drives, event lists, the end of a request, in closed
form. Provers cite these instead of unfolding the operations. -/

namespace Sys2Proof.Machine

/-! ## Lists of events -/

@[simp] theorem eventOf_drive (line : Line) (l : Level) : eventOf (.drive line l) = .drive line l := rfl
@[simp] theorem eventOf_write (w : U16) : eventOf (.write w) = .write w := rfl
@[simp] theorem eventOf_delay (ms : Nat) : eventOf (.delay ms) = .delay ms := rfl

theorem latchAfter_append (line : Line) (v : Latch) (es fs : List Event) :
    latchAfter line v (es ++ fs) = latchAfter line (latchAfter line v es) fs := by
  induction es generalizing v with
  | nil => rfl
  | cons e es ih => cases e <;> simp [latchAfter, ih]

theorem wireFrom_append (d : Latch) (es fs : List Event) :
    wireFrom d (es ++ fs) = wireFrom d es ++ wireFrom (latchAfter .dc d es) fs := by
  induction es generalizing d with
  | nil => rfl
  | cons e es ih => cases e <;> simp [wireFrom, latchAfter, ih]

theorem cyclesOf_append (xs ys : List BusItem) : cyclesOf (xs ++ ys) = cyclesOf xs ++ cyclesOf ys := by
  induction xs with
  | nil => rfl
  | cons b bs ih => cases b <;> simp [cyclesOf, ih]

@[simp] theorem cyclesOf_notes (ns : List Note) : cyclesOf (ns.map .note) = [] := by
  induction ns with
  | nil => rfl
  | cons n ns ih => simpa [cyclesOf] using ih

@[simp] theorem cyclesOf_cycles (cs : List (Latch × U16)) :
    cyclesOf (cs.map fun c => .cycle c.1 c.2) = cs := by
  induction cs with
  | nil => rfl
  | cons c cs ih => simpa [cyclesOf] using ih

theorem drivesIn_append (as bs : List Action) : drivesIn (as ++ bs) = drivesIn as + drivesIn bs := by
  induction as with
  | nil => simp [drivesIn]
  | cons a as ih => cases a <;> simp [drivesIn, ih]; omega

@[simp] theorem drivesIn_writes (ws : List U16) : drivesIn (ws.map .write) = 0 := by
  induction ws with
  | nil => rfl
  | cons w ws ih => simpa [drivesIn] using ih

@[simp] theorem drivesIn_writes_of (f : Byte → U16) (bs : List Byte) :
    drivesIn (bs.map fun b => .write (f b)) = 0 := by
  induction bs with
  | nil => rfl
  | cons b bs ih => simpa [drivesIn] using ih

/-! ## The answers of the environment -/

theorem State.answersOk_zero (s : State) : s.answersOk 0 := fun _ h => absurd h (Nat.not_lt_zero _)

theorem State.answersOk_mono {s : State} {m n : Nat} (h : s.answersOk n) (hmn : m ≤ n) : s.answersOk m :=
  fun j hj => h j (Nat.lt_of_lt_of_le hj hmn)

/-- What a later answer is depends on the two environment fields only. -/
theorem State.answerAt_congr {s t : State} {j k : Nat} (h1 : t.lineAnswers = s.lineAnswers.drop k)
    (h2 : t.drives = s.drives + k) : t.answerAt j = s.answerAt (k + j) := by
  unfold State.answerAt
  rw [h1, h2, List.getElem?_drop, Nat.add_assoc]

theorem State.answersOk_later {s t : State} {n k : Nat} (h1 : t.lineAnswers = s.lineAnswers.drop k)
    (h2 : t.drives = s.drives + k) (h : s.answersOk (k + n)) : t.answersOk n := by
  intro j hj
  rw [State.answerAt_congr h1 h2]
  exact h _ (by omega)

/-! ## One drive -/

theorem State.drive_ok {s : State} (line : Line) (l : Level) (h : s.answerAt 0 = true) :
    s.drive line l =
      ((((s.settle line).useAnswer).setLatch line (.driven l)).emit (.drive line l), true) := by
  simp [State.drive, h]

theorem State.drive_fail {s : State} (line : Line) (l : Level) (h : s.answerAt 0 = false) :
    s.drive line l =
      ((((s.settle line).useAnswer).setLatch line .U).emit (.driveFail line l), false) := by
  simp [State.drive, h]

/-! ## Event lists -/

@[simp] theorem State.performAll_nil (s : State) : s.performAll [] = (s, true) := rfl

theorem State.performAll_append (s : State) (as bs : List Action) :
    s.performAll (as ++ bs) =
      match s.performAll as with
      | (t, true) => t.performAll bs
      | (t, false) => (t, false) := by
  induction as generalizing s with
  | nil => rfl
  | cons a as ih =>
    simp only [List.cons_append, State.performAll]
    rcases s.perform a with ⟨t, _ | _⟩
    · rfl
    · exact ih t

/-- An event list that only drives `DC` and writes. -/
def busOnly : List Action → Bool
  | [] => true
  | .drive .dc _ :: as => busOnly as
  | .write _ :: as => busOnly as
  | .drive .rst _ :: _ => false
  | .drive .bl _ :: _ => false
  | .delay _ :: _ => false

theorem busOnly_append (as bs : List Action) : busOnly (as ++ bs) = (busOnly as && busOnly bs) := by
  induction as with
  | nil => rfl
  | cons a as ih =>
    cases a with
    | drive line l => cases line <;> simp [busOnly, ih]
    | write w => simp [busOnly, ih]
    | delay ms => rfl

@[simp] theorem busOnly_writes (ws : List U16) : busOnly (ws.map .write) = true := by
  induction ws with
  | nil => rfl
  | cons w ws ih => simpa [busOnly] using ih

/-- The state after a bus-only event list in which no drive failed. -/
def State.afterBus (s : State) (as : List Action) : State :=
  { s with dc := latchAfter .dc s.dc (as.map eventOf), tr := s.tr ++ as.map eventOf,
           buffer := s.buffer ++ (wireFrom s.dc (as.map eventOf)).map (fun c => .cycle c.1 c.2),
           lineAnswers := s.lineAnswers.drop (drivesIn as), drives := s.drives + drivesIn as }

/-- The state after a bus-only event list whose drive `m` failed first. -/
def State.afterBusFail (s : State) (m : Nat) (as : List Action) : State :=
  { s with dc := .U, tr := s.tr ++ untilDrive m (as.map eventOf),
           buffer := s.buffer ++ (wireFrom s.dc (untilDrive m (as.map eventOf))).map (fun c => .cycle c.1 c.2),
           lineAnswers := s.lineAnswers.drop (m + 1), drives := s.drives + (m + 1) }

/-- A bus-only event list with every drive answered runs to its end. -/
theorem State.performAll_busOnly (s : State) (as : List Action) (hb : busOnly as = true)
    (h : s.answersOk (drivesIn as)) : s.performAll as = (s.afterBus as, true) := by
  induction as generalizing s with
  | nil => simp [State.afterBus, drivesIn, latchAfter, wireFrom]
  | cons a as ih =>
    cases a with
    | drive line l =>
      cases line with
      | dc =>
        have h0 : s.answerAt 0 = true := h 0 (by simp [drivesIn])
        simp only [State.performAll, State.perform, State.drive_ok _ _ h0]
        rw [ih _ (by simpa [busOnly] using hb)
          (State.answersOk_later (s := s) (k := 1) rfl rfl (by simpa [drivesIn, Nat.add_comm] using h))]
        simp [State.afterBus, drivesIn, latchAfter, wireFrom, State.emit, State.setLatch,
          State.useAnswer, State.settle, Nat.add_comm]
        omega
      | rst => simp [busOnly] at hb
      | bl => simp [busOnly] at hb
    | write w =>
      simp only [State.performAll, State.perform]
      rw [ih (s.write w) (by simpa [busOnly] using hb)
        (State.answersOk_later (s := s) (k := 0) rfl rfl (by simpa [drivesIn] using h))]
      simp [State.afterBus, drivesIn, latchAfter, wireFrom, State.write, State.emit, State.enqueue]
    | delay ms => simp [busOnly] at hb

/-- A bus-only event list stops at its first failing drive. -/
theorem State.performAll_busOnly_fail (s : State) (as : List Action) (m : Nat) (hb : busOnly as = true)
    (hm : m < drivesIn as) (h : s.firstFailure m) : s.performAll as = (s.afterBusFail m as, false) := by
  induction as generalizing s m with
  | nil => simp [drivesIn] at hm
  | cons a as ih =>
    cases a with
    | drive line l =>
      cases line with
      | dc =>
        cases m with
        | zero =>
          simp only [State.performAll, State.perform, State.drive_fail _ _ h.2]
          simp [State.afterBusFail, untilDrive, wireFrom, State.emit, State.setLatch,
            State.useAnswer, State.settle]
        | succ m =>
          have h0 : s.answerAt 0 = true := h.1 0 (by omega)
          simp only [State.performAll, State.perform, State.drive_ok _ _ h0]
          rw [ih _ m (by simpa [busOnly] using hb) (by simpa [drivesIn] using hm)
            ⟨State.answersOk_later (s := s) (k := 1) rfl rfl (by simpa [Nat.add_comm] using h.1), by
              rw [State.answerAt_congr (s := s) (k := 1) rfl rfl, Nat.add_comm]; exact h.2⟩]
          simp [State.afterBusFail, untilDrive, wireFrom, State.emit, State.setLatch,
            State.useAnswer, State.settle, Nat.add_comm, Nat.add_left_comm]
      | rst => simp [busOnly] at hb
      | bl => simp [busOnly] at hb
    | write w =>
      simp only [State.performAll, State.perform]
      rw [ih (s.write w) m (by simpa [busOnly] using hb) (by simpa [drivesIn] using hm)
        ⟨State.answersOk_later (s := s) (k := 0) rfl rfl (by simpa using h.1), h.2⟩]
      cases m <;>
      simp [State.afterBusFail, untilDrive, wireFrom, State.write, State.emit, State.enqueue]
    | delay ms => simp [busOnly] at hb

/-! ## Whole requests on the bus -/

/-- Once the first event drives `DC`, the level before it no longer matters (R112). -/
theorem wireFrom_driveFirst (d : Latch) (l : Level) (es : List Event) :
    wireFrom d (.drive .dc l :: es) = wireFrom .U (.drive .dc l :: es) := rfl

theorem latchAfter_driveFirst (d : Latch) (l : Level) (es : List Event) :
    latchAfter .dc d (.drive .dc l :: es) = latchAfter .dc .U (.drive .dc l :: es) := rfl

theorem wireFrom_untilDrive_driveFirst (d : Latch) (l : Level) (m : Nat) (es : List Event) :
    wireFrom d (untilDrive m (.drive .dc l :: es)) = wireFrom .U (untilDrive m (.drive .dc l :: es)) := by
  cases m <;> rfl

/-- A plan whose events only use the bus, with every drive answered: the whole request (R11). -/
theorem State.runPlan_bus_ok (s : State) (p : Plan) (l : Level) (rest : List Action)
    (hp : p.acts = .drive .dc l :: rest) (hb : busOnly p.acts = true) (ho : p.opening = [])
    (hc : p.closing = []) (hs : p.status = .ok) (h : s.answersOk (drivesIn p.acts)) :
    s.runPlan p = s.busEnd (drivesIn p.acts) (latchAfter .dc .U (p.acts.map eventOf))
      (p.acts.map eventOf) (wireFrom .U (p.acts.map eventOf)) { status := .ok, dims := p.dims }
      (responseWords { status := .ok, dims := p.dims }) := by
  have hopen : s.openRequest p = s := by simp [State.openRequest, ho, State.enqueue]
  unfold State.runPlan
  rw [hopen, State.performAll_busOnly s _ hb h]
  simp only [State.conclude, hs, hc, hp, List.map_cons, eventOf_drive]
  simp [State.afterBus, State.busEnd, State.enqueue, State.endRequest, wireFrom, latchAfter]

/-- A plan whose events only use the bus, with drive `m` the first to fail (R171, R176). -/
theorem State.runPlan_bus_fail (s : State) (p : Plan) (l : Level) (rest : List Action) (m : Nat)
    (hp : p.acts = .drive .dc l :: rest) (hb : busOnly p.acts = true) (ho : p.opening = [])
    (hm : m < drivesIn p.acts) (h : s.firstFailure m) :
    s.runPlan p = s.busFault m (p.acts.map eventOf) := by
  have hopen : s.openRequest p = s := by simp [State.openRequest, ho, State.enqueue]
  unfold State.runPlan
  rw [hopen, State.performAll_busOnly_fail s _ m hb hm h]
  simp only [hp, List.map_cons, eventOf_drive]
  simp [State.afterBusFail, State.busFault, State.raise, State.enqueue, State.endRequest,
    wireFrom_untilDrive_driveFirst s.dc, responseWords, statusCode]

/-- A plan without events (R153, R154, R151): the request ends at once. -/
theorem State.runPlan_quiet (s : State) (p : Plan) (ha : p.acts = []) (ho : p.opening = [])
    (hc : p.closing = []) (hs : p.status = .ok) :
    s.runPlan p = s.quietEnd { status := .ok, dims := p.dims } (responseWords { status := .ok, dims := p.dims }) := by
  simp [State.runPlan, State.openRequest, State.conclude, State.quietEnd, State.enqueue, State.endRequest,
    ha, ho, hc, hs]

end Sys2Proof.Machine
end

