-- ==== Sys2Proof/Laws/Plans.lean ====
section
/-! SUPPORT. The event list of each operation in the terms of Safety.lean: its events, its drives, and
that it only uses the bus. -/

namespace Sys2Proof.Machine

theorem wireColour_id (c : Colour) : wireColour c = c := by
  apply BitVec.eq_of_getLsbD_eq
  intro i hi
  simp only [wireColour, pack, unpack, BitVec.getLsbD_append, BitVec.getLsbD_extractLsb']
  rcases Nat.lt_or_ge i 5 with h | h
  · simp [h]
  · rcases Nat.lt_or_ge i 11 with h' | h'
    · have h1 : ¬ i < 5 := by omega
      have h2 : i - 5 < 6 := by omega
      have h3 : 5 + (i - 5) = i := by omega
      simp [h1, h2, h3]
    · have h1 : ¬ i < 5 := by omega
      have h2 : ¬ i - 5 < 6 := by omega
      have h3 : i - 5 - 6 < 5 := by omega
      have h4 : 11 + (i - 5 - 6) = i := by omega
      simp [h1, h2, h3, h4]

theorem map_wireColour (cs : List Colour) : cs.map wireColour = cs := by
  induction cs with
  | nil => rfl
  | cons c cs ih => simp [wireColour_id, ih]

@[simp] theorem map_eventOf_writes (ws : List U16) : (ws.map Action.write).map eventOf = ws.map .write := by
  simp [List.map_map, Function.comp_def]

/-! ## Transport and driver -/

theorem sendCommandActs_events (bytes : List Byte) :
    (sendCommandActs bytes).map eventOf = .drive .dc .low :: bytes.map fun b => .write (b.setWidth 16) := by
  simp [sendCommandActs, Config.dcCmdLevel, zext16, List.map_map, Function.comp_def]

theorem sendDataActs_events (p : Payload) :
    (sendDataActs p).map eventOf = .drive .dc .high :: (payloadWords p).map .write := by
  simp [sendDataActs, Config.dcDataLevel, List.map_map, Function.comp_def]

@[simp] theorem sendCommandActs_drives (bytes : List Byte) : drivesIn (sendCommandActs bytes) = 1 := by
  simp [sendCommandActs, drivesIn]

@[simp] theorem sendDataActs_drives (p : Payload) : drivesIn (sendDataActs p) = 1 := by
  simp [sendDataActs, drivesIn]

@[simp] theorem sendCommandActs_busOnly (bytes : List Byte) : busOnly (sendCommandActs bytes) = true := by
  have := busOnly_writes (bytes.map zext16)
  simpa [sendCommandActs, busOnly, List.map_map, Function.comp_def] using this

@[simp] theorem sendDataActs_busOnly (p : Payload) : busOnly (sendDataActs p) = true := by
  simp [sendDataActs, busOnly]

theorem writeCommandActs_events (c : Byte) : (writeCommandActs c).map eventOf = commandEvents c :=
  sendCommandActs_events [c]

theorem writeDataActs_events (b : Byte) : (writeDataActs b).map eventOf = byteEvents b := by
  simp [writeDataActs, sendDataActs_events, payloadWords, byteEvents, zext16]

theorem writePixelsActs_events (cs : List Colour) :
    (writePixelsActs cs).map eventOf = .drive .dc .high :: cs.map .write := by
  simp [writePixelsActs, sendDataActs_events, payloadWords, map_wireColour]

theorem coordActs_events (v : U16) :
    (coordActs v).map eventOf = byteEvents (v.extractLsb' 8 8) ++ byteEvents (v.extractLsb' 0 8) := by
  simp [coordActs, writeDataActs_events, hi8, lo8]

theorem windowActs_events (xs ys xe ye : U16) :
    (windowActs xs ys xe ye).map eventOf = windowEvents xs ys xe ye := by
  simp [windowActs, windowEvents, coordActs_events, writeCommandActs_events]

theorem paintActs_events (xs ys xe ye : U16) (cs : List Colour) :
    (paintActs xs ys xe ye cs).map eventOf = paintEvents xs ys xe ye cs := by
  simp [paintActs, paintEvents, windowActs_events, writeCommandActs_events, writePixelsActs_events]

@[simp] theorem writeCommandActs_drives (c : Byte) : drivesIn (writeCommandActs c) = 1 :=
  sendCommandActs_drives [c]
@[simp] theorem writeDataActs_drives (b : Byte) : drivesIn (writeDataActs b) = 1 :=
  sendDataActs_drives _
@[simp] theorem writePixelsActs_drives (cs : List Colour) : drivesIn (writePixelsActs cs) = 1 :=
  sendDataActs_drives _
@[simp] theorem coordActs_drives (v : U16) : drivesIn (coordActs v) = 2 := by
  simp [coordActs, drivesIn_append]
@[simp] theorem windowActs_drives (xs ys xe ye : U16) : drivesIn (windowActs xs ys xe ye) = 10 := by
  simp [windowActs, drivesIn_append]
@[simp] theorem paintActs_drives (xs ys xe ye : U16) (cs : List Colour) :
    drivesIn (paintActs xs ys xe ye cs) = 12 := by
  simp [paintActs, drivesIn_append]

@[simp] theorem writeCommandActs_busOnly (c : Byte) : busOnly (writeCommandActs c) = true :=
  sendCommandActs_busOnly [c]
@[simp] theorem writeDataActs_busOnly (b : Byte) : busOnly (writeDataActs b) = true :=
  sendDataActs_busOnly _
@[simp] theorem writePixelsActs_busOnly (cs : List Colour) : busOnly (writePixelsActs cs) = true :=
  sendDataActs_busOnly _
@[simp] theorem coordActs_busOnly (v : U16) : busOnly (coordActs v) = true := by
  simp [coordActs, busOnly_append]
@[simp] theorem windowActs_busOnly (xs ys xe ye : U16) : busOnly (windowActs xs ys xe ye) = true := by
  simp [windowActs, busOnly_append]
@[simp] theorem paintActs_busOnly (xs ys xe ye : U16) (cs : List Colour) :
    busOnly (paintActs xs ys xe ye cs) = true := by
  simp [paintActs, busOnly_append]

theorem windowActs_first (xs ys xe ye : U16) :
    ∃ rest, windowActs xs ys xe ye = .drive .dc .low :: rest := ⟨_, rfl⟩

theorem paintActs_first (xs ys xe ye : U16) (cs : List Colour) :
    ∃ rest, paintActs xs ys xe ye cs = .drive .dc .low :: rest := ⟨_, rfl⟩

/-! ## What the events say of `DC` and of the wire -/

theorem latchAfter_commandEvents (d : Latch) (c : Byte) :
    latchAfter .dc d (commandEvents c) = .driven .low := rfl

theorem latchAfter_byteEvents (d : Latch) (b : Byte) :
    latchAfter .dc d (byteEvents b) = .driven .high := rfl

theorem wireFrom_commandEvents (d : Latch) (c : Byte) :
    wireFrom d (commandEvents c) = [commandCycle c] := rfl

theorem wireFrom_byteEvents (d : Latch) (b : Byte) : wireFrom d (byteEvents b) = [byteCycle b] := rfl

@[simp] theorem latchAfter_writes (line : Line) (d : Latch) (ws : List U16) :
    latchAfter line d (ws.map .write) = d := by
  induction ws with
  | nil => rfl
  | cons w ws ih => simpa [latchAfter] using ih

@[simp] theorem wireFrom_writes (d : Latch) (ws : List U16) :
    wireFrom d (ws.map .write) = ws.map fun w => (d, w) := by
  induction ws with
  | nil => rfl
  | cons w ws ih => simpa [wireFrom] using ih

theorem latchAfter_windowEvents (d : Latch) (xs ys xe ye : U16) :
    latchAfter .dc d (windowEvents xs ys xe ye) = .driven .high := rfl

theorem wireFrom_windowEvents (d : Latch) (xs ys xe ye : U16) :
    wireFrom d (windowEvents xs ys xe ye) = windowCycles xs ys xe ye := rfl

theorem latchAfter_paintEvents (d : Latch) (xs ys xe ye : U16) (cs : List Colour) :
    latchAfter .dc d (paintEvents xs ys xe ye cs) = .driven .high := by
  simp [paintEvents, latchAfter_append, latchAfter]

theorem wireFrom_paintEvents (d : Latch) (xs ys xe ye : U16) (cs : List Colour) :
    wireFrom d (paintEvents xs ys xe ye cs) = paintCycles xs ys xe ye cs := by
  simp [paintEvents, paintCycles, wireFrom_append, wireFrom_windowEvents, wireFrom_commandEvents,
    wireFrom, wordCycle]

/-! ## Requests that use only the bus -/

/-- The form of every bus request's rule, from its plan. -/
theorem runsOnBus_of_plan {i : Instr} {s : State} {p : Plan} {l d : Level} {rest : List Action}
    (he : exec i s = .next (s.runPlan p)) (hp : p.acts = .drive .dc l :: rest)
    (hb : busOnly p.acts = true) (ho : p.opening = []) (hc : p.closing = []) (hs : p.status = .ok)
    (hd : p.dims = none) (hl : latchAfter .dc .U (p.acts.map eventOf) = .driven d) :
    runsOnBus i s (drivesIn p.acts) d (p.acts.map eventOf) := by
  refine ⟨fun h => ?_, fun m hm h => ?_⟩
  · rw [he, State.runPlan_bus_ok s p l rest hp hb ho hc hs h, hl, hd]
    rfl
  · rw [he, State.runPlan_bus_fail s p l rest m hp hb ho hm h]

/-- A painting plan (R126): window program, memory write, pixel stream. -/
theorem runsOnBus_paint {i : Instr} {s : State} {p : Plan} (xs ys xe ye : U16) (cs : List Colour)
    (he : exec i s = .next (s.runPlan p)) (hp : p.acts = paintActs xs ys xe ye cs)
    (ho : p.opening = []) (hc : p.closing = []) (hs : p.status = .ok) (hd : p.dims = none) :
    runsOnBus i s 12 .high (paintEvents xs ys xe ye cs) := by
  have h := runsOnBus_of_plan (d := .high) he hp (by simp [hp]) ho hc hs hd
    (by rw [hp, paintActs_events]; exact latchAfter_paintEvents _ _ _ _ _ _)
  simpa [hp, paintActs_events] using h

end Sys2Proof.Machine
end

