-- ==== Sys2Proof/Laws/Runs.lean ====
section
/-! SUPPORT. Everything an event list can do, said once: if it runs to its end (`Ran`), and if it stops
at a failing drive. Also when each happens. -/

namespace Sys2Proof.Machine

/-- What an event list performed to its end has done. -/
structure Ran (s t : State) (as : List Action) : Prop where
  tr : t.tr = s.tr ++ as.map eventOf
  latch : ∀ line, t.latch line = latchAfter line (s.latch line) (as.map eventOf)
  cycles : t.pins ++ cyclesOf t.buffer = s.pins ++ cyclesOf s.buffer ++ wireFrom s.dc (as.map eventOf)
  lineAnswers : t.lineAnswers = s.lineAnswers.drop (drivesIn as)
  drives : t.drives = s.drives + drivesIn as
  cfg : t.cfg = s.cfg
  seq : t.seq = s.seq
  result : t.result = s.result
  port : t.port = s.port
  discard : t.discard = s.discard
  resp : t.resp = s.resp
  schedule : t.schedule = s.schedule
  freeMoves : t.freeMoves = s.freeMoves
  host : t.host = s.host

theorem Ran.refl (s : State) : Ran s s [] where
  tr := by simp
  latch := fun _ => rfl
  cycles := by simp [wireFrom]
  lineAnswers := by simp [drivesIn]
  drives := rfl
  cfg := rfl
  seq := rfl
  result := rfl
  port := rfl
  discard := rfl
  resp := rfl
  schedule := rfl
  freeMoves := rfl
  host := rfl

theorem Ran.trans {s t u : State} {as bs : List Action} (h : Ran s t as) (k : Ran t u bs) :
    Ran s u (as ++ bs) where
  tr := by simp [k.tr, h.tr]
  latch := fun line => by rw [k.latch, h.latch, List.map_append, latchAfter_append]
  cycles := by
    have hd : t.dc = latchAfter .dc s.dc (as.map eventOf) := h.latch .dc
    rw [k.cycles, h.cycles, List.map_append, wireFrom_append, hd, List.append_assoc]
  lineAnswers := by rw [k.lineAnswers, h.lineAnswers, List.drop_drop, drivesIn_append]
  drives := by rw [k.drives, h.drives, drivesIn_append, Nat.add_assoc]
  cfg := k.cfg.trans h.cfg
  seq := k.seq.trans h.seq
  result := k.result.trans h.result
  port := k.port.trans h.port
  discard := k.discard.trans h.discard
  resp := k.resp.trans h.resp
  schedule := k.schedule.trans h.schedule
  freeMoves := k.freeMoves.trans h.freeMoves
  host := k.host.trans h.host

/-- After an event list, the answers are those behind the ones it used. -/
theorem Ran.answerAt {s t : State} {as : List Action} (h : Ran s t as) (j : Nat) :
    t.answerAt j = s.answerAt (drivesIn as + j) :=
  State.answerAt_congr h.lineAnswers h.drives

/-- One entry performed. -/
theorem State.perform_ran (s t : State) (a : Action) (h : s.perform a = (t, true)) : Ran s t [a] := by
  cases a with
  | drive line l =>
    simp only [State.perform] at h
    cases ha : s.answerAt 0 with
    | false => simp [State.drive_fail line l ha] at h
    | true =>
      rw [State.drive_ok line l ha] at h
      obtain rfl := (Prod.mk.inj h).1.symm
      cases line <;> constructor <;> first | rfl | skip
      all_goals first
        | (intro m; cases m <;> rfl)
        | simp [wireFrom]
  | write w =>
    obtain rfl := (Prod.mk.inj h).1.symm
    constructor <;> first | rfl | skip
    · intro m; cases m <;> rfl
    · simp [wireFrom, cyclesOf_append, cyclesOf]
  | delay ms =>
    obtain rfl := (Prod.mk.inj h).1.symm
    constructor <;> first | rfl | skip
    intro m; cases m <;> rfl

/-- An entry that raises is a drive that failed. -/
theorem State.perform_false (s t : State) (a : Action) (h : s.perform a = (t, false)) :
    ∃ line l, a = .drive line l ∧ s.answerAt 0 = false := by
  cases a with
  | drive line l =>
    refine ⟨line, l, rfl, ?_⟩
    cases ha : s.answerAt 0 with
    | false => rfl
    | true => simp [State.perform, State.drive_ok line l ha] at h
  | write w => simp [State.perform] at h
  | delay ms => simp [State.perform] at h

/-- An event list that ran to its end. -/
theorem State.performAll_true (s t : State) (as : List Action) (h : s.performAll as = (t, true)) :
    Ran s t as := by
  induction as generalizing s with
  | nil =>
    obtain rfl := (Prod.mk.inj h).1
    exact Ran.refl s
  | cons a as ih =>
    simp only [State.performAll] at h
    rcases hp : s.perform a with ⟨u, _ | _⟩
    · rw [hp] at h; simp at h
    · rw [hp] at h
      exact (State.perform_ran s u a hp).trans (ih u h)

/-- An event list that stopped did so at a failing drive, everything before it performed. -/
theorem State.performAll_false (s t : State) (as : List Action) (h : s.performAll as = (t, false)) :
    ∃ before line l after u, as = before ++ .drive line l :: after ∧ s.performAll before = (u, true) ∧
      u.answerAt 0 = false ∧ t = (u.drive line l).1 := by
  induction as generalizing s with
  | nil => simp at h
  | cons a as ih =>
    simp only [State.performAll] at h
    rcases hp : s.perform a with ⟨u, _ | _⟩
    · rw [hp] at h
      obtain ⟨line, l, rfl, ha⟩ := State.perform_false s u a hp
      refine ⟨[], line, l, as, s, rfl, rfl, ha, ?_⟩
      rw [← (Prod.mk.inj h).1]
      exact (congrArg Prod.fst hp).symm
    · rw [hp] at h
      obtain ⟨before, line, l, after, v, rfl, hv, ha, ht⟩ := ih u h
      exact ⟨a :: before, line, l, after, v, rfl, by simp [State.performAll, hp, hv], ha, ht⟩

/-- An event list that ran to its end had every drive answered. -/
theorem State.answersOk_of_performAll (s t : State) (as : List Action) (h : s.performAll as = (t, true)) :
    s.answersOk (drivesIn as) := by
  induction as generalizing s with
  | nil => exact State.answersOk_zero s
  | cons a as ih =>
    simp only [State.performAll] at h
    rcases hq : s.perform a with ⟨x, _ | _⟩
    · rw [hq] at h; simp at h
    · rw [hq] at h
      have hr := State.perform_ran s x a hq
      have hx := ih x h
      intro j hj
      cases a with
      | drive line l =>
        cases j with
        | zero =>
          cases hv0 : s.answerAt 0 with
          | true => rfl
          | false => simp [State.perform, State.drive_fail line l hv0] at hq
        | succ j =>
          have := hx j (by simpa [drivesIn] using hj)
          rw [hr.answerAt] at this
          simpa [drivesIn, Nat.add_comm] using this
      | write w =>
        have := hx j (by simpa [drivesIn] using hj)
        rw [hr.answerAt] at this
        simpa [drivesIn] using this
      | delay ms =>
        have := hx j (by simpa [drivesIn] using hj)
        rw [hr.answerAt] at this
        simpa [drivesIn] using this

/-- With every drive answered, an event list runs to its end. -/
theorem State.performAll_of_answersOk (s : State) (as : List Action) (h : s.answersOk (drivesIn as)) :
    ∃ t, s.performAll as = (t, true) := by
  rcases hp : s.performAll as with ⟨t, _ | _⟩
  · exfalso
    obtain ⟨before, line, l, after, u, rfl, hu, ha, _⟩ := State.performAll_false s t as hp
    rw [(State.performAll_true s u before hu).answerAt, Nat.add_zero] at ha
    have := h (drivesIn before) (by simp [drivesIn_append, drivesIn])
    simp [this] at ha
  · exact ⟨t, rfl⟩

/-- With drive `m` the first to fail, an event list of more drives stops there. -/
theorem State.performAll_of_firstFailure (s : State) (as : List Action) (m : Nat)
    (hm : m < drivesIn as) (h : s.firstFailure m) :
    ∃ before line l after u, as = before ++ .drive line l :: after ∧ drivesIn before = m ∧
      s.performAll before = (u, true) ∧ u.answerAt 0 = false ∧
      s.performAll as = ((u.drive line l).1, false) := by
  rcases hp : s.performAll as with ⟨t, _ | _⟩
  · obtain ⟨before, line, l, after, u, rfl, hu, ha, rfl⟩ := State.performAll_false s t as hp
    refine ⟨before, line, l, after, u, rfl, ?_, hu, ha, rfl⟩
    rw [(State.performAll_true s u before hu).answerAt, Nat.add_zero] at ha
    rcases Nat.lt_trichotomy (drivesIn before) m with hlt | heq | hgt
    · simp [h.1 _ hlt] at ha
    · exact heq
    · have := State.answersOk_of_performAll s u before hu m hgt
      simp [h.2] at this
  · have := State.answersOk_of_performAll s t as hp m hm
    simp [h.2] at this

/-- The trace after a failing drive, in the form of `untilDrive`. -/
theorem untilDrive_append (before after : List Action) (line : Line) (l : Level) :
    untilDrive (drivesIn before) ((before ++ .drive line l :: after).map eventOf) =
      before.map eventOf ++ [.driveFail line l] := by
  induction before with
  | nil => simp [drivesIn, untilDrive]
  | cons a as ih =>
    cases a with
    | drive m v => simpa [drivesIn, untilDrive] using ih
    | write w =>
      simp only [drivesIn, List.cons_append, List.map_cons, eventOf_write]
      cases hd : drivesIn as <;> simpa [untilDrive, hd] using ih
    | delay ms =>
      simp only [drivesIn, List.cons_append, List.map_cons, eventOf_delay]
      cases hd : drivesIn as <;> simpa [untilDrive, hd] using ih

/-- What a failing drive leaves (R171). -/
theorem State.drive_false (s : State) (line : Line) (l : Level) (h : s.answerAt 0 = false) :
    (s.drive line l).1.tr = s.tr ++ [.driveFail line l] ∧ (s.drive line l).1.latch line = .U ∧
    (∀ other, other ≠ line → (s.drive line l).1.latch other = s.latch other) ∧
    (s.drive line l).1.pins ++ cyclesOf (s.drive line l).1.buffer = s.pins ++ cyclesOf s.buffer ∧
    (s.drive line l).1.cfg = s.cfg ∧ (s.drive line l).1.port = s.port ∧
    (s.drive line l).1.resp = s.resp := by
  rw [State.drive_fail line l h]
  refine ⟨by simp, by cases line <;> rfl, ?_, ?_, by simp, by simp, by simp⟩
  · intro other hne
    cases line <;> cases other <;> first | rfl | exact absurd rfl hne
  · cases line <;> simp [cyclesOf]

end Sys2Proof.Machine
end

