-- ==== Sys2Proof/Laws/Requests.lean ====
section
/-! SUPPORT. What a whole request can do: exec of an admitted request is its plan, and a plan either runs
to its end or stops at a failing drive. -/

namespace Sys2Proof.Machine

/-- The meaning of every admitted request is its plan (R11, R86). -/
theorem exec_request (i : Instr) (s : State) (hi : isRequest i = true) (ha : admitted s.cfg i = true) :
    exec i s = .next (s.runPlan (planOf s.cfg i)) := by
  cases i <;> first | (simp [isRequest] at hi; done) | rfl | skip
  simp [exec, execDrawPixels, ha, planOf]

/-- A request that answers a next state was admitted, and the state is its plan's. -/
theorem exec_next (i : Instr) (s t : State) (hi : isRequest i = true) (h : exec i s = .next t) :
    admitted s.cfg i = true ∧ t = s.runPlan (planOf s.cfg i) := by
  have ha : admitted s.cfg i = true := by
    cases i <;> first | rfl | (simp [isRequest] at hi; done) | skip
    by_contra hc
    simp [exec, execDrawPixels, hc] at h
  rw [exec_request i s hi ha] at h
  exact ⟨ha, (Host.Outcome.next.inj h).symm⟩

/-- A command cycle changes the sink alone (R66). -/
theorem exec_wire (i : Instr) (s : State) (hi : isRequest i = false) :
    ∃ f, exec i s = .next (s.atSink f) := by
  cases i <;> first | exact ⟨_, rfl⟩ | simp [isRequest] at hi

/-- A plan runs to its end, or stops at its first failing drive. -/
theorem State.runPlan_cases (s : State) (p : Plan) :
    (∃ t, (s.openRequest p).performAll p.acts = (t, true) ∧ Ran (s.openRequest p) t p.acts ∧
      s.runPlan p = t.conclude p 0) ∨
    (∃ before line l after u, p.acts = before ++ .drive line l :: after ∧
      (s.openRequest p).performAll before = (u, true) ∧ Ran (s.openRequest p) u before ∧
      u.answerAt 0 = false ∧ s.runPlan p = (u.drive line l).1.raise .controlLineFault 0) := by
  rcases h : (s.openRequest p).performAll p.acts with ⟨t, _ | _⟩
  · obtain ⟨before, line, l, after, u, he, hu, h0, rfl⟩ := State.performAll_false _ _ _ h
    exact .inr ⟨before, line, l, after, u, he, hu, State.performAll_true _ _ _ hu, h0, by
      unfold State.runPlan; rw [h]⟩
  · exact .inl ⟨t, rfl, State.performAll_true _ _ _ h, by unfold State.runPlan; rw [h]⟩

/-- What the end of an event list leaves as it was. -/
theorem State.conclude_fields (s : State) (p : Plan) (n : Nat) :
    (s.conclude p n).tr = s.tr ∧ (s.conclude p n).result.status = p.status ∧
    (s.conclude p n).dc = s.dc ∧ (s.conclude p n).rst = s.rst ∧ (s.conclude p n).bl = s.bl ∧
    (s.conclude p n).cfg = s.cfg ∧ (s.conclude p n).pins = s.pins ∧ (s.conclude p n).sink = s.sink ∧
    (s.conclude p n).seq = .idle := by
  unfold State.conclude
  split <;> simp [*]

/-- The result at the end of an event list is the plan's. -/
theorem State.conclude_result (s : State) (p : Plan) (n : Nat) :
    (s.conclude p n).result =
      { status := p.status, dims := if p.status = .ok then p.dims else none } := by
  unfold State.conclude
  split <;> simp [*]

/-- The end of an event list adds marks to the buffer and no cycle. -/
theorem State.conclude_cycles (s : State) (p : Plan) (n : Nat) :
    cyclesOf (s.conclude p n).buffer = cyclesOf s.buffer := by
  unfold State.conclude
  split <;> simp [cyclesOf_append] <;> split <;> simp [cyclesOf]

/-- Raising adds at most a mark to the buffer and no cycle. -/
theorem State.raise_cycles (s : State) (c : Status) (n : Nat) :
    cyclesOf (s.raise c n).buffer = cyclesOf s.buffer := by
  simp only [State.raise_buffer, cyclesOf_append]
  split <;> simp [cyclesOf]

/-- No rule puts `ControlLineFault` at the end of an event list: only a drive raises it (R170). -/
theorem planOf_status (c : Config) (i : Instr) : (planOf c i).status ≠ .controlLineFault := by
  cases i <;> simp [planOf, sendCommandPlan, sendDataPlan, writeCommandPlan, writeDataPlan,
    writeDataWordsPlan, writePixelsPlan, setAddressWindowPlan, hardResetPlan, initPlan, clearPlan,
    sizePlan, drawPixelsPlan, fillRegionPlan, fillSolidPlan]
  · split <;> simp
  · split <;> (try split) <;> simp
  · split <;> simp

/-- Performed events are never failures. -/
theorem driveFail_not_mem (as : List Action) (line : Line) (l : Level) :
    Event.driveFail line l ∉ as.map eventOf := by
  intro h
  obtain ⟨a, _, ha⟩ := List.mem_map.1 h
  cases a <;> simp at ha

end Sys2Proof.Machine
end

