-- ==== Sys2Proof/Laws/Control.lean ====
section
/-! SUPPORT. The reset pulse, the backlight and the table as event lists: what each performs, in closed
form. -/

namespace Sys2Proof.Machine

@[simp] theorem Sink.takeAll_nil (k : Sink) : k.takeAll [] = k := rfl

theorem Sink.takeAll_append (k : Sink) (xs ys : List BusItem) :
    k.takeAll (xs ++ ys) = (k.takeAll xs).takeAll ys := by
  simp [Sink.takeAll]

@[simp] theorem Sink.forget_forget (k : Sink) : k.forget.forget = k.forget := rfl

/-- The state after a reset pulse that ran to its end (R140). -/
def State.afterPulse (s : State) : State :=
  { s with rst := .driven .high, tr := s.tr ++ resetEvents,
           pins := s.pins ++ cyclesOf s.buffer, sink := s.sink.takeAll s.buffer, buffer := [],
           lineAnswers := s.lineAnswers.drop 3, drives := s.drives + 3 }

/-- The state after a reset pulse whose drive `m` failed first (R140, R171). -/
def State.afterPulseFail (s : State) (m : Nat) : State :=
  { s with rst := .U, tr := s.tr ++ untilDrive m resetEvents,
           pins := s.pins ++ cyclesOf s.buffer, sink := s.sink.takeAll s.buffer, buffer := [],
           lineAnswers := s.lineAnswers.drop (m + 1), drives := s.drives + (m + 1) }

/-- The three drives of the pulse (R140). -/
theorem drivesIn_hardResetActs (c : Config) : drivesIn (hardResetActs c) = if c.hasRst then 3 else 0 := by
  unfold hardResetActs
  split <;> rfl

theorem hardResetActs_events (c : Config) :
    (hardResetActs c).map eventOf = if c.hasRst then resetEvents else [] := by
  unfold hardResetActs
  split <;> rfl

/-- The answers needed later are those behind the ones used (R171). -/
theorem State.answerAt_add {s t : State} (k j : Nat) (h1 : t.lineAnswers = s.lineAnswers.drop k)
    (h2 : t.drives = s.drives + k) (b : Bool) (h : s.answerAt (k + j) = b) : t.answerAt j = b := by
  rw [State.answerAt_congr h1 h2, h]

theorem State.performAll_pulse (s : State) (h : s.answersOk 3) :
    s.performAll (resetStepActs .high ++ resetStepActs .low ++ resetStepActs .high) =
      (s.afterPulse, true) := by
  have h0 := h 0 (by omega)
  have h1 := h 1 (by omega)
  have h2 := h 2 (by omega)
  simp only [resetStepActs, List.cons_append, List.nil_append, State.performAll, State.perform]
  rw [State.drive_ok _ _ h0]
  simp only
  rw [State.drive_ok _ _ (State.answerAt_add (s := s) 1 0 rfl rfl true h1)]
  simp only
  rw [State.drive_ok _ _ (State.answerAt_add (s := s) 2 0 (by simp) rfl true h2)]
  simp [State.afterPulse, State.delay, State.emit, State.drain, State.settle, State.useAnswer,
    State.setLatch, resetEvents, Config.tRstMs, cyclesOf]

theorem State.performAll_pulse_fail (s : State) (m : Nat) (hm : m < 3) (h : s.firstFailure m) :
    s.performAll (resetStepActs .high ++ resetStepActs .low ++ resetStepActs .high) =
      (s.afterPulseFail m, false) := by
  simp only [resetStepActs, List.cons_append, List.nil_append, State.performAll, State.perform]
  match m, hm, h with
  | 0, _, h =>
    rw [State.drive_fail _ _ h.2]
    simp [State.afterPulseFail, State.emit, State.drain, State.settle, State.useAnswer,
      State.setLatch, resetEvents, untilDrive]
  | 1, _, h =>
    rw [State.drive_ok _ _ (h.1 0 (by omega))]
    simp only
    rw [State.drive_fail _ _ (State.answerAt_add (s := s) 1 0 rfl rfl false h.2)]
    simp [State.afterPulseFail, State.delay, State.emit, State.drain, State.settle, State.useAnswer,
      State.setLatch, resetEvents, untilDrive, Config.tRstMs, cyclesOf]
  | 2, _, h =>
    rw [State.drive_ok _ _ (h.1 0 (by omega))]
    simp only
    rw [State.drive_ok _ _ (State.answerAt_add (s := s) 1 0 rfl rfl true (h.1 1 (by omega)))]
    simp only
    rw [State.drive_fail _ _ (State.answerAt_add (s := s) 2 0 (by simp) rfl false h.2)]
    simp [State.afterPulseFail, State.delay, State.emit, State.drain, State.settle, State.useAnswer,
      State.setLatch, resetEvents, untilDrive, Config.tRstMs, cyclesOf]

/-! ## The table -/

theorem flatMap_writeDataActs_events (bs : List Byte) :
    (bs.flatMap writeDataActs).map eventOf = bs.flatMap byteEvents := by
  induction bs with
  | nil => rfl
  | cons b bs ih => simp [ih, writeDataActs_events]

theorem flatMap_writeDataActs_drives (bs : List Byte) : drivesIn (bs.flatMap writeDataActs) = bs.length := by
  induction bs with
  | nil => rfl
  | cons b bs ih => simp [drivesIn_append, ih]; omega

theorem flatMap_writeDataActs_busOnly (bs : List Byte) : busOnly (bs.flatMap writeDataActs) = true := by
  induction bs with
  | nil => rfl
  | cons b bs ih => simp [busOnly_append, ih]

theorem tableActs_events (t : List TableEntry) :
    (t.flatMap tableEntryActs).map eventOf = tableEvents t := by
  induction t with
  | nil => rfl
  | cons e t ih =>
    simp only [tableEvents] at ih
    simp [tableEntryActs, tableEvents, ih, writeCommandActs_events, flatMap_writeDataActs_events]

theorem tableActs_drives (t : List TableEntry) : drivesIn (t.flatMap tableEntryActs) = tableDrives t := by
  induction t with
  | nil => rfl
  | cons e t ih =>
    simp only [tableDrives] at ih
    simp [tableEntryActs, tableDrives, drivesIn_append, ih, flatMap_writeDataActs_drives]
    omega

theorem tableActs_busOnly (t : List TableEntry) : busOnly (t.flatMap tableEntryActs) = true := by
  induction t with
  | nil => rfl
  | cons e t ih => simp [tableEntryActs, busOnly_append, ih, flatMap_writeDataActs_busOnly]

theorem wireFrom_byteEvents_all (d : Latch) (bs : List Byte) :
    wireFrom d (bs.flatMap byteEvents) = bs.map byteCycle := by
  induction bs generalizing d with
  | nil => rfl
  | cons b bs ih => simp [wireFrom_append, wireFrom_byteEvents, ih]

theorem wireFrom_tableEvents (d : Latch) (t : List TableEntry) :
    wireFrom d (tableEvents t) = tableCycles t := by
  induction t generalizing d with
  | nil => rfl
  | cons e t ih =>
    simp only [tableEvents, tableCycles] at ih
    simp [tableEvents, tableCycles, wireFrom_append, wireFrom_commandEvents, wireFrom_byteEvents_all, ih]

theorem initActs_events (c : Config) : (initActs c).map eventOf = initEvents c := by
  simp only [initActs, initEvents, wakeEvents, List.map_append, hardResetActs_events, tableActs_events]
  congr 1
  unfold backlightActs
  cases c.hasBl <;> simp

theorem initActs_drives (c : Config) :
    drivesIn (initActs c) = wakeDrives c + tableDrives c.initTable + 2 := by
  simp only [initActs, drivesIn_append, drivesIn_hardResetActs, tableActs_drives, wakeDrives]
  have h1 : drivesIn (backlightActs c) = if c.hasBl then 1 else 0 := by
    unfold backlightActs; split <;> rfl
  have h2 : drivesIn initTailActs = 2 := rfl
  omega

end Sys2Proof.Machine
end

