-- ==== Sys2Proof/Laws/Decode.lean ====
section
/-! SUPPORT. The fields of request words (R85 to R87): what each field of an encoded word gives back. -/

namespace Sys2Proof

/-! ## `W0` -/

@[simp] theorem lowByte_w0 (imm : U16) (fmt op : Byte) : lowByte (w0 imm fmt op) = op := by
  apply BitVec.eq_of_getLsbD_eq
  intro i hi
  simp only [lowByte, w0, BitVec.getLsbD_extractLsb', BitVec.getLsbD_append]
  simp [hi]

@[simp] theorem fmtField_w0 (imm : U16) (fmt op : Byte) : fmtField (w0 imm fmt op) = fmt := by
  apply BitVec.eq_of_getLsbD_eq
  intro i hi
  have h1 : ¬ 8 + i < 8 := by omega
  simp only [fmtField, w0, BitVec.getLsbD_extractLsb', BitVec.getLsbD_append]
  simp [hi, h1]

@[simp] theorem highHalf_w0 (imm : U16) (fmt op : Byte) : highHalf (w0 imm fmt op) = imm := by
  apply BitVec.eq_of_getLsbD_eq
  intro i hi
  have h1 : ¬ 16 + i < 8 := by omega
  have h2 : ¬ 16 + i - 8 < 8 := by omega
  have h3 : 16 + i - 8 - 8 = i := by omega
  simp only [highHalf, w0, BitVec.getLsbD_extractLsb', BitVec.getLsbD_append]
  simp [hi, h1, h2, h3]

@[simp] theorem immByte_w0 (b : Byte) (fmt op : Byte) : immByte (w0 (byteImm b) fmt op) = b := by
  apply BitVec.eq_of_getLsbD_eq
  intro i hi
  have h1 : ¬ 16 + i < 8 := by omega
  have h2 : ¬ 16 + i - 8 < 8 := by omega
  have h3 : 16 + i - 8 - 8 = i := by omega
  have h4 : i < 16 := by omega
  simp only [immByte, w0, byteImm, BitVec.getLsbD_extractLsb', BitVec.getLsbD_append, BitVec.getLsbD_setWidth]
  simp [hi, h1, h2, h3, h4]

/-! ## Operand and element words -/

@[simp] theorem lowHalf_append (hi lo : U16) : lowHalf (hi ++ lo) = lo := by
  apply BitVec.eq_of_getLsbD_eq
  intro i h
  simp only [lowHalf, BitVec.getLsbD_extractLsb', BitVec.getLsbD_append]
  simp [h]

@[simp] theorem highHalf_append (hi lo : U16) : highHalf (hi ++ lo) = hi := by
  apply BitVec.eq_of_getLsbD_eq
  intro i h
  simp only [highHalf, BitVec.getLsbD_extractLsb', BitVec.getLsbD_append]
  simp [h]

@[simp] theorem lowByte_byteWord (b : Byte) : lowByte (byteWord b) = b := by
  apply BitVec.eq_of_toNat_eq
  have := b.isLt
  simp [lowByte, byteWord]
  omega

@[simp] theorem lowHalf_halfWord (v : U16) : lowHalf (halfWord v) = v := by
  apply BitVec.eq_of_toNat_eq
  have := v.isLt
  simp [lowHalf, halfWord]
  omega

@[simp] theorem map_lowByte_byteWord (bs : List Byte) : (bs.map byteWord).map lowByte = bs := by
  induction bs with
  | nil => rfl
  | cons b bs ih => rw [List.map_cons, List.map_cons, ih, lowByte_byteWord]

@[simp] theorem map_lowHalf_halfWord (vs : List U16) : (vs.map halfWord).map lowHalf = vs := by
  induction vs with
  | nil => rfl
  | cons v vs ih => rw [List.map_cons, List.map_cons, ih, lowHalf_halfWord]

/-- A count that fits a word is read back (R87). -/
theorem toNat_u32 (n : Nat) (h : fitsU32 n = true) : (u32 n).toNat = n := by
  have := of_decide_eq_true h
  simp [u32]
  omega

/-- A coordinate that fits a word is read back (R86, R87). -/
theorem toInt_i32 (v : Int) (h : fitsI32 v = true) : (i32 v).toInt = v := by
  simp only [fitsI32, Bool.and_eq_true, decide_eq_true_eq] at h
  rw [i32, BitVec.toInt_ofInt]
  exact Int.bmod_eq_of_le (by omega) (by omega)

theorem rectOfWords_rectWords (r : Rect) (h : r.wellFormed = true) :
    rectOfWords (i32 r.x) (i32 r.y) (u32 r.w) (u32 r.h) = r := by
  simp only [Rect.wellFormed, Bool.and_eq_true] at h
  obtain ⟨⟨⟨h1, h2⟩, h3⟩, h4⟩ := h
  simp [rectOfWords, toInt_i32, toNat_u32, h1, h2, h3, h4]

theorem length_pixelWords (ps : List Pixel) : (ps.flatMap pixelWords).length = ps.length * 3 := by
  induction ps with
  | nil => rfl
  | cons p ps ih => rw [List.flatMap_cons, List.length_append, ih, List.length_cons]; simp [pixelWords]; omega

theorem pixelsOfWords_pixelWords (ps : List Pixel) (h : ps.all Pixel.wellFormed = true) :
    pixelsOfWords (ps.flatMap pixelWords) = ps := by
  induction ps with
  | nil => rfl
  | cons p ps ih =>
    simp only [List.all_cons, Bool.and_eq_true] at h
    have hp := h.1
    simp only [Pixel.wellFormed, Bool.and_eq_true] at hp
    simp [pixelWords, pixelsOfWords, toInt_i32, hp.1, hp.2, ih h.2]

/-! ## Payloads -/

/-- Elements in two parts are the elements of the whole, for any number of words of the first part that
makes whole elements. -/
theorem pixelsOfWords_append (ps qs : List Word) (n : Nat) (h : ps.length = 3 * n) :
    pixelsOfWords (ps ++ qs) = pixelsOfWords ps ++ pixelsOfWords qs := by
  induction n generalizing ps with
  | zero =>
    match ps, h with
    | [], _ => rfl
  | succ n ih =>
    match ps, h with
    | [_], h => simp at h; omega
    | [_, _], h => simp at h; omega
    | a :: b :: c :: ps, h =>
      have := ih ps (by simp at h; omega)
      simp [pixelsOfWords, this]

theorem length_pixelsOfWords (ws : List Word) (n : Nat) (h : ws.length = n * 3) :
    (pixelsOfWords ws).length = n := by
  induction n generalizing ws with
  | zero =>
    match ws, h with
    | [], _ => rfl
  | succ n ih =>
    match ws, h with
    | [_], h => simp at h; omega
    | [_, _], h => simp at h; omega
    | a :: b :: c :: ws, h =>
      have := ih ws (by simp at h; omega)
      simp [pixelsOfWords, this]

@[simp] theorem Instr.elementWords_withElements (i : Instr) (ws : List Word) :
    elementWords (i.withElements ws) = elementWords i := by
  cases i <;> rfl

/-- Reading elements in two parts is reading them at once (R95). -/
theorem Instr.withElements_append (i : Instr) (ps qs : List Word) (n : Nat)
    (h : ps.length = elementWords i * n) :
    (i.withElements ps).withElements qs = i.withElements (ps ++ qs) := by
  cases i with
  | drawPixels xs => simp [Instr.withElements, pixelsOfWords_append ps qs n h]
  | sendData p => cases p <;> simp [Instr.withElements, Payload.withElements]
  | sendCommand _ => simp [Instr.withElements]
  | writeDataWords _ => simp [Instr.withElements]
  | writePixels _ => simp [Instr.withElements]
  | fillRegion _ _ => simp [Instr.withElements]
  | _ => rfl

@[simp] theorem Instr.withElements_nil (i : Instr) : i.withElements [] = i := by
  cases i with
  | sendData p => cases p <;> simp [Instr.withElements, Payload.withElements]
  | sendCommand _ => simp [Instr.withElements]
  | writeDataWords _ => simp [Instr.withElements]
  | writePixels _ => simp [Instr.withElements]
  | fillRegion _ _ => simp [Instr.withElements]
  | drawPixels _ => simp [Instr.withElements, pixelsOfWords]
  | _ => rfl

/-- A header whose payload is there decodes to the whole request. -/
theorem decodeRequest_of_header {ws : List Word} {h : Header} {es rest : List Word}
    (hd : decodeHeader ws = .ok h) (hr : h.rest = es ++ rest)
    (hl : es.length = h.len * elementWords h.instr) :
    decodeRequest ws = .ok (h.instr.withElements es, rest) := by
  simp only [decodeRequest, hd]
  rw [if_neg (by rw [hr, List.length_append]; omega), hr, ← hl]
  simp

/-- A decoded request has a header, and its payload in front of the rest. -/
theorem decodeRequest_ok {ws rest : List Word} {i : Instr} (h : decodeRequest ws = .ok (i, rest)) :
    ∃ hd es, decodeHeader ws = .ok hd ∧ hd.rest = es ++ rest ∧
      es.length = hd.len * elementWords hd.instr ∧ i = hd.instr.withElements es := by
  simp only [decodeRequest] at h
  split at h
  · simp at h
  · rename_i hd heq
    split at h
    · simp at h
    · rename_i hlen
      simp only [Except.ok.injEq, Prod.mk.injEq] at h
      refine ⟨hd, hd.rest.take (hd.len * elementWords hd.instr), heq, ?_, ?_, h.1.symm⟩
      · rw [← h.2, List.take_append_drop]
      · rw [List.length_take]
        omega

/-- A word whose opcode byte spells no request (R89). -/
theorem decodeHeader_badOp (w : Word) (rest : List Word)
    (h : (lowByte w).toNat = 0 ∨ 15 ≤ (lowByte w).toNat) :
    decodeHeader (w :: rest) = .error (.badOp (lowByte w)) := by
  simp only [decodeHeader]
  split <;> first | rfl | omega

end Sys2Proof
end

