-- ==== Sys2Proof/Laws/Memory.lean ====
section
/-! SUPPORT. The panel's frame memory: read after write, and that every operation keeps the canonical
form. -/

namespace Sys2Proof.Machine

@[simp] theorem Memory.read_nil (a : Nat) : Memory.read [] a = none := rfl

@[simp] theorem Memory.wf_nil : Memory.wf [] = true := rfl

/-- The canonical form as a fact about neighbours and the rest. -/
theorem Memory.wf_cons (a : Nat) (v : U16) (m : Memory) :
    Memory.wf ((a, v) :: m) = true ↔ (∀ b u, m.head? = some (b, u) → a < b) ∧ m.wf = true := by
  cases m with
  | nil => simp [Memory.wf]
  | cons e m =>
    obtain ⟨b, u⟩ := e
    rw [Memory.wf]
    simp

/-- A read of the written address gives the value written. -/
@[simp] theorem Memory.read_write_same (m : Memory) (a : Nat) (v : U16) : (m.write a v).read a = some v := by
  induction m with
  | nil => simp [Memory.write, Memory.read]
  | cons e m ih =>
    obtain ⟨b, u⟩ := e
    simp only [Memory.write]
    split
    · simp [Memory.read]
    · split
      · simp [Memory.read]
      · simp [Memory.read, *]

/-- A write leaves every other address alone. -/
theorem Memory.read_write_other (m : Memory) {a c : Nat} (v : U16) (h : c ≠ a) :
    (m.write a v).read c = m.read c := by
  induction m with
  | nil => simp [Memory.write, Memory.read, h]
  | cons e m ih =>
    obtain ⟨b, u⟩ := e
    simp only [Memory.write]
    split
    · simp [Memory.read, h]
    · split
      · next hb => subst hb; simp [Memory.read, h]
      · simp [Memory.read, ih]

/-- The first address after a write is the written one or the first one before. -/
theorem Memory.head_write (m : Memory) (a : Nat) (v : U16) (b : Nat) (u : U16)
    (h : (m.write a v).head? = some (b, u)) : b = a ∨ ∃ x, m.head? = some (b, x) := by
  cases m with
  | nil => simp [Memory.write] at h; exact .inl h.1.symm
  | cons e m =>
    obtain ⟨c, x⟩ := e
    simp only [Memory.write] at h
    split at h
    · simp at h; exact .inl h.1.symm
    · split at h
      · simp at h; exact .inl h.1.symm
      · simp at h; exact .inr ⟨x, by simp [h.1]⟩

/-- A write keeps the canonical form. -/
theorem Memory.wf_write (m : Memory) (a : Nat) (v : U16) (h : m.wf = true) : (m.write a v).wf = true := by
  induction m with
  | nil => rfl
  | cons e m ih =>
    obtain ⟨b, u⟩ := e
    obtain ⟨h1, h2⟩ := (Memory.wf_cons b u m).1 h
    simp only [Memory.write]
    split
    · next hab =>
      refine (Memory.wf_cons _ _ _).2 ⟨?_, h⟩
      intro c x hc
      simp at hc
      omega
    · split
      · next hab =>
        subst hab
        exact (Memory.wf_cons _ _ _).2 ⟨h1, h2⟩
      · refine (Memory.wf_cons _ _ _).2 ⟨?_, ih h2⟩
        intro c x hc
        rcases Memory.head_write m a v c x hc with rfl | ⟨y, hy⟩
        · omega
        · exact h1 c y hy

/-- Different positions on the panel have different addresses. -/
theorem gramAddr_inj {c r c' r' : Nat} (hc : c < 65536) (hc' : c' < 65536)
    (h : gramAddr c r = gramAddr c' r') : c = c' ∧ r = r' := by
  unfold gramAddr at h
  omega

/-- The frame memory of the reset state is in canonical form. -/
theorem reset_gram_wf : State.reset.sink.gram.wf = true := rfl

end Sys2Proof.Machine
end

