-- ==== Sys2Proof/Laws/Sink.lean ====
section
/-! SUPPORT. The reference sink: what each arrival can do to the canonical form, and the window program
and the pixel stream in closed form. -/

namespace Sys2Proof.Machine

@[simp] theorem Sink.takeCycles_nil (k : Sink) : k.takeCycles [] = k := rfl

@[simp] theorem Sink.takeCycles_cons (k : Sink) (c : Latch × U16) (cs : List (Latch × U16)) :
    k.takeCycles (c :: cs) = (k.cycle c.1 c.2).takeCycles cs := rfl

theorem Sink.takeCycles_append (k : Sink) (xs ys : List (Latch × U16)) :
    k.takeCycles (xs ++ ys) = (k.takeCycles xs).takeCycles ys := by
  simp [Sink.takeCycles, Sink.takeAll]

@[simp] theorem lo8_setWidth (c : Byte) : lo8 (c.setWidth 16) = c := by
  apply BitVec.eq_of_toNat_eq
  have := c.isLt
  simp [lo8]
  omega

/-- A command cycle at the sink selects its code (R67). -/
@[simp] theorem Sink.cycle_command (k : Sink) (c : Byte) :
    k.cycle (commandCycle c).1 (commandCycle c).2 = k.command c := by
  simp [Sink.cycle, commandCycle, Config.dcCmdLevel]

/-- A byte cycle at the sink is data (R67). -/
@[simp] theorem Sink.cycle_byte (k : Sink) (b : Byte) :
    k.cycle (byteCycle b).1 (byteCycle b).2 = k.data (b.setWidth 16) := by
  simp [Sink.cycle, byteCycle, Config.dcCmdLevel]

/-- A word cycle at the sink is data (R67). -/
@[simp] theorem Sink.cycle_word (k : Sink) (w : U16) :
    k.cycle (wordCycle w).1 (wordCycle w).2 = k.data w := by
  simp [Sink.cycle, wordCycle, Config.dcCmdLevel]

/-! ## The canonical form -/

theorem Sink.canonical_fresh : Sink.fresh.Canonical := ⟨rfl, fun _ => rfl⟩

/-- An update that touches neither the frame memory nor the premises keeps the form. -/
theorem Sink.Canonical.congr {k l : Sink} (h : k.Canonical) (hg : l.gram = k.gram)
    (hc : l.configured = k.configured) : l.Canonical := by
  unfold Sink.Canonical
  rw [hg, hc]
  exact h

/-- A sink whose frame memory is unspecified has the form. -/
theorem Sink.canonical_of_empty {k : Sink} (h : k.gram = []) : k.Canonical :=
  ⟨by rw [h]; rfl, fun _ => h⟩

theorem Sink.canonical_forget (k : Sink) : k.forget.Canonical := Sink.canonical_of_empty rfl
theorem Sink.canonical_lose (k : Sink) : k.lose.Canonical := Sink.canonical_of_empty rfl
theorem Sink.canonical_losePicture (k : Sink) : k.losePicture.Canonical := Sink.canonical_of_empty rfl
theorem Sink.canonical_loseFrame (k : Sink) : k.loseFrame.Canonical := Sink.canonical_of_empty rfl

theorem Sink.canonical_beginColumn {k : Sink} (h : k.Canonical) : k.beginColumn.Canonical := h.congr rfl rfl
theorem Sink.canonical_beginRow {k : Sink} (h : k.Canonical) : k.beginRow.Canonical := h.congr rfl rfl
theorem Sink.canonical_beginPixels {k : Sink} (h : k.Canonical) : k.beginPixels.Canonical := h.congr rfl rfl

theorem Sink.canonical_otherCommand {k : Sink} (c : Byte) (h : k.Canonical) :
    (k.otherCommand c).Canonical := by
  unfold Sink.otherCommand
  dsimp only
  split
  · split
    · exact h.congr rfl rfl
    · exact Sink.canonical_lose _
  · exact Sink.canonical_lose _

theorem Sink.canonical_command {k : Sink} (c : Byte) (h : k.Canonical) : (k.command c).Canonical := by
  unfold Sink.command
  split
  · exact Sink.canonical_beginColumn h
  · split
    · exact Sink.canonical_beginRow h
    · split
      · exact Sink.canonical_beginPixels h
      · exact Sink.canonical_otherCommand c h

theorem Sink.canonical_param {k : Sink} (c : Byte) (got : List Byte) (b : Byte) (h : k.Canonical) :
    (k.param c got b).Canonical := by
  unfold Sink.param
  dsimp only
  split
  · split
    · exact h.congr rfl rfl
    · split
      · exact h.congr rfl rfl
      · exact Sink.canonical_losePicture _
  · split
    · split
      · exact h.congr rfl rfl
      · split
        · exact h.congr rfl rfl
        · exact Sink.canonical_losePicture _
    · exact h.congr rfl rfl

theorem Sink.canonical_pixel {k : Sink} (w : U16) (h : k.Canonical) : (k.pixel w).Canonical := by
  unfold Sink.pixel
  split
  · split
    · cases hc : k.configured with
      | true =>
        refine ⟨?_, ?_⟩
        · simpa [hc] using Memory.wf_write _ _ _ h.1
        · simp
      | false => exact ⟨by simpa [hc] using h.1, fun _ => by simpa [hc] using h.2 hc⟩
    · exact Sink.canonical_loseFrame _
  · exact Sink.canonical_loseFrame _

theorem Sink.canonical_data {k : Sink} (w : U16) (h : k.Canonical) : (k.data w).Canonical := by
  unfold Sink.data
  split
  · exact Sink.canonical_param _ _ _ h
  · exact Sink.canonical_pixel _ h
  · exact h.congr rfl rfl

theorem Sink.canonical_cycle {k : Sink} (d : Latch) (w : U16) (h : k.Canonical) :
    (k.cycle d w).Canonical := by
  unfold Sink.cycle
  split
  · split
    · exact Sink.canonical_command _ h
    · exact Sink.canonical_data _ h
  · exact Sink.canonical_lose _

theorem Sink.canonical_note {k : Sink} (n : Note) (h : k.Canonical) : (k.note n).Canonical := by
  cases n with
  | initBegin => exact Sink.canonical_of_empty rfl
  | initEnd f =>
    unfold Sink.note
    dsimp only
    split
    · exact ⟨h.1, fun hc => by simp at hc⟩
    · exact Sink.canonical_of_empty rfl
  | aborted => exact Sink.canonical_of_empty rfl
  | panelReset => exact Sink.canonical_of_empty rfl

theorem Sink.canonical_take {k : Sink} (b : BusItem) (h : k.Canonical) : (k.take b).Canonical := by
  cases b with
  | cycle d w => exact Sink.canonical_cycle d w h
  | note n => exact Sink.canonical_note n h

theorem Sink.canonical_takeAll {k : Sink} (bs : List BusItem) (h : k.Canonical) :
    (k.takeAll bs).Canonical := by
  induction bs generalizing k with
  | nil => exact h
  | cons b bs ih => exact ih (Sink.canonical_take b h)

/-! ## Nothing specified -/

theorem Sink.blank_fresh : Sink.fresh.Blank := ⟨rfl, rfl, rfl, rfl, rfl, rfl⟩
theorem Sink.blank_forget (k : Sink) : k.forget.Blank := ⟨rfl, rfl, rfl, rfl, rfl, rfl⟩
theorem Sink.blank_lose (k : Sink) : k.lose.Blank := ⟨rfl, rfl, rfl, rfl, rfl, rfl⟩

/-- An update that leaves the window, the frame memory and the premises alone keeps a blank sink blank. -/
theorem Sink.Blank.congr {k l : Sink} (h : k.Blank) (hc : l.configured = k.configured) (hg : l.gram = k.gram)
    (h1 : l.xs = k.xs) (h2 : l.xe = k.xe) (h3 : l.ys = k.ys) (h4 : l.ye = k.ye) : l.Blank := by
  unfold Sink.Blank
  rw [hc, hg, h1, h2, h3, h4]
  exact h

/-- Without the premises of R71 no command brings anything about. -/
theorem Sink.blank_command {k : Sink} (c : Byte) (h : k.Blank) : (k.command c).Blank := by
  obtain ⟨hc, hg, h1, h2, h3, h4⟩ := h
  unfold Sink.command Sink.otherCommand
  dsimp only
  split
  · exact ⟨hc, hg, rfl, rfl, h3, h4⟩
  · split
    · exact ⟨hc, hg, h1, h2, rfl, rfl⟩
    · split
      · exact ⟨hc, hg, h1, h2, h3, h4⟩
      · split
        · split
          · exact ⟨hc, hg, h1, h2, h3, h4⟩
          · exact Sink.blank_lose _
        · exact Sink.blank_lose _

/-- Nor does any data. -/
theorem Sink.blank_data {k : Sink} (w : U16) (h : k.Blank) : (k.data w).Blank := by
  obtain ⟨hc, hg, h1, h2, h3, h4⟩ := h
  have hw : k.window = none := by simp [Sink.window, h1]
  unfold Sink.data
  split
  · unfold Sink.param
    dsimp only
    split
    · split
      · exact ⟨hc, hg, by simp [Sink.coordOf, hc], by simp [Sink.coordOf, hc], h3, h4⟩
      · split
        · exact ⟨hc, hg, h1, h2, h3, h4⟩
        · exact ⟨hc, rfl, rfl, rfl, rfl, rfl⟩
    · split
      · split
        · exact ⟨hc, hg, h1, h2, by simp [Sink.coordOf, hc], by simp [Sink.coordOf, hc]⟩
        · split
          · exact ⟨hc, hg, h1, h2, h3, h4⟩
          · exact ⟨hc, rfl, rfl, rfl, rfl, rfl⟩
      · exact ⟨hc, hg, h1, h2, h3, h4⟩
  · simp only [Sink.pixel, hw]
    exact ⟨hc, rfl, h1, h2, h3, h4⟩
  · exact ⟨hc, hg, h1, h2, h3, h4⟩

theorem Sink.blank_takeCycles {k : Sink} (cs : List (Latch × U16)) (h : k.Blank) :
    (k.takeCycles cs).Blank := by
  induction cs generalizing k with
  | nil => exact h
  | cons c cs ih =>
    rw [Sink.takeCycles_cons]
    refine ih ?_
    unfold Sink.cycle
    split
    · split
      · exact Sink.blank_command _ h
      · exact Sink.blank_data _ h
    · exact Sink.blank_lose _

/-! ## The log (R67, R71) -/

/-- Data after a command other than the three joins the command's log entry, byte by byte. -/
theorem Sink.takeCycles_logged (k : Sink) (c : Byte) (got ds : List Byte) (ws : List U16)
    (log : List LogEntry) (hm : k.mode = .param c got) (hl : k.log = .command c ds :: log)
    (h1 : c ≠ 0x2A) (h2 : c ≠ 0x2B) :
    k.takeCycles (ws.map wordCycle) =
      { k with mode := .param c (got ++ ws.map lo8), log := .command c (ds ++ ws.map lo8) :: log } := by
  induction ws generalizing k got ds with
  | nil => simp [← hm, ← hl]
  | cons w ws ih =>
    rw [List.map_cons, Sink.takeCycles_cons, Sink.cycle_word]
    have hd : k.data w = { k with mode := .param c (got ++ [lo8 w]), log := .command c (ds ++ [lo8 w]) :: log } := by
      simp only [Sink.data, hm, Sink.param]
      rw [if_neg h1, if_neg h2]
      simp [hl, logData]
    rw [hd, ih _ (got ++ [lo8 w]) (ds ++ [lo8 w]) rfl rfl]
    simp

/-! ## A window program (R68) -/

/-- Four parameter bytes after 0x2A, under the premises of R71: the column fields. -/
theorem Sink.takeCycles_columns (k : Sink) (p0 p1 p2 p3 : Byte) (h : k.configured = true) :
    k.takeCycles [commandCycle 0x2A, byteCycle p0, byteCycle p1, byteCycle p2, byteCycle p3] =
      { k with xs := some (p0 ++ p1), xe := some (p2 ++ p3), mode := .param 0x2A [p0, p1, p2, p3] } := by
  simp [Sink.command, Sink.beginColumn, Sink.data, Sink.param, Sink.coordOf, h]

/-- Four parameter bytes after 0x2B, under the premises of R71: the row fields. -/
theorem Sink.takeCycles_rows (k : Sink) (p0 p1 p2 p3 : Byte) (h : k.configured = true) :
    k.takeCycles [commandCycle 0x2B, byteCycle p0, byteCycle p1, byteCycle p2, byteCycle p3] =
      { k with ys := some (p0 ++ p1), ye := some (p2 ++ p3), mode := .param 0x2B [p0, p1, p2, p3] } := by
  simp [Sink.command, Sink.beginRow, Sink.data, Sink.param, Sink.coordOf, h]

/-- The two bytes of a coordinate give it back (R83). -/
theorem coord_bytes (v : U16) : (v.extractLsb' 8 8 ++ v.extractLsb' 0 8 : U16) = v := by
  apply BitVec.eq_of_getLsbD_eq
  intro i hi
  simp only [BitVec.getLsbD_append, BitVec.getLsbD_extractLsb']
  rcases Nat.lt_or_ge i 8 with h | h
  · simp [h]
  · have h1 : ¬ i < 8 := by omega
    have h2 : i - 8 < 8 := by omega
    have h3 : 8 + (i - 8) = i := by omega
    simp [h1, h2, h3]

/-- A whole window program (R124) at a sink under the premises of R71. -/
theorem Sink.takeCycles_window (k : Sink) (xs ys xe ye : U16) (h : k.configured = true) :
    k.takeCycles (windowCycles xs ys xe ye) =
      { k with xs := some xs, xe := some xe, ys := some ys, ye := some ye,
               mode := .param 0x2B [ys.extractLsb' 8 8, ys.extractLsb' 0 8, ye.extractLsb' 8 8,
                                    ye.extractLsb' 0 8] } := by
  have e : windowCycles xs ys xe ye =
      [commandCycle 0x2A, byteCycle (xs.extractLsb' 8 8), byteCycle (xs.extractLsb' 0 8),
        byteCycle (xe.extractLsb' 8 8), byteCycle (xe.extractLsb' 0 8)] ++
      [commandCycle 0x2B, byteCycle (ys.extractLsb' 8 8), byteCycle (ys.extractLsb' 0 8),
        byteCycle (ye.extractLsb' 8 8), byteCycle (ye.extractLsb' 0 8)] := rfl
  rw [e, Sink.takeCycles_append, Sink.takeCycles_columns k _ _ _ _ h, Sink.takeCycles_rows]
  · simp only [coord_bytes]
  · exact h

end Sys2Proof.Machine
end

