-- ==== Sys2Proof/Laws/Sequencer.lean ====
section
/-! SUPPORT. Everything one step can do, said once (`StepTo`), and what fetching gives. -/

namespace Sys2Proof.Machine

/-- A run of one step more (the interface's `run`). -/
theorem run_next {M : Host.Core} {n : Nat} {s t : M.State} (h : M.step s = .next t) :
    M.run (n + 1) s = M.run n t := by
  simp only [Host.Core.run, h]

/-! ## Decoding gives requests and wire commands -/

/-- The request port carries requests only (R86). -/
theorem decodeHeader_isRequest {ws : List Word} {h : Header} (hd : decodeHeader ws = .ok h) :
    isRequest h.instr = true := by
  match ws, hd with
  | w :: ws, hd =>
    simp only [decodeHeader, countedHeader, plainHeader, windowHeader, regionHeader, solidHeader] at hd
    split at hd <;> (try split at hd) <;> (try split at hd) <;>
      first
        | (simp only [Except.ok.injEq] at hd; subst hd; rfl)
        | simp at hd

@[simp] theorem isRequest_withElements (i : Instr) (ws : List Word) :
    isRequest (i.withElements ws) = isRequest i := by
  cases i <;> rfl

theorem decodeRequest_isRequest {ws rest : List Word} {i : Instr}
    (hd : decodeRequest ws = .ok (i, rest)) : isRequest i = true := by
  obtain ⟨h, es, h1, _, _, rfl⟩ := decodeRequest_ok hd
  simpa using decodeHeader_isRequest h1

theorem mem_of_lookup {i : Instr} {b : Byte} :
    ∀ l : List (Byte × Instr), l.lookup b = some i → (b, i) ∈ l
  | [], h => by simp at h
  | x :: l, h => by
    simp only [List.lookup] at h
    split at h
    · rename_i hb
      simp at h hb
      subst h hb
      simp
    · exact List.mem_cons_of_mem _ (mem_of_lookup l h)

/-- What a decoded cycle is (R80, R82). -/
theorem decodeCycle_ok {c : BitVec 17} {i : Instr} (h : decodeCycle c = .ok i) :
    levelOfBit (c.getLsbD 16) = Config.dcCmdLevel ∧ (c.extractLsb' 0 8, i) ∈ wireMap := by
  simp only [decodeCycle] at h
  split at h
  · rename_i h1
    split at h
    · split at h
      · rename_i j hj
        simp at h
        subst h
        exact ⟨h1, mem_of_lookup _ hj⟩
      · simp at h
    · simp at h
  · simp at h

/-- The meaning of a wire row is what the sink does with its command (R67). -/
theorem exec_wireMap {c : Byte} {i : Instr} (h : (c, i) ∈ wireMap) (s : State) :
    exec i s = .next { s with sink := s.sink.command c } := by
  have all : ∀ e ∈ wireMap, exec e.2 s = .next { s with sink := s.sink.command e.1 } := by
    simp only [wireMap, List.forall_mem_cons]
    repeat' first
      | rfl
      | (intro e he; exact absurd he List.not_mem_nil)
      | apply And.intro
  exact all _ h

theorem cycleBits_level (l : Level) (w : U16) : levelOfBit ((cycleBits l w).getLsbD 16) = l := by
  simp only [cycleBits, BitVec.getLsbD_append]
  cases l <;> rfl

theorem cycleBits_code (l : Level) (w : U16) : (cycleBits l w).extractLsb' 0 8 = lo8 w := by
  apply BitVec.eq_of_getLsbD_eq
  intro i hi
  have h : i < 16 := by omega
  simp only [cycleBits, lo8, BitVec.getLsbD_extractLsb', BitVec.getLsbD_append]
  simp [h]

/-- A command cycle of the map acts the same as its instruction (R67, R82). -/
theorem exec_cycle {l : Level} {w : U16} {i : Instr} (h : decodeCycle (cycleBits l w) = .ok i) (s : State) :
    exec i s = .next { s with sink := s.sink.cycle (.driven l) w } := by
  obtain ⟨h1, h2⟩ := decodeCycle_ok h
  rw [cycleBits_level] at h1
  rw [cycleBits_code] at h2
  rw [exec_wireMap h2]
  simp [Sink.cycle, h1]

/-! ## Fetching -/

/-- The far end's move: the oldest item arrives at the sink (R31). -/
theorem transportMove_cons {s : State} {b : BusItem} {rest : List BusItem} (h : s.buffer = b :: rest) :
    transportMove s = .next { s with buffer := rest, pins := s.pins ++ cyclesOf [b],
                                     sink := s.sink.take b } := by
  cases b with
  | note n => simp [transportMove, fetchArriving, h, cyclesOf]
  | cycle d w =>
    simp only [transportMove, fetchArriving, h]
    cases hd : decodeBus d w with
    | error e => simp [cyclesOf]
    | ok i =>
      cases d with
      | U => simp [decodeBus] at hd
      | driven l =>
        simp only [exec_cycle (l := l) (w := w) hd]
        rfl

theorem transportMove_nil {s : State} (h : s.buffer = []) : transportMove s = .next s := by
  simp [transportMove, fetchArriving, h]

/-- What an idle sequencer can find at the operand words. -/
theorem fetchHeader_cases (s : State) :
    fetchHeader s = .wait s ∨ fetchHeader s = .wait s.skipUnread ∨
    (∃ p, fetchHeader s = .bad { s with port := p }) ∨
    (∃ i len p, isRequest i = true ∧ fetchHeader s = .header i len { s with port := p }) := by
  unfold fetchHeader
  split
  · split
    · rename_i h hd
      exact .inr (.inr (.inr ⟨_, _, _, decodeHeader_isRequest hd, rfl⟩))
    · exact .inr (.inr (.inl ⟨_, rfl⟩))
    · exact .inl rfl
  · exact .inr (.inl rfl)

/-- What an idle sequencer can find on the port. -/
theorem fetchRequest_cases (s : State) :
    fetchRequest s = .wait s ∨ fetchRequest s = .wait s.skipUnread ∨
    (∃ p, fetchRequest s = .bad { s with port := p }) ∨
    (∃ i len p, isRequest i = true ∧ fetchRequest s = .header i len { s with port := p }) ∨
    (∃ i p, isRequest i = true ∧ fetchRequest s = .whole i { s with port := p }) := by
  unfold fetchRequest
  split
  · split
    · rename_i r hr
      exact .inr (.inr (.inr (.inr ⟨_, _, decodeRequest_isRequest (i := r.1) (rest := r.2) hr, rfl⟩)))
    · rcases fetchHeader_cases s with h | h | h | h
      · exact .inl h
      · exact .inr (.inl h)
      · exact .inr (.inr (.inl h))
      · exact .inr (.inr (.inr (.inl h)))
  · exact .inr (.inl rfl)

/-! ## Everything one step can do -/

/-- The next states of a step that is not the host's, from the state `u` whose turn is used up. -/
inductive StepTo (u : State) : State → Prop where
  /-- Nothing moves, or the block waits. -/
  | stay : StepTo u u
  /-- Unread payload is discarded (R92). -/
  | skip : StepTo u u.skipUnread
  /-- A word that spells no request (R89). -/
  | bad (p : List Word) (hs : u.seq = .idle) : StepTo u (State.badRequest { u with port := p })
  /-- A request is accepted (R22). -/
  | accept (i : Instr) (len : Nat) (p : List Word) (hs : u.seq = .idle) (hi : isRequest i = true) :
      StepTo u (State.accept { u with port := p } i len)
  /-- A whole request (R11). -/
  | whole (i : Instr) (p : List Word) (hs : u.seq = .idle) (hi : isRequest i = true)
      (ha : admitted u.cfg i = true) : StepTo u (State.runPlan { u with port := p } (planOf u.cfg i))
  /-- One event (R22). -/
  | event (i : Instr) (k owed : Nat) (a : Action) (t : State) (hs : u.seq = .busy i k owed)
      (hk : (planOf u.cfg i).acts[k]? = some a) (hp : u.perform a = (t, true)) :
      StepTo u { t with seq := .busy i (k + 1) owed }
  /-- A drive that fails (R176). -/
  | eventFail (i : Instr) (k owed n : Nat) (line : Line) (l : Level) (hs : u.seq = .busy i k owed)
      (hk : (planOf u.cfg i).acts[k]? = some (.drive line l)) (ha : u.answerAt 0 = false) :
      StepTo u ((u.drive line l).1.raise .controlLineFault n)
  /-- One payload element is read (R95). -/
  | element (i : Instr) (k owed : Nat) (es p : List Word) (hs : u.seq = .busy i k owed)
      (hk : (planOf u.cfg i).acts[k]? = none) (hst : (planOf u.cfg i).streams = true)
      (he : es.length = elementWords i) :
      StepTo u { u with port := p, seq := .busy (i.withElements es) k (owed - 1) }
  /-- The request ends (R9, R22). -/
  | finish (i : Instr) (k owed n : Nat) (hs : u.seq = .busy i k owed)
      (hk : (planOf u.cfg i).acts[k]? = none) : StepTo u (u.conclude (planOf u.cfg i) n)
  /-- The oldest item of the buffer arrives (R31). -/
  | arrive (b : BusItem) (rest : List BusItem) (hb : u.buffer = b :: rest) :
      StepTo u { u with buffer := rest, pins := u.pins ++ cyclesOf [b], sink := u.sink.take b }

theorem advance_stepTo {u t : State} {i : Instr} {k owed : Nat} (hs : u.seq = .busy i k owed)
    (h : u.advance i k owed = .next t) : StepTo u t := by
  unfold State.advance at h
  dsimp only at h
  split at h
  · rename_i a hk
    split at h
    · rename_i v hv
      obtain rfl := Host.Outcome.next.inj h
      exact .event i k owed a v hs hk hv
    · rename_i v hv
      obtain rfl := Host.Outcome.next.inj h
      obtain ⟨line, l, rfl, ha⟩ := State.perform_false _ _ _ hv
      obtain rfl : (u.drive line l).1 = v := congrArg Prod.fst hv
      exact .eventFail i k owed _ line l hs hk ha
  · rename_i hk
    split at h
    · rename_i hst
      simp only [Bool.and_eq_true] at hst
      unfold State.readElement at h
      dsimp only at h
      split at h
      · obtain rfl := Host.Outcome.next.inj h
        exact .stay
      · rename_i hlen
        split at h
        · obtain rfl := Host.Outcome.next.inj h
          exact .element i k owed _ _ hs hk hst.1 (by rw [List.length_take]; omega)
        · simp at h
    · obtain rfl := Host.Outcome.next.inj h
      exact .finish i k owed _ hs hk

theorem eventMove_stepTo {u t : State} (h : eventMove u = .next t) : StepTo u t := by
  unfold eventMove at h
  split at h
  · exact advance_stepTo (by assumption) h
  · rename_i hs
    rcases fetchHeader_cases u with hf | hf | ⟨p, hf⟩ | ⟨i, len, p, hi, hf⟩ <;>
      rw [hf] at h <;> obtain rfl := Host.Outcome.next.inj h
    · exact .stay
    · exact .skip
    · exact .bad p hs
    · exact .accept i len p hs hi

theorem requestMove_stepTo {u t : State} (h : requestMove u = .next t) : StepTo u t := by
  unfold requestMove at h
  split at h
  · exact advance_stepTo (by assumption) h
  · rename_i hs
    rcases fetchRequest_cases u with hf | hf | ⟨p, hf⟩ | ⟨i, len, p, hi, hf⟩ | ⟨i, p, hi, hf⟩ <;>
      rw [hf] at h
    · obtain rfl := Host.Outcome.next.inj h
      exact .stay
    · obtain rfl := Host.Outcome.next.inj h
      exact .skip
    · obtain rfl := Host.Outcome.next.inj h
      exact .bad p hs
    · obtain rfl := Host.Outcome.next.inj h
      exact .accept i len p hs hi
    · obtain ⟨ha, rfl⟩ := exec_next i _ t hi h
      exact .whole i p hs hi ha

/-- A move of the sequencer, of the far end, or none. -/
theorem moveOf_stepTo {u t : State} {m : Turn} (hm : m ≠ .host) (h : moveOf m u = .next t) : StepTo u t := by
  cases m with
  | host => exact absurd rfl hm
  | request => exact requestMove_stepTo h
  | event => exact eventMove_stepTo h
  | transport =>
    rw [moveOf] at h
    cases hb : u.buffer with
    | nil =>
      rw [transportMove_nil hb] at h
      obtain rfl := Host.Outcome.next.inj h
      exact .stay
    | cons b rest =>
      rw [transportMove_cons hb] at h
      obtain rfl := Host.Outcome.next.inj h
      exact .arrive b rest hb
  | stall =>
    obtain rfl := Host.Outcome.next.inj h
    exact .stay
  | hang =>
    rw [moveOf] at h
    split at h
    · simp at h
    · obtain rfl := Host.Outcome.next.inj h
      exact .stay

/-- Everything a step can do: the host's move on its turn (R7, R186), or one of the others. -/
theorem step_cases {s t : State} (h : step s = .next t) :
    (s.turn = .host ∧ t = s.useTurn.hostMove) ∨ StepTo s.useTurn t := by
  unfold step at h
  split at h
  · cases ht : s.turn with
    | host =>
      rw [ht] at h
      exact .inl ⟨rfl, (Host.Outcome.next.inj h).symm⟩
    | _ =>
      rw [ht] at h
      exact .inr (moveOf_stepTo (by simp) h)
  · simp at h

end Sys2Proof.Machine
end

