-- ==== Sys2Proof/Laws/Legal.lean ====
section
/-! SUPPORT. What every plan's event list is like: which lines it drives, which delays it holds and where,
which cycles it makes, and how it grows with the payload. -/

namespace Sys2Proof.Machine

/-! ## The frame memory's form through an event list -/

theorem State.perform_canonical (s : State) (a) (h : s.sink.Canonical) : (s.perform a).1.sink.Canonical := by
  cases a with
  | drive line l =>
    simp only [State.perform, State.drive]
    cases line <;> split <;> simp <;> first | exact h | exact Sink.canonical_takeAll _ h
  | write w => exact h
  | delay ms => exact Sink.canonical_takeAll _ h

theorem State.performAll_canonical (as) (s : State)  (h : s.sink.Canonical) : (s.performAll as).1.sink.Canonical := by
  induction as generalizing s with
  | nil => exact h
  | cons a as ih =>
    have := State.perform_canonical s a h
    simp only [State.performAll]
    rcases hp : s.perform a with ⟨t, _ | _⟩ <;> rw [hp] at this
    · exact this
    · exact ih t this

/-! ## Lines and delays -/

/-- What an entry of an event list may be (R27, R143, R181). -/
def actLegal (c : Config) : Action → Bool
  | .drive line l => linePresent c line && !(line == .bl && l == .low)
  | .write _ => true
  | .delay ms => ms == 10 || ms == 60

theorem busOnly_actLegal (c) (as) (h : busOnly as = true) : ∀ a ∈ as, actLegal c a = true := by
  induction as with
  | nil => simp
  | cons a as ih =>
    intro b hb
    cases a with
    | drive line l =>
      cases line <;> simp [busOnly] at h
      rcases List.mem_cons.1 hb with rfl | hb
      · rfl
      · exact ih h b hb
    | write w =>
      rcases List.mem_cons.1 hb with rfl | hb
      · rfl
      · exact ih (by simpa [busOnly] using h) b hb
    | delay ms => simp [busOnly] at h

theorem hardResetActs_actLegal (c) : ∀ a ∈ hardResetActs c, actLegal c a = true := by
  intro a ha
  unfold hardResetActs at ha
  split at ha
  · rename_i h
    simp [resetStepActs] at ha
    rcases ha with rfl | rfl | rfl | rfl | rfl | rfl <;> simp [actLegal, linePresent, h, Config.tRstMs]
  · simp at ha

theorem planOf_busOnly (c : Config) (i : Instr) (h1 : i ≠ .hardReset) (h2 : i ≠ .init) : busOnly (planOf c i).acts = true := by
  cases i <;> simp only [planOf, sendCommandPlan, sendDataPlan, writeCommandPlan, writeDataPlan, writeDataWordsPlan, writePixelsPlan, setAddressWindowPlan, clearPlan, sizePlan, drawPixelsPlan, fillRegionPlan, fillSolidPlan, sendCommandActs_busOnly, sendDataActs_busOnly, writeCommandActs_busOnly, writeDataActs_busOnly, writePixelsActs_busOnly, windowActs_busOnly, clearActs, paintActs_busOnly]
  case writeDataWords => exact sendDataActs_busOnly _
  case hardReset => exact absurd rfl h1
  case init => exact absurd rfl h2
  case drawPixels ps =>
    induction ps with
    | nil => rfl
    | cons p ps ih =>
      simp only [List.flatMap_cons, busOnly_append, ih (by simp) (by simp), Bool.and_true]
      unfold tripleActs
      split
      · exact paintActs_busOnly _ _ _ _ _
      · split <;> first | exact paintActs_busOnly _ _ _ _ _ | rfl
  case fillRegion r cs =>
    split
    · rfl
    · split
      · exact paintActs_busOnly _ _ _ _ _
      · rfl
  case fillSolid r cs =>
    split
    · rfl
    · exact paintActs_busOnly _ _ _ _ _
  all_goals rfl

theorem planOf_actLegal (c : Config) (i : Instr) : ∀ a ∈ (planOf c i).acts, actLegal c a = true := by
  by_cases h1 : i = .hardReset
  · subst h1; exact hardResetActs_actLegal c
  by_cases h2 : i = .init
  · subst h2
    intro a ha
    simp only [planOf, initPlan, initActs, List.mem_append] at ha
    rcases ha with ((ha | ha) | ha) | ha
    · exact hardResetActs_actLegal c a ha
    · unfold backlightActs at ha
      split at ha
      · rename_i h; simp at ha; subst ha; simp [actLegal, linePresent, h]
      · simp at ha
    · exact busOnly_actLegal c _ (tableActs_busOnly _) a ha
    · simp [initTailActs, writeCommandActs, sendCommandActs] at ha
      rcases ha with rfl | rfl | rfl | rfl | rfl <;> rfl
  exact busOnly_actLegal c _ (planOf_busOnly c i h1 h2)

theorem eventLegal_of_actLegal (c) (a) (h : actLegal c a = true) : eventLegal c (eventOf a) = true := by
  cases a <;> first | rfl | simpa [actLegal, eventLegal] using h


/-! ## Cycles and the places of delays -/

/-- Every cycle the list makes is legal, whatever the level of `DC` before it. -/
def CyclesOk (as : List Action) : Prop := ∀ d, ∀ x ∈ wireFrom d (as.map eventOf), cycleLegal x = true

theorem CyclesOk.nil : CyclesOk [] := fun _ x hx => by simp [wireFrom] at hx

theorem CyclesOk.append {as bs : List Action} (h : CyclesOk as) (k : CyclesOk bs) : CyclesOk (as ++ bs) := by
  intro d x hx
  rw [List.map_append, wireFrom_append] at hx
  rcases List.mem_append.1 hx with hx | hx
  · exact h d x hx
  · exact k _ x hx

theorem CyclesOk.take {as : List Action} (h : CyclesOk as) (k : Nat) : CyclesOk (as.take k) := by
  intro d x hx
  apply h d x
  rw [← List.take_append_drop k as, List.map_append, wireFrom_append]
  exact List.mem_append_left _ hx

theorem CyclesOk.flatMap {α : Type} (f : α → List Action) (h : ∀ a, CyclesOk (f a)) (xs : List α) :
    CyclesOk (xs.flatMap f) := by
  induction xs with
  | nil => exact CyclesOk.nil
  | cons x xs ih => exact (h x).append ih

theorem cycleLegal_command (b : Byte) : cycleLegal (.driven .low, zext16 b) = true := by
  simp only [cycleLegal, beq_iff_eq]
  apply BitVec.eq_of_toNat_eq
  have := b.isLt
  simp [zext16, Nat.shiftRight_eq_div_pow]
  omega

theorem CyclesOk.sendCommand (bytes : List Byte) : CyclesOk (sendCommandActs bytes) := by
  intro d x hx
  have e : (sendCommandActs bytes).map eventOf = .drive .dc .low :: (bytes.map zext16).map .write := by
    simp [sendCommandActs, Config.dcCmdLevel, List.map_map, Function.comp_def]
  rw [e, wireFrom, if_pos rfl, wireFrom_writes] at hx
  simp only [List.map_map, List.mem_map, Function.comp_apply] at hx
  obtain ⟨b, _, rfl⟩ := hx
  exact cycleLegal_command b

theorem CyclesOk.sendData (p : Payload) : CyclesOk (sendDataActs p) := by
  intro d x hx
  rw [sendDataActs_events, wireFrom, if_pos rfl, wireFrom_writes] at hx
  simp only [List.mem_map] at hx
  obtain ⟨b, _, rfl⟩ := hx
  rfl

theorem CyclesOk.window (xs ys xe ye : U16) : CyclesOk (windowActs xs ys xe ye) := by
  unfold windowActs
  exact ((((CyclesOk.sendCommand _).append ((CyclesOk.sendData _).append (CyclesOk.sendData _))).append
    ((CyclesOk.sendData _).append (CyclesOk.sendData _))).append
    (((CyclesOk.sendCommand _).append ((CyclesOk.sendData _).append (CyclesOk.sendData _))).append
    ((CyclesOk.sendData _).append (CyclesOk.sendData _))))

theorem CyclesOk.paint (xs ys xe ye : U16) (cs : List Colour) : CyclesOk (paintActs xs ys xe ye cs) :=
  ((CyclesOk.window xs ys xe ye).append (CyclesOk.sendCommand _)).append (CyclesOk.sendData _)

/-- The cycles of every plan are legal (R10, R54, R80). -/
theorem planOf_cyclesOk (c : Config) (i : Instr) : CyclesOk (planOf c i).acts := by
  have hr : CyclesOk (hardResetActs c) := by
    intro d x hx
    rw [hardResetActs_events] at hx
    split at hx <;> simp [resetEvents, wireFrom] at hx
  cases i with
  | sendCommand bytes => exact CyclesOk.sendCommand bytes
  | sendData p => exact CyclesOk.sendData p
  | writeCommand c => exact CyclesOk.sendCommand _
  | writeData b => exact CyclesOk.sendData _
  | writeDataWords ws => exact CyclesOk.sendData _
  | writePixels cs => exact CyclesOk.sendData _
  | setAddressWindow xs ys xe ye => exact CyclesOk.window _ _ _ _
  | hardReset => exact hr
  | init =>
    refine ((hr.append ?_).append ?_).append ?_
    · intro d x hx
      unfold backlightActs at hx
      split at hx <;> simp [wireFrom] at hx
    · exact CyclesOk.flatMap _ (fun e => (CyclesOk.sendCommand _).append
        (CyclesOk.flatMap _ (fun b => CyclesOk.sendData _) _)) _
    · refine ((CyclesOk.sendCommand _).append ?_).append (CyclesOk.sendCommand _)
      intro d x hx
      simp [wireFrom] at hx
  | clear colour => exact CyclesOk.paint _ _ _ _ _
  | size => exact CyclesOk.nil
  | drawPixels ps =>
    refine CyclesOk.flatMap _ (fun p => ?_) ps
    unfold tripleActs
    split
    · exact CyclesOk.paint _ _ _ _ _
    · split <;> first | exact CyclesOk.paint _ _ _ _ _ | exact CyclesOk.nil
  | fillRegion r cs =>
    simp only [planOf, fillRegionPlan]
    split
    · exact CyclesOk.nil
    · split
      · exact CyclesOk.paint _ _ _ _ _
      · exact CyclesOk.nil
  | fillSolid r colour =>
    simp only [planOf, fillSolidPlan]
    split
    · exact CyclesOk.nil
    · exact CyclesOk.paint _ _ _ _ _
  | _ => exact CyclesOk.nil

/-- Two lists whose delays stand right make one (R140, R141). -/
theorem delaysPlaced_append (prev : Option Event) (es fs : List Event) (h : delaysPlaced prev es = true)
    (k : delaysPlaced none fs = true) : delaysPlaced prev (es ++ fs) = true := by
  have weaken : ∀ (p : Option Event) (gs : List Event), delaysPlaced none gs = true →
      delaysPlaced p gs = true := by
    intro p gs hg
    cases gs with
    | nil => rfl
    | cons e gs =>
      simp only [delaysPlaced, Bool.and_eq_true] at hg ⊢
      refine ⟨?_, hg.2⟩
      cases e <;> simp [delayPlaced] at hg ⊢
  induction es generalizing prev with
  | nil => exact weaken prev fs k
  | cons e es ih =>
    simp only [List.cons_append, delaysPlaced, Bool.and_eq_true] at h ⊢
    exact ⟨h.1, ih _ h.2⟩

theorem delaysPlaced_take (prev : Option Event) (es : List Event) (k : Nat)
    (h : delaysPlaced prev es = true) : delaysPlaced prev (es.take k) = true := by
  induction es generalizing prev k with
  | nil => simpa using h
  | cons e es ih =>
    cases k with
    | zero => rfl
    | succ k =>
      simp only [List.take_succ_cons, delaysPlaced, Bool.and_eq_true] at h ⊢
      exact ⟨h.1, ih _ _ h.2⟩

/-- A list that only uses the bus holds no delay. -/
theorem delaysPlaced_busOnly (prev : Option Event) (as : List Action) (h : busOnly as = true) :
    delaysPlaced prev (as.map eventOf) = true := by
  induction as generalizing prev with
  | nil => rfl
  | cons a as ih =>
    cases a with
    | drive line l =>
      cases line <;> simp [busOnly] at h
      simp [delaysPlaced, delayPlaced, ih _ h]
    | write w =>
      simp [busOnly] at h
      simp [delaysPlaced, delayPlaced, ih _ h]
    | delay ms => simp [busOnly] at h

/-- The delays of every plan stand where the rules put them (R140, R141). -/
theorem planOf_delaysPlaced (c : Config) (i : Instr) :
    delaysPlaced none ((planOf c i).acts.map eventOf) = true := by
  have hr : delaysPlaced none ((hardResetActs c).map eventOf) = true := by
    unfold hardResetActs
    split <;> rfl
  by_cases h1 : i = .hardReset
  · subst h1
    exact hr
  by_cases h2 : i = .init
  · subst h2
    simp only [planOf, initPlan, initActs, List.map_append]
    refine delaysPlaced_append _ _ _ (delaysPlaced_append _ _ _ (delaysPlaced_append _ _ _ hr ?_) ?_) rfl
    · unfold backlightActs
      split <;> rfl
    · exact delaysPlaced_busOnly _ _ (tableActs_busOnly _)
  exact delaysPlaced_busOnly _ _ (planOf_busOnly c i h1 h2)

/-! ## Payload elements (R95) -/

/-- A request that streams: its plan with more elements is the same plan with more events. -/
theorem planOf_withElements_streams (c : Config) (i : Instr) (es : List Word) (n : Nat)
    (hs : (planOf c i).streams = true) (he : es.length = elementWords i * n) :
    ∃ more, planOf c (i.withElements es) = { planOf c i with acts := (planOf c i).acts ++ more } := by
  cases i with
  | sendCommand bs =>
    exact ⟨(es.map lowByte).map fun b => .write (zext16 b), by
      simp [planOf, Instr.withElements, sendCommandPlan, sendCommandActs]⟩
  | sendData p =>
    cases p with
    | u8 bs =>
      exact ⟨((es.map lowByte).map zext16).map .write, by
        simp [planOf, Instr.withElements, Payload.withElements, sendDataPlan, sendDataActs, payloadWords,
          supportedFormat]⟩
    | u16le ws =>
      exact ⟨(es.map lowHalf).map .write, by
        simp [planOf, Instr.withElements, Payload.withElements, sendDataPlan, sendDataActs, payloadWords,
          supportedFormat]⟩
    | u16leIter ws =>
      exact ⟨(es.map lowHalf).map .write, by
        simp [planOf, Instr.withElements, Payload.withElements, sendDataPlan, sendDataActs, payloadWords,
          supportedFormat]⟩
    | other code raw => simp [planOf, sendDataPlan, supportedFormat] at hs
  | writeDataWords ws =>
    exact ⟨(es.map lowHalf).map .write, by
      simp [planOf, Instr.withElements, writeDataWordsPlan, writeDataWordsActs, sendDataActs, payloadWords]⟩
  | writePixels cs =>
    exact ⟨((es.map lowHalf).map wireColour).map .write, by
      simp [planOf, Instr.withElements, writePixelsPlan, writePixelsActs, sendDataActs, payloadWords]⟩
  | drawPixels ps =>
    exact ⟨(pixelsOfWords es).flatMap (tripleActs c), by
      simp [planOf, Instr.withElements, drawPixelsPlan]⟩
  | fillRegion r cs =>
    simp only [planOf, Instr.withElements, fillRegionPlan] at hs ⊢
    split at hs
    · simp at hs
    · split at hs
      · rename_i hin
        exact ⟨((es.map lowHalf).map wireColour).map .write, by
          simp [hin, regionActs, paintActs, writePixelsActs, sendDataActs, payloadWords]⟩
      · simp at hs
  | writeCommand _ => simp [planOf, writeCommandPlan] at hs
  | writeData _ => simp [planOf, writeDataPlan] at hs
  | setAddressWindow _ _ _ _ => simp [planOf, setAddressWindowPlan] at hs
  | hardReset => simp [planOf, hardResetPlan] at hs
  | init => simp [planOf, initPlan] at hs
  | clear _ => simp [planOf, clearPlan] at hs
  | size => simp [planOf, sizePlan] at hs
  | fillSolid r _ =>
    simp only [planOf, fillSolidPlan] at hs
    split at hs <;> simp at hs
  | _ => simp [planOf] at hs

/-- A request that does not use its payload: more elements change nothing. -/
theorem planOf_withElements_still (c : Config) (i : Instr) (es : List Word)
    (hs : (planOf c i).streams = false) : planOf c (i.withElements es) = planOf c i := by
  cases i with
  | sendCommand bs => simp [planOf, sendCommandPlan] at hs
  | sendData p =>
    cases p with
    | other code raw => rfl
    | _ => simp [planOf, sendDataPlan, supportedFormat] at hs
  | writeDataWords ws => simp [planOf, writeDataWordsPlan] at hs
  | writePixels cs => simp [planOf, writePixelsPlan] at hs
  | drawPixels ps => simp [planOf, drawPixelsPlan] at hs
  | fillRegion r cs =>
    simp only [planOf, Instr.withElements, fillRegionPlan] at hs ⊢
    split at hs
    · rfl
    · split at hs
      · simp at hs
      · rename_i hin
        simp [hin]
  | _ => rfl

/-- What is admitted with more elements is admitted without them (R152). -/
theorem admitted_of_withElements (c : Config) (i : Instr) (es : List Word)
    (h : admitted c (i.withElements es) = true) : admitted c i = true := by
  cases i with
  | drawPixels ps =>
    simp only [Instr.withElements, admitted] at h ⊢
    split
    · rename_i hp
      rw [if_pos hp, List.all_append, Bool.and_eq_true] at h
      exact h.1
    · rfl
  | _ => rfl

end Sys2Proof.Machine
end

