-- ==== Sys2Proof/Laws/PerInstr.lean ====
section
/-! SUPPORT. Per instruction: the row of the opcode table its encoding matches (R82, R86). -/

namespace Sys2Proof.Laws.OpcodeField

open Sys2Proof Sys2Proof.Machine

/-- The `match` of the instruction's row of `spec/opcode_table.json`. -/
def rowMatch : Instr → Nat
  | .sendCommand _ => 0x01
  | .sendData _ => 0x02
  | .writeCommand _ => 0x03
  | .writeData _ => 0x04
  | .writeDataWords _ => 0x05
  | .writePixels _ => 0x06
  | .setAddressWindow _ _ _ _ => 0x07
  | .hardReset => 0x08
  | .init => 0x09
  | .clear _ => 0x0A
  | .size => 0x0B
  | .drawPixels _ => 0x0C
  | .fillRegion _ _ => 0x0D
  | .fillSolid _ _ => 0x0E
  | .wireColumnAddressSet => 0x2A
  | .wireRowAddressSet => 0x2B
  | .wireMemoryWrite => 0x2C
  | .wireSleepOut => 0x11
  | .wireDisplayOn => 0x29
  | .wireMemoryAccessControl => 0x36
  | .wirePixelFormatSet => 0x3A
  | .wireVendorF7 => 0xF7
  | .wireVendorC0 => 0xC0
  | .wireVendorC1 => 0xC1
  | .wireVendorC5 => 0xC5
  | .wireVendorB1 => 0xB1
  | .wireVendorB4 => 0xB4
  | .wireVendorB6 => 0xB6
  | .wireVendorB7 => 0xB7
  | .wireVendorBE => 0xBE
  | .wireVendorE9 => 0xE9
  | .wireVendorE0 => 0xE0
  | .wireVendorE1 => 0xE1

/-- The encoding of an instruction matches its row under the row's mask: 0x000000FF over `W0` for a
request (R86), all 17 bits for a command cycle (R82); and a request is one exactly when it is encoded
as words. -/
def Statement (i : Instr) : Prop :=
  match encode i with
  | .request ws => isRequest i = true ∧ ∃ w rest, ws = w :: rest ∧ w.toNat % 256 = rowMatch i
  | .cycle b => isRequest i = false ∧ b.toNat = rowMatch i

/-- The low byte of `W0`. -/
theorem low_byte_w0 (imm : U16) (fmt op : Byte) : (w0 imm fmt op).toNat % 256 = op.toNat := by
  have h : ((w0 imm fmt op).extractLsb' 0 8).toNat = op.toNat := by
    congr 1
    apply BitVec.eq_of_getLsbD_eq
    intro i hi
    simp only [w0, BitVec.getLsbD_extractLsb', BitVec.getLsbD_append]
    simp [hi]
  simpa using h

theorem sendCommand (bytes : List Byte) : Statement (.sendCommand bytes) :=
  ⟨rfl, _, _, rfl, low_byte_w0 _ _ _⟩

theorem sendData (payload : Payload) : Statement (.sendData payload) :=
  ⟨rfl, _, _, rfl, low_byte_w0 _ _ _⟩

theorem writeCommand (cmd : Byte) : Statement (.writeCommand cmd) :=
  ⟨rfl, _, _, rfl, low_byte_w0 _ _ _⟩

theorem writeData (byte : Byte) : Statement (.writeData byte) :=
  ⟨rfl, _, _, rfl, low_byte_w0 _ _ _⟩

theorem writeDataWords (words : List U16) : Statement (.writeDataWords words) :=
  ⟨rfl, _, _, rfl, low_byte_w0 _ _ _⟩

theorem writePixels (colours : List Colour) : Statement (.writePixels colours) :=
  ⟨rfl, _, _, rfl, low_byte_w0 _ _ _⟩

theorem setAddressWindow (xs ys xe ye : U16) : Statement (.setAddressWindow xs ys xe ye) :=
  ⟨rfl, _, _, rfl, low_byte_w0 _ _ _⟩

theorem hardReset : Statement .hardReset :=
  ⟨rfl, _, _, rfl, low_byte_w0 _ _ _⟩

theorem init : Statement .init :=
  ⟨rfl, _, _, rfl, low_byte_w0 _ _ _⟩

theorem clear (colour : Colour) : Statement (.clear colour) :=
  ⟨rfl, _, _, rfl, low_byte_w0 _ _ _⟩

theorem size : Statement .size :=
  ⟨rfl, _, _, rfl, low_byte_w0 _ _ _⟩

theorem drawPixels (pixels : List Pixel) : Statement (.drawPixels pixels) :=
  ⟨rfl, _, _, rfl, low_byte_w0 _ _ _⟩

theorem fillRegion (rect : Rect) (colours : List Colour) : Statement (.fillRegion rect colours) :=
  ⟨rfl, _, _, rfl, low_byte_w0 _ _ _⟩

theorem fillSolid (rect : Rect) (colour : Colour) : Statement (.fillSolid rect colour) :=
  ⟨rfl, _, _, rfl, low_byte_w0 _ _ _⟩

theorem wireColumnAddressSet : Statement .wireColumnAddressSet := ⟨rfl, rfl⟩

theorem wireRowAddressSet : Statement .wireRowAddressSet := ⟨rfl, rfl⟩

theorem wireMemoryWrite : Statement .wireMemoryWrite := ⟨rfl, rfl⟩

theorem wireSleepOut : Statement .wireSleepOut := ⟨rfl, rfl⟩

theorem wireDisplayOn : Statement .wireDisplayOn := ⟨rfl, rfl⟩

theorem wireMemoryAccessControl : Statement .wireMemoryAccessControl := ⟨rfl, rfl⟩

theorem wirePixelFormatSet : Statement .wirePixelFormatSet := ⟨rfl, rfl⟩

theorem wireVendorF7 : Statement .wireVendorF7 := ⟨rfl, rfl⟩

theorem wireVendorC0 : Statement .wireVendorC0 := ⟨rfl, rfl⟩

theorem wireVendorC1 : Statement .wireVendorC1 := ⟨rfl, rfl⟩

theorem wireVendorC5 : Statement .wireVendorC5 := ⟨rfl, rfl⟩

theorem wireVendorB1 : Statement .wireVendorB1 := ⟨rfl, rfl⟩

theorem wireVendorB4 : Statement .wireVendorB4 := ⟨rfl, rfl⟩

theorem wireVendorB6 : Statement .wireVendorB6 := ⟨rfl, rfl⟩

theorem wireVendorB7 : Statement .wireVendorB7 := ⟨rfl, rfl⟩

theorem wireVendorBE : Statement .wireVendorBE := ⟨rfl, rfl⟩

theorem wireVendorE9 : Statement .wireVendorE9 := ⟨rfl, rfl⟩

theorem wireVendorE0 : Statement .wireVendorE0 := ⟨rfl, rfl⟩

theorem wireVendorE1 : Statement .wireVendorE1 := ⟨rfl, rfl⟩

end Sys2Proof.Laws.OpcodeField
end

