-- ==== Sys2Proof/Tests/Slice0.lean ====
section
/-! SUPPORT. The model's own tests: ill-formed terms, decoding of words written out from the spec's
encodings, single requests and single steps against `95_test_vectors.md`, and a witness for the
hypotheses of every statement. -/

namespace Sys2Proof.Tests

open Sys2Proof Sys2Proof.Machine

/-! ## Helpers -/

/-- The small panel of `95_test_vectors.md`: 4 x 3, with table `T1`. -/
def small (hasRst hasBl : Bool) (table : List TableEntry) : Config :=
  { width := 4, height := 3, hasRst := hasRst, hasBl := hasBl, initTable := table, pixelOob := .refuse }

/-- The table `T1` of `95_test_vectors.md`. -/
def t1 : List TableEntry := [(0x3A, [0x55])]

/-- 480 x 320 without optional lines. -/
def wide : Config :=
  { width := 480, height := 320, hasRst := false, hasBl := false, initTable := t1, pixelOob := .refuse }

/-- A state after construction with chosen answers and turns. -/
def panel (c : Config) (answers : List Bool) (turns : List Turn) : State :=
  { State.construct c with lineAnswers := answers, schedule := turns }

/-- Enough answers for the longest test. -/
def yes : List Bool := List.replicate 24 true

/-- The small panel with both lines, every drive answered. -/
def demo : State := panel (small true true t1) yes []

/-- 480 x 320, every drive answered. -/
def big : State := panel wide yes []

/-- The state of a next outcome. -/
def stateOf (o : Host.Outcome State Fault Refusal) : Option State :=
  match o with
  | .next s => some s
  | .fault _ => none
  | .refused _ => none

/-- The refusal of an outcome. -/
def refusalOf (o : Host.Outcome State Fault Refusal) : Option Refusal :=
  match o with
  | .next _ => none
  | .fault _ => none
  | .refused r => some r

/-- Trace, `dc` and status after a request. -/
def after (i : Instr) (s : State) : Option (List Event × Latch × Status) :=
  (stateOf (exec i s)).map fun t => (t.tr, t.dc, t.result.status)

/-- The wire view after a request. -/
def wireAfter (i : Instr) (s : State) : Option (List (Latch × U16)) :=
  (stateOf (exec i s)).map fun t => wire t.tr

/-- `Drive(DC,0)`, `Drive(DC,1)` and `Write(v)` as `95_test_vectors.md` abbreviates them. -/
abbrev D0 : Event := .drive .dc .low
abbrev D1 : Event := .drive .dc .high
abbrev W (v : U16) : Event := .write v

/-- A cycle `(0, w)` and a cycle `(1, w)`. -/
abbrev C (w : U16) : Latch × U16 := (.driven .low, w)
abbrev V (w : U16) : Latch × U16 := (.driven .high, w)

/-! ## Ill-formed terms -/

theorem test_wf_send_command_length (bs : List Byte) (h : 4294967296 ≤ bs.length) :
    (Instr.sendCommand bs).wellFormed = false := by
  simp [Instr.wellFormed, fitsU32]; omega

theorem test_wf_send_data_length (ws : List U16) (h : 4294967296 ≤ ws.length) :
    (Instr.sendData (.u16le ws)).wellFormed = false ∧
    (Instr.sendData (.u16leIter ws)).wellFormed = false ∧
    (Instr.sendData (.u8 (ws.map lo8))).wellFormed = false := by
  simp [Instr.wellFormed, Payload.wellFormed, fitsU32]; omega

theorem test_wf_other_length (ws : List Word) (h : 4294967296 ≤ ws.length) :
    (Instr.sendData (.other 3 ws)).wellFormed = false := by
  simp [Instr.wellFormed, Payload.wellFormed, fitsU32]; omega

theorem test_wf_other_code :
    (Instr.sendData (.other 2 [])).wellFormed = false ∧ (Instr.sendData (.other 3 [])).wellFormed = true := by
  decide

theorem test_wf_lists_length (ws : List U16) (h : 4294967296 ≤ ws.length) :
    (Instr.writeDataWords ws).wellFormed = false ∧ (Instr.writePixels ws).wellFormed = false ∧
    (Instr.fillRegion { x := 0, y := 0, w := 1, h := 1 } ws).wellFormed = false := by
  simp [Instr.wellFormed, fitsU32]; omega

theorem test_wf_draw_pixels_length (ps : List Pixel) (h : 4294967296 ≤ ps.length) :
    (Instr.drawPixels ps).wellFormed = false := by
  simp [Instr.wellFormed, fitsU32]; omega

theorem test_wf_pixel_range :
    (Instr.drawPixels [{ x := 2147483648, y := 0, colour := 0 }]).wellFormed = false ∧
    (Instr.drawPixels [{ x := 0, y := -2147483649, colour := 0 }]).wellFormed = false ∧
    (Instr.drawPixels [{ x := 2147483647, y := -2147483648, colour := 0 }]).wellFormed = true := by
  decide

theorem test_wf_rect_range :
    (Instr.fillSolid { x := -2147483649, y := 0, w := 1, h := 1 } 0).wellFormed = false ∧
    (Instr.fillSolid { x := 0, y := 2147483648, w := 1, h := 1 } 0).wellFormed = false ∧
    (Instr.fillSolid { x := 0, y := 0, w := 4294967296, h := 1 } 0).wellFormed = false ∧
    (Instr.fillRegion { x := 0, y := 0, w := 1, h := 4294967296 } []).wellFormed = false := by
  decide

/-! ## Decoding: words of `95_test_vectors.md` and of the tables of R82 and R86 -/

theorem test_decode_send_command :
    decodeRequest [0x00000001, 0x00000001, 0x0000002A] = .ok (.sendCommand [0x2A], []) := by decide

theorem test_decode_send_data :
    decodeRequest [0x00000002, 0x00000002, 0x00000001, 0x000000D6] = .ok (.sendData (.u8 [0x01, 0xD6]), []) ∧
    decodeRequest [0x00000102, 0x00000002, 0x0000F800, 0x000007E0] =
      .ok (.sendData (.u16le [0xF800, 0x07E0]), []) ∧
    decodeRequest [0x00000202, 0x00000002, 0x0000F800, 0x000007E0] =
      .ok (.sendData (.u16leIter [0xF800, 0x07E0]), []) := by decide

theorem test_decode_send_data_other :
    decodeRequest [0x00000302, 0x00000001, 0x000000AA, 0x0000000B] =
      .ok (.sendData (.other 0x03 [0xAA]), [0x0000000B]) ∧
    decodeRequest [0x0000FF02, 0x00000002, 0x00000011, 0x00000022] =
      .ok (.sendData (.other 0xFF [0x11, 0x22]), []) := by decide

theorem test_decode_write_command :
    decodeRequest [0x002C0003] = .ok (.writeCommand 0x2C, []) ∧
    decodeRequest [0xFFFF0003] = .ok (.writeCommand 0xFF, []) := by decide

theorem test_decode_write_data : decodeRequest [0x00D60004] = .ok (.writeData 0xD6, []) := by decide

theorem test_decode_write_data_words :
    decodeRequest [0x00000005, 0x00000002, 0x00001234, 0x0000ABCD] = .ok (.writeDataWords [0x1234, 0xABCD], []) := by
  decide

theorem test_decode_write_pixels :
    decodeRequest [0x00000006, 0x00000002, 0x0000F800, 0x0000F800] = .ok (.writePixels [0xF800, 0xF800], []) := by
  decide

theorem test_decode_set_address_window :
    decodeRequest [0x00000007, 0x000001D6, 0x000901DF] = .ok (.setAddressWindow 470 0 479 9, []) ∧
    decodeRequest [0x00000007, 0xABCD1234, 0x0100FFFF] =
      .ok (.setAddressWindow 0x1234 0xABCD 0xFFFF 0x0100, []) := by decide

theorem test_decode_hard_reset :
    decodeRequest [0x00000008] = .ok (.hardReset, []) ∧ decodeRequest [0xABCD1208] = .ok (.hardReset, []) := by
  decide

theorem test_decode_init : decodeRequest [0x00000009] = .ok (.init, []) := by decide

theorem test_decode_clear : decodeRequest [0x07E0000A] = .ok (.clear 0x07E0, []) := by decide

theorem test_decode_size : decodeRequest [0x0000FF0B] = .ok (.size, []) := by decide

theorem test_decode_draw_pixels :
    decodeRequest [0x0000000C, 0x00000002, 0x00000000, 0x00000000, 0x0000FFFF, 0x00000003, 0x00000002, 0x0000001F] =
      .ok (.drawPixels [{ x := 0, y := 0, colour := 0xFFFF }, { x := 3, y := 2, colour := 0x001F }], []) := by
  decide

theorem test_decode_fill_region :
    decodeRequest [0x0000000D, 0x0000000A, 0x00000014, 0x00000002, 0x00000002, 0x00000004, 0x00000001,
        0x00000002, 0x00000003, 0x00000004] =
      .ok (.fillRegion { x := 10, y := 20, w := 2, h := 2 } [1, 2, 3, 4], []) := by decide

theorem test_decode_fill_solid :
    decodeRequest [0xF800000E, 0x000001D6, 0x00000000, 0x00000014, 0x0000000A] =
      .ok (.fillSolid { x := 470, y := 0, w := 20, h := 10 } 0xF800, []) ∧
    decodeRequest [0x0000000E, 0xFFFFFFFB, 0xFFFFFFFB, 0x0000000A, 0x0000000A] =
      .ok (.fillSolid { x := -5, y := -5, w := 10, h := 10 } 0x0000, []) := by decide

theorem test_decode_bad :
    decodeRequest [0x00000000, 0x0000000B] = .error (.badOp 0x00) ∧
    decodeRequest [0x0000000F] = .error (.badOp 0x0F) ∧ decodeRequest [0xFFFFFFFF] = .error (.badOp 0xFF) := by
  decide

theorem test_decode_cut_short :
    decodeRequest [0x00000007, 0x000001D6] = .error .cutShort ∧
    decodeRequest [0x00000001, 0x00000002, 0x0000002A] = .error .cutShort ∧ decodeRequest [] = .error .noWord := by
  decide

theorem test_decode_wire_window :
    decodeTableWord 24 0x0002A = some .wireColumnAddressSet ∧
    decodeTableWord 24 0x0002B = some .wireRowAddressSet ∧ decodeTableWord 24 0x0002C = some .wireMemoryWrite := by
  decide

theorem test_decode_wire_named :
    decodeTableWord 24 0x00011 = some .wireSleepOut ∧ decodeTableWord 24 0x00029 = some .wireDisplayOn ∧
    decodeTableWord 24 0x00036 = some .wireMemoryAccessControl ∧
    decodeTableWord 24 0x0003A = some .wirePixelFormatSet := by decide

theorem test_decode_wire_vendor :
    decodeTableWord 24 0x000F7 = some .wireVendorF7 ∧ decodeTableWord 24 0x000C0 = some .wireVendorC0 ∧
    decodeTableWord 24 0x000C1 = some .wireVendorC1 ∧ decodeTableWord 24 0x000C5 = some .wireVendorC5 ∧
    decodeTableWord 24 0x000B1 = some .wireVendorB1 ∧ decodeTableWord 24 0x000B4 = some .wireVendorB4 ∧
    decodeTableWord 24 0x000B6 = some .wireVendorB6 ∧ decodeTableWord 24 0x000B7 = some .wireVendorB7 ∧
    decodeTableWord 24 0x000BE = some .wireVendorBE ∧ decodeTableWord 24 0x000E9 = some .wireVendorE9 ∧
    decodeTableWord 24 0x000E0 = some .wireVendorE0 ∧ decodeTableWord 24 0x000E1 = some .wireVendorE1 := by
  decide

/-- Bit 16 set is a data cycle, a one on lines [15:8] matches no row, 0x21 is not in the map. -/
theorem test_decode_wire_rejects :
    decodeCycle 0x1002A = .error .dataCycle ∧ decodeCycle 0x0012A = .error .upperLinesSet ∧
    decodeCycle 0x00021 = .error (.notInCommandMap 0x21) := by decide

theorem test_decode_table_word_request :
    decodeTableWord 32 0xABCD1208 = some .hardReset ∧ decodeTableWord 8 0x08 = some .hardReset ∧
    decodeTableWord 32 0x00000302 = some (.sendData (.other 3 [])) := by
  decide

/-! ## Requests: the vectors of `95_test_vectors.md` (2.1 to 2.4) -/

/-- V1, V3. -/
theorem test_send_command :
    after (.sendCommand [0x2A]) demo = some ([D0, W 0x002A], .driven .low, .ok) ∧
    after (.sendCommand [0x2A, 0x2B]) demo = some ([D0, W 0x002A, W 0x002B], .driven .low, .ok) := by decide

/-- V4, V2. -/
theorem test_send_command_fault :
    after (.sendCommand [0xFF]) (panel wide [false] []) =
      some ([.driveFail .dc .low], .U, .controlLineFault) ∧
    after (.sendCommand []) demo = some ([D0], .driven .low, .ok) := by decide

/-- V5, V6, V10. -/
theorem test_send_data :
    wireAfter (.sendData (.u8 [0x01, 0xFF])) demo = some [V 0x0001, V 0x00FF] ∧
    wireAfter (.sendData (.u16le [0xF800, 0x07E0])) demo = some [V 0xF800, V 0x07E0] ∧
    wireAfter (.sendData (.u16leIter [0xF800, 0x07E0])) demo = some [V 0xF800, V 0x07E0] := by decide

/-- V7, V8. -/
theorem test_send_data_other :
    after (.sendData (.other 0x03 [0xAA])) demo = some ([D1], .driven .high, .unsupportedDataFormat) ∧
    after (.sendData (.other 0x03 [0xAA])) (panel wide [false] []) =
      some ([.driveFail .dc .high], .U, .controlLineFault) := by decide

/-- V11. -/
theorem test_write_command :
    after (.writeCommand 0x2C) demo = some ([D0, W 0x002C], .driven .low, .ok) := by decide

/-- V12. -/
theorem test_write_data : after (.writeData 0xD6) demo = some ([D1, W 0x00D6], .driven .high, .ok) := by decide

/-- V13. -/
theorem test_write_data_words :
    after (.writeDataWords [0x1234, 0xABCD]) demo = some ([D1, W 0x1234, W 0xABCD], .driven .high, .ok) ∧
    after (.writeDataWords []) demo = some ([D1], .driven .high, .ok) := by decide

/-- V14. -/
theorem test_write_pixels :
    after (.writePixels [0xF800, 0x1234]) demo = some ([D1, W 0xF800, W 0x1234], .driven .high, .ok) := by decide

/-- V15. -/
theorem test_set_address_window :
    after (.setAddressWindow 470 0 479 9) demo =
      some ([D0, W 0x002A, D1, W 0x0001, D1, W 0x00D6, D1, W 0x0001, D1, W 0x00DF, D0, W 0x002B, D1, W 0x0000,
        D1, W 0x0000, D1, W 0x0000, D1, W 0x0009], .driven .high, .ok) := by decide

/-- V18: the third drive fails. -/
theorem test_set_address_window_fault :
    after (.setAddressWindow 470 0 479 9) (panel wide [true, true, false] []) =
      some ([D0, W 0x002A, D1, W 0x0001, .driveFail .dc .high], .U, .controlLineFault) := by decide

/-- V19. -/
theorem test_clear :
    wireAfter (.clear 0x07E0) demo =
      some ([C 0x002A, V 0, V 0, V 0, V 0x0003, C 0x002B, V 0, V 0, V 0, V 0x0002, C 0x002C] ++
        List.replicate 12 (V 0x07E0)) := by decide

/-- V21, V22. -/
theorem test_hard_reset :
    after .hardReset demo =
      some ([.drive .rst .high, .delay 10, .drive .rst .low, .delay 10, .drive .rst .high, .delay 10], .U, .ok) ∧
    after .hardReset big = some ([], .U, .ok) := by decide

/-- V23. -/
theorem test_hard_reset_fault :
    (stateOf (exec .hardReset (panel (small true true t1) [true, false] []))).map
        (fun t => (t.tr, t.rst, t.result.status)) =
      some ([.drive .rst .high, .delay 10, .driveFail .rst .low], .U, .controlLineFault) := by decide

/-- V24. -/
theorem test_init :
    (stateOf (exec .init demo)).map (fun t => (t.tr, t.rst, t.bl, t.dc)) =
      some ([.drive .rst .high, .delay 10, .drive .rst .low, .delay 10, .drive .rst .high, .delay 10,
        .drive .bl .high, D0, W 0x003A, D1, W 0x0055, D0, W 0x0011, .delay 60, D0, W 0x0029],
        .driven .high, .driven .high, .driven .low) := by decide

/-- V27, V26. -/
theorem test_init_table_and_fault :
    wireAfter .init (panel (small false false [(0x36, [0x28]), (0x3A, [0x55]), (0xE0, [0x01, 0x02, 0x03])]) yes []) =
      some [C 0x0036, V 0x0028, C 0x003A, V 0x0055, C 0x00E0, V 0x0001, V 0x0002, V 0x0003, C 0x0011, C 0x0029] ∧
    after .init (panel (small false true t1) [false] []) =
      some ([.driveFail .bl .high], .U, .controlLineFault) := by decide

/-- V33. -/
theorem test_size :
    (stateOf (exec .size big)).map (fun t => (t.tr, t.resp)) =
      some ([], [0x00000000, 0x000001E0, 0x00000140]) := by decide

/-- V29. -/
theorem test_draw_pixels :
    wireAfter (.drawPixels [{ x := 0, y := 0, colour := 0xFFFF }, { x := 3, y := 2, colour := 0x001F }]) demo =
      some [C 0x002A, V 0, V 0, V 0, V 0, C 0x002B, V 0, V 0, V 0, V 0, C 0x002C, V 0xFFFF,
        C 0x002A, V 0, V 3, V 0, V 3, C 0x002B, V 0, V 2, V 0, V 2, C 0x002C, V 0x001F] := by decide

/-- V32: off the canvas, and its last pixel. -/
theorem test_draw_pixels_admission :
    refusalOf (exec (.drawPixels [{ x := 480, y := 0, colour := 0 }]) big) = some .pixelOutsideCanvas ∧
    refusalOf (exec (.drawPixels [{ x := 0, y := 320, colour := 0 }]) big) = some .pixelOutsideCanvas ∧
    refusalOf (exec (.drawPixels [{ x := -1, y := 0, colour := 0 }]) big) = some .pixelOutsideCanvas ∧
    refusalOf (exec (.drawPixels [{ x := 479, y := 319, colour := 0 }]) big) = none := by decide

/-- V34, V38. -/
theorem test_fill_region :
    wireAfter (.fillRegion { x := 10, y := 20, w := 2, h := 2 } [1, 2, 3]) big =
      some [C 0x002A, V 0, V 0x000A, V 0, V 0x000B, C 0x002B, V 0, V 0x0014, V 0, V 0x0015, C 0x002C, V 1, V 2, V 3] := by
  decide

/-- V35, V36, V39. -/
theorem test_fill_region_dispatch :
    after (.fillRegion { x := 478, y := 0, w := 4, h := 1 } [1, 2, 3, 4]) big = some ([], .U, .unsupportedOverlap) ∧
    after (.fillRegion { x := 480, y := 0, w := 4, h := 1 } [1]) big = some ([], .U, .ok) ∧
    after (.fillRegion { x := 10, y := 10, w := 0, h := 5 } [1]) big = some ([], .U, .ok) ∧
    after (.fillRegion { x := -1, y := 0, w := 2, h := 1 } [1, 2]) big = some ([], .U, .unsupportedOverlap) := by
  decide

/-- V43, V41, V45. -/
theorem test_fill_solid :
    wireAfter (.fillSolid { x := 479, y := 319, w := 1, h := 1 } 0xFFFF) big =
      some [C 0x002A, V 0x0001, V 0x00DF, V 0x0001, V 0x00DF, C 0x002B, V 0x0001, V 0x003F, V 0x0001, V 0x003F,
        C 0x002C, V 0xFFFF] ∧
    after (.fillSolid { x := -10, y := -10, w := 10, h := 10 } 1) big = some ([], .U, .ok) := by decide

/-- V47: the eleventh drive fails; and V42, the first cycles and the count. -/
theorem test_fill_solid_fault_and_clip :
    wireAfter (.fillSolid { x := 470, y := 0, w := 20, h := 10 } 0xF800)
        (panel wide (List.replicate 10 true ++ [false]) []) =
      some [C 0x002A, V 0x0001, V 0x00D6, V 0x0001, V 0x00DF, C 0x002B, V 0, V 0, V 0, V 0x0009] ∧
    wireAfter (.fillSolid { x := -5, y := -5, w := 10, h := 10 } 0x001F) big =
      some ([C 0x002A, V 0, V 0, V 0, V 4, C 0x002B, V 0, V 0, V 0, V 4, C 0x002C] ++ List.replicate 25 (V 0x001F)) := by
  decide

/-! ## Pure functions (2.5) -/

/-- V48. -/
theorem test_clip :
    clip wide { x := 470, y := 0, w := 20, h := 10 } = some { x0 := 470, y0 := 0, x1 := 480, y1 := 10 } ∧
    clip wide { x := -5, y := -5, w := 10, h := 10 } = some { x0 := 0, y0 := 0, x1 := 5, y1 := 5 } ∧
    clip wide { x := -10, y := -10, w := 10, h := 10 } = none ∧ clip wide { x := 600, y := 5, w := 0, h := 0 } = none ∧
    clip wide { x := -2147483648, y := 0, w := 4294967295, h := 1 } = some { x0 := 0, y0 := 0, x1 := 480, y1 := 1 } ∧
    clip wide { x := 2147483647, y := 0, w := 4294967295, h := 1 } = none ∧
    inside wide { x := 0, y := 0, w := 480, h := 320 } = true ∧ inside wide { x := 0, y := 0, w := 481, h := 320 } = false := by
  decide

/-- V49. -/
theorem test_pack :
    pack { r := 31, g := 0, b := 0 } = 0xF800 ∧ pack { r := 1, g := 2, b := 3 } = 0x0843 ∧
    unpack 0x1234 = { r := 2, g := 17, b := 20 } ∧ unpack 0xABCD = { r := 21, g := 30, b := 13 } := by decide

/-- V50. -/
theorem test_byte_split :
    (hi8 470, lo8 470) = (0x01, 0xD6) ∧ (hi8 256, lo8 256) = (0x01, 0x00) ∧ (hi8 65535, lo8 65535) = (0xFF, 0xFF) := by
  decide

/-! ## The reference sink (2.7) -/

/-- A sink under the premises of R71. -/
def ready : Sink := { Sink.fresh with configured := true }

/-- The window program for (1, 1, 2, 2). -/
def window1122 : List (Latch × U16) :=
  [C 0x002A, V 0, V 1, V 0, V 2, C 0x002B, V 0, V 1, V 0, V 2]

/-- The four pixels of the window (1, 1, 2, 2). -/
def read1122 (k : Sink) : List (Option U16) :=
  [k.gram.read (gramAddr 1 1), k.gram.read (gramAddr 2 1), k.gram.read (gramAddr 1 2), k.gram.read (gramAddr 2 2)]

/-- V62, V63. -/
theorem test_sink_paints :
    read1122 (ready.takeCycles (window1122 ++ [C 0x002C, V 0xA, V 0xB, V 0xC, V 0xD])) =
      [some 0xA, some 0xB, some 0xC, some 0xD] ∧
    read1122 (ready.takeCycles (window1122 ++ [C 0x002C, V 0xA, V 0xB, V 0xC])) =
      [some 0xA, some 0xB, some 0xC, none] := by decide

/-- V64, V65, V66, V67, V68: nothing is specified any more. -/
theorem test_sink_unspecified :
    read1122 (ready.takeCycles (window1122 ++ [C 0x002C, V 0xA, V 0xB, V 0xC, V 0xD, V 0xE])) =
      [none, none, none, none] ∧
    (ready.takeCycles (window1122 ++ [V 0xA, V 0xB])).window = none ∧
    (ready.takeCycles [C 0x002A, V 0, V 1, C 0x002B]).xs = none ∧
    (ready.takeCycles (window1122 ++ [C 0x002C, V 0xA, C 0x0021])).gram = [] ∧
    (ready.takeCycles [C 0x002A, V 0, V 5, V 0, V 2, C 0x002B, V 0, V 5, V 0, V 2, C 0x002C, V 0xA]).gram = [] := by
  decide

/-- R69, R70, U6, U12: after an excess word, and after a word under a reversed window, a new window program
paints again; memory write sets the cursor to `(xs, ys)` of the reversed window. -/
theorem test_sink_paints_again :
    let again := window1122 ++ [C 0x002C, V 0xA, V 0xB, V 0xC, V 0xD]
    let reversed := [C 0x002A, V 0, V 5, V 0, V 2, C 0x002B, V 0, V 5, V 0, V 2, C 0x002C]
    read1122 (ready.takeCycles (again ++ [V 0xE] ++ again)) = [some 0xA, some 0xB, some 0xC, some 0xD] ∧
    read1122 (ready.takeCycles (reversed ++ [V 0xE] ++ again)) = [some 0xA, some 0xB, some 0xC, some 0xD] ∧
    (ready.takeCycles reversed).cursor = some (5, 5) := by decide

/-- R71, U17: a `hard_reset` without a reset line. -/
theorem test_hard_reset_without_line :
    (stateOf (exec .hardReset { big with sink := ready })).map
        (fun t => (t.tr, (t.sink.takeAll t.buffer).configured)) = some ([], false) := by decide

/-- P4 of `95_test_vectors.md`, at the sink: a complete `init` brings the premises of R71 about, a failed one ends
them. -/
theorem test_sink_premises :
    (((ready.note .aborted).note .initBegin).takeCycles [C 0x003A, V 0x0055, C 0x0011, C 0x0029]
      |>.note (.initEnd true)).configured = true ∧ (ready.note .aborted).configured = false := by decide

/-! ## Single wire instructions and single steps -/

/-- R68, R69, R71 where the command cycle arrives. -/
theorem test_wire_commands :
    (stateOf (exec .wireColumnAddressSet demo)).map (fun t => t.sink.mode) = some (.param 0x2A []) ∧
    (stateOf (exec .wireRowAddressSet demo)).map (fun t => t.sink.mode) = some (.param 0x2B []) ∧
    (stateOf (exec .wireMemoryWrite demo)).map (fun t => t.sink.mode) = some .pixels ∧
    (stateOf (exec .wireSleepOut demo)).map (fun t => t.sink.log) = some [.command 0x11 []] := by decide

/-- V53: `Invalid` takes one word, the next is a new `W0`. -/
theorem test_step_bad_request :
    (stateOf (step { panel wide [] [.request] with port := [0x00000000, 0x0000000B] })).map
        (fun t => (t.port, t.resp, t.tr, t.result.status)) =
      some ([0x0000000B], [0x000000FF], [], .badRequest) := by decide

/-- V58 as a step. -/
theorem test_step_request :
    (stateOf (step { panel wide [true] [.request] with port := [0x002C0003, 0x0000000B] })).map
        (fun t => (t.port, t.tr, t.buffer)) =
      some ([0x0000000B], [D0, W 0x002C], [.cycle (.driven .low) 0x002C]) := by decide

/-- R22: acceptance, and one event. -/
theorem test_step_event :
    (stateOf (step { panel wide [true] [.event] with port := [0x002C0003] })).map (fun t => t.seq) =
      some (.busy (.writeCommand 0x2C) 0 0) ∧
    (stateOf (step { panel wide [true] [.event] with seq := .busy (.writeCommand 0x2C) 0 0 })).map
        (fun t => (t.seq, t.tr)) = some (.busy (.writeCommand 0x2C) 1 0, [D0]) := by decide

/-- R31: the oldest cycle reaches the pins and the sink. -/
theorem test_step_transport :
    (stateOf (step { panel wide [] [.transport] with buffer := [.cycle (.driven .low) 0x002A] })).map
        (fun t => (t.buffer, t.pins, t.sink.mode)) = some ([], [C 0x002A], .param 0x2A []) := by decide

/-- What `withFetchWord` places is what the next step runs. -/
theorem test_fetch_word :
    (stateOf (step ((panel wide yes []).withFetchWord 32 0x0000000B))).map (fun t => (t.port, t.resp)) =
      some ([], [0x00000000, 0x000001E0, 0x00000140]) ∧
    (stateOf (step ((panel wide yes []).withFetchWord 24 0x0002C))).map (fun t => (t.buffer, t.sink.mode)) =
      some ([], .pixels) := by decide

/-- R7, R186: the host issues a request, sends its word, waits, takes the result. -/
theorem test_step_host :
    let run (h : HostSide) (resp : List Word) :=
      (stateOf (step { panel wide yes [.host] with host := h, resp := resp })).map fun t => (t.host, t.port)
    run ⟨[[0x0B]], [], none⟩ [] = some (⟨[], [0x0B], some 0⟩, []) ∧
    run ⟨[], [0x0B], some 0⟩ [] = some (⟨[], [], some 0⟩, [0x0B]) ∧
    run ⟨[[0x0B]], [], some 0⟩ [] = some (⟨[[0x0B]], [], some 0⟩, []) ∧
    run ⟨[[0x0B]], [], some 0⟩ [0] = some (⟨[[0x0B]], [], none⟩, []) := by decide

/-- R209, U18: a pending drive, and a wait for the host, do not hang. -/
theorem test_step_hang :
    stateOf (step { panel wide yes [.hang] with seq := .busy (.writeCommand 1) 1 0 }) = none ∧
    (stateOf (step { panel wide yes [.hang] with seq := .busy (.writeCommand 1) 0 0 })).isSome = true ∧
    (stateOf (step { panel wide yes [.hang] with seq := .busy (.sendCommand []) 1 1 })).isSome = true := by decide

/-- R95: the block waits for missing operand words. -/
theorem test_step_waits :
    (stateOf (step { panel wide [] [.request] with port := [0x00000007, 0x000001D6] })).map
        (fun t => (t.port, t.seq, t.tr)) = some ([0x00000007, 0x000001D6], .idle, []) := by decide

/-! ## Witnesses: concrete states and operands that meet the hypotheses of the statements

`witness_<Name>` is about the statement `Obligations.<Name>`; a statement that is not here has no
hypothesis. -/

/-- The small panel with both lines, whose drive number `m` is the first to fail. -/
def failing (m : Nat) : State := panel (small true true t1) (List.replicate m true ++ [false]) []

/-- The small panel under another policy. -/
def policy (p : OobPolicy) : State := panel { small true true t1 with pixelOob := p } yes []

/-- The largest and the smallest canvas of R6. -/
def canvas (w h : Nat) : Config := { small false false t1 with width := w, height := h }

theorem demo_answers : demo.answersOk 24 := by unfold State.answersOk; decide

theorem failing_first : ∀ m, m < 24 → (failing m).firstFailure m := by
  unfold State.firstFailure State.answersOk; decide

theorem witness_bus_one_drive : demo.answersOk 1 ∧ 0 < 1 ∧ (failing 0).firstFailure 0 :=
  ⟨fun j h => demo_answers j (by omega), by decide, failing_first 0 (by decide)⟩

theorem witness_bus_twelve_drives :
    demo.answersOk 12 ∧ (failing 0).firstFailure 0 ∧ (failing 11).firstFailure 11 ∧
    demo.answersOk 10 ∧ (failing 9).firstFailure 9 :=
  ⟨fun j h => demo_answers j (by omega), failing_first 0 (by decide), failing_first 11 (by decide),
   fun j h => demo_answers j (by omega), failing_first 9 (by decide)⟩

theorem witness_SendCommandWritesCommandCycles : demo.answersOk 1 ∧ 0 < 1 ∧ (failing 0).firstFailure 0 :=
  witness_bus_one_drive

theorem witness_SendDataWritesSupportedPayloads : demo.answersOk 1 ∧ 0 < 1 ∧ (failing 0).firstFailure 0 :=
  witness_bus_one_drive

theorem witness_SendDataReportsOtherFormats : demo.answersOk 1 ∧ (failing 0).firstFailure 0 :=
  ⟨witness_bus_one_drive.1, witness_bus_one_drive.2.2⟩

theorem witness_SelectLineIsSetNotPulsed :
    ((∃ bytes, Instr.sendCommand [0x2A] = .sendCommand bytes) ∧ Level.low = .low) ∧
    ((∃ p, Instr.sendData (.u8 [0x01]) = .sendData p) ∧ Level.high = .high) ∧
    demo.answerAt 0 = true ∧ (failing 0).answerAt 0 = false ∧
    C 0x002A ∈ wireFrom demo.dc [.drive .dc .low, .write 0x002A] :=
  ⟨⟨⟨_, rfl⟩, rfl⟩, ⟨⟨_, rfl⟩, rfl⟩, by decide, by decide, by decide⟩

theorem witness_WriteCommandIsOneCommandCycle :
    ((0xFF2CFF03 : Word).extractLsb' 0 8 = (3 : Byte) ∧ (0xFF2CFF03 : Word).extractLsb' 16 8 = (0x2C : Byte)) ∧
    demo.answerAt 0 = true ∧ (failing 0).answerAt 0 = false := by decide

theorem witness_DataCallsStreamTheirOperands : demo.answersOk 1 ∧ 0 < 1 ∧ (failing 0).firstFailure 0 :=
  witness_bus_one_drive

theorem witness_AddressWindowProgram :
    demo.answersOk 10 ∧ (failing 0).firstFailure 0 ∧ (failing 9).firstFailure 9 :=
  ⟨witness_bus_twelve_drives.2.2.2.1, failing_first 0 (by decide), failing_first 9 (by decide)⟩

theorem witness_ClearStreamsTheWholeCanvas :
    demo.cfg.legal = true ∧ demo.answersOk 12 ∧ (failing 11).cfg.legal = true ∧ (failing 11).firstFailure 11 ∧
    (canvas 1 1).legal = true ∧ (canvas 65536 65536).legal = true :=
  ⟨by decide, witness_bus_twelve_drives.1, by decide, failing_first 11 (by decide), by decide, by decide⟩

theorem witness_ClearEqualsSolidFillOfTheCanvas : big.cfg.legal = true ∧ (canvas 65536 65536).legal = true := by
  decide

theorem witness_HardResetPulsesTheLine :
    (big.cfg.hasRst = false ∧ ∃ t, exec .hardReset big = .next t) ∧
    (demo.cfg.hasRst = true ∧ demo.answersOk 3 ∧ ∃ t, exec .hardReset demo = .next t) ∧
    ∀ m, m < 3 → (failing m).cfg.hasRst = true ∧ (failing m).firstFailure m :=
  ⟨⟨by decide, ⟨_, rfl⟩⟩, ⟨by decide, fun j h => demo_answers j (by omega), ⟨_, rfl⟩⟩,
   fun m h => ⟨rfl, failing_first m (by omega)⟩⟩

/-- With both lines and with neither. -/
theorem witness_InitReplaysTheTable :
    demo.answersOk (wakeDrives demo.cfg + tableDrives demo.cfg.initTable + 2) ∧
    big.answersOk (wakeDrives big.cfg + tableDrives big.cfg.initTable + 2) := by
  unfold State.answersOk; decide

/-- With both lines and a table of one entry with one data byte, and with neither. -/
theorem witness_InitEventCounts :
    (1 = demo.cfg.initTable.length ∧ 1 = (demo.cfg.initTable.map fun e => e.2.length).sum ∧
      demo.answersOk ((if demo.cfg.hasRst then 3 else 0) + (if demo.cfg.hasBl then 1 else 0) + (1 + 1 + 2))) ∧
    (1 = big.cfg.initTable.length ∧ 1 = (big.cfg.initTable.map fun e => e.2.length).sum ∧
      big.answersOk ((if big.cfg.hasRst then 3 else 0) + (if big.cfg.hasBl then 1 else 0) + (1 + 1 + 2))) := by
  unfold State.answersOk; decide

/-- A present backlight and `init`; an absent one; a request other than `init`. -/
theorem witness_BacklightLatchIsInitsAlone :
    (∃ t, isRequest .init = true ∧ exec .init demo = .next t ∧ demo.cfg.hasBl = true ∧ t.result.status = .ok) ∧
    (∃ t, isRequest .init = true ∧ exec .init big = .next t ∧ big.cfg.hasBl = false) ∧
    (∃ t, isRequest .hardReset = true ∧ exec .hardReset demo = .next t ∧ Instr.hardReset ≠ .init) :=
  ⟨⟨_, rfl, rfl, rfl, by decide⟩, ⟨_, rfl, rfl, rfl⟩, ⟨_, rfl, rfl, by decide⟩⟩

theorem witness_SizeReportsTheGeometry :
    (0xFFFFFF0B : Word).extractLsb' 0 8 = (11 : Byte) ∧
    ∃ t, step { panel wide [] [.request] with port := [0x0000000B] } = .next t := ⟨by decide, ⟨_, rfl⟩⟩

/-- On the canvas, first and last pixel; no triple; and off the canvas under the two other policies. -/
theorem witness_DrawPixelsSendsEachTriple :
    (admitted demo.cfg (.drawPixels [⟨0, 0, 1⟩, ⟨3, 2, 1⟩]) = true ∧
      sentPixels demo.cfg [⟨0, 0, 1⟩, ⟨3, 2, 1⟩] ≠ [] ∧
      12 * (sentPixels demo.cfg [⟨0, 0, 1⟩, ⟨3, 2, 1⟩]).length = 24) ∧
    demo.answersOk 24 ∧ (failing 23).firstFailure 23 ∧
    (admitted demo.cfg (.drawPixels []) = true ∧ sentPixels demo.cfg [] = []) ∧
    (admitted (policy .skip).cfg (.drawPixels [⟨4, 0, 1⟩]) = true ∧
      sentPixels (policy .skip).cfg [⟨4, 0, 1⟩] = []) ∧
    (admitted (policy .emit).cfg (.drawPixels [⟨-1, 0, 1⟩]) = true ∧
      sentPixels (policy .emit).cfg [⟨-1, 0, 1⟩] ≠ []) :=
  ⟨by decide, demo_answers, failing_first 23 (by decide), by decide, by decide, by decide⟩

theorem witness_DrawPixelsOffCanvasIsNotAdmitted :
    exec (.drawPixels [⟨4, 0, 1⟩]) demo = .refused .pixelOutsideCanvas ∧ demo.cfg.pixelOob = .refuse ∧
    (∃ p ∈ [(⟨4, 0, 1⟩ : Pixel)],
      ¬ (0 ≤ p.x ∧ p.x < demo.cfg.width ∧ 0 ≤ p.y ∧ p.y < demo.cfg.height)) :=
  ⟨rfl, rfl, by decide⟩

/-- Empty clip (outside, and of no width), straddling, and inside up to the whole canvas. -/
theorem witness_FillRegionDispatch :
    (clip demo.cfg ⟨4, 0, 1, 1⟩ = none ∧ clip demo.cfg ⟨1, 1, 0, 1⟩ = none) ∧
    (clip demo.cfg ⟨3, 0, 2, 1⟩ ≠ none ∧ inside demo.cfg ⟨3, 0, 2, 1⟩ = false) ∧
    (inside demo.cfg ⟨0, 0, 4, 3⟩ = true ∧ inside (failing 11).cfg ⟨3, 2, 1, 1⟩ = true) ∧
    demo.answersOk 12 ∧ (failing 11).firstFailure 11 :=
  ⟨by decide, by decide, by decide, witness_bus_twelve_drives.1, failing_first 11 (by decide)⟩

theorem witness_FillSolidClips :
    clip demo.cfg ⟨-1, 0, 1, 1⟩ = none ∧ clip demo.cfg ⟨-1, 0, 2, 1⟩ = some ⟨0, 0, 1, 1⟩ ∧
    clip (failing 11).cfg ⟨3, 2, 5, 5⟩ = some ⟨3, 2, 4, 3⟩ ∧
    demo.answersOk 12 ∧ (failing 11).firstFailure 11 :=
  ⟨by decide, by decide, by decide, witness_bus_twelve_drives.1, failing_first 11 (by decide)⟩

theorem witness_ClipIsTheIntersection :
    clip wide ⟨470, 0, 20, 10⟩ = some ⟨470, 0, 480, 10⟩ ∧ clip wide ⟨480, 0, 1, 1⟩ = none ∧
    inside wide ⟨0, 0, 480, 320⟩ = true := by decide

theorem witness_ClipFitsTheWindowFields :
    (canvas 65536 65536).legal = true ∧
    clip (canvas 65536 65536) ⟨0, 0, 65536, 65536⟩ = some ⟨0, 0, 65536, 65536⟩ ∧
    (canvas 1 1).legal = true ∧ clip (canvas 1 1) ⟨0, 0, 1, 1⟩ = some ⟨0, 0, 1, 1⟩ := by decide

theorem witness_EveryRequestEndsIdle :
    isRequest .size = true ∧ admitted demo.cfg .size = true ∧
    isRequest (.drawPixels [⟨3, 2, 1⟩]) = true ∧ admitted demo.cfg (.drawPixels [⟨3, 2, 1⟩]) = true := by decide

/-- The first drive of a command, and the last of an `init`. -/
theorem witness_FailedDriveEndsTheRequest :
    (isRequest (.writeCommand 1) = true ∧ admitted (failing 0).cfg (.writeCommand 1) = true ∧
      0 < drivesIn (planOf (failing 0).cfg (.writeCommand 1)).acts) ∧ (failing 0).firstFailure 0 ∧
    (isRequest .init = true ∧ admitted (failing 7).cfg .init = true ∧
      drivesIn (planOf (failing 7).cfg .init).acts = 8) ∧ (failing 7).firstFailure 7 :=
  ⟨by decide, failing_first 0 (by decide), by decide, failing_first 7 (by decide)⟩

theorem witness_StatusTellsTheFailedDrive :
    (∃ t, isRequest .init = true ∧ exec .init (failing 7) = .next t ∧ t.result.status = .controlLineFault) ∧
    (∃ t, isRequest .init = true ∧ exec .init demo = .next t ∧ t.result.status ≠ .controlLineFault) :=
  ⟨⟨_, rfl, rfl, by decide⟩, ⟨_, rfl, rfl, by decide⟩⟩

/-- The clauses (a), (b) with its fault, (c) first and last, and (d) at both ends of the range. -/
theorem witness_ConditionPriority :
    (failing 0).answerAt 0 = false ∧
    (clip demo.cfg ⟨4, 0, 1, 1⟩ = none ∧ clip demo.cfg ⟨3, 0, 2, 1⟩ ≠ none ∧ inside demo.cfg ⟨3, 0, 2, 1⟩ = false) ∧
    (∃ t, exec (.fillRegion ⟨0, 0, 1, 1⟩ [1]) (failing 0) = .next t ∧ t.result.status = .controlLineFault) ∧
    (0 < drivesIn (initActs (failing 0).cfg) ∧ (failing 0).firstFailure 0) ∧
    (7 < drivesIn (initActs (failing 7).cfg) ∧ (failing 7).firstFailure 7) ∧
    (¬ (1 ≤ (lowByte 0x00000000).toNat ∧ (lowByte 0x00000000).toNat ≤ 14) ∧
     ¬ (1 ≤ (lowByte 0x0000000F).toNat ∧ (lowByte 0x0000000F).toNat ≤ 14)) :=
  ⟨by decide, by decide, ⟨_, rfl, by decide⟩, ⟨by decide, failing_first 0 (by decide)⟩,
   ⟨by decide, failing_first 7 (by decide)⟩, by decide⟩

theorem witness_WordThatSpellsNoRequest :
    let s : State := { panel wide [] [.request] with port := [0x00000000, 0x0000000B] }
    let u : State := { panel wide [] [.event] with port := [0x0000000F] }
    (s.cfg.legal = true ∧ s.turn = .request ∧ s.seq = .idle ∧ s.discard = 0 ∧
      s.port = [0x00000000, 0x0000000B] ∧ (lowByte 0x00000000).toNat = 0) ∧
    (u.cfg.legal = true ∧ u.turn = .event ∧ u.seq = .idle ∧ u.discard = 0 ∧
      u.port = [0x0000000F] ∧ 15 ≤ (lowByte 0x0000000F).toNat) := by decide

/-- A block whose last request failed, and one just constructed, with the same answers to come. -/
theorem witness_NoFaultLatch :
    let s : State := { demo with result := { status := .controlLineFault, dims := none }, dc := .U }
    isRequest (.writeCommand 1) = true ∧ s.cfg = demo.cfg ∧
    (∀ j, j < drivesIn (planOf s.cfg (.writeCommand 1)).acts → s.answerAt j = demo.answerAt j) ∧
    (∃ t, exec (.writeCommand 1) s = .next t) ∧ (∃ t, exec (.writeCommand 1) demo = .next t) :=
  ⟨rfl, rfl, fun _ _ => rfl, ⟨_, rfl⟩, ⟨_, rfl⟩⟩

/-- A whole window; only its rows; none. -/
theorem witness_WireWindowCommands :
    ((ready.takeCycles window1122).xs = some 1 ∧ (ready.takeCycles window1122).ys = some 1) ∧
    (ready.takeCycles (window1122.drop 5)).xs = none ∧ demo.sink.ys = none := by decide

theorem witness_WireInitCommands :
    ((0x11, Instr.wireSleepOut) ∈ wireMap ∧ (0x11 : Byte) ≠ 0x2A ∧ (0x11 : Byte) ≠ 0x2B ∧ (0x11 : Byte) ≠ 0x2C) ∧
    ((0xE1, Instr.wireVendorE1) ∈ wireMap ∧ (0xE1 : Byte) ≠ 0x2A ∧ (0xE1 : Byte) ≠ 0x2B ∧ (0xE1 : Byte) ≠ 0x2C) ∧
    (ready.note .initBegin).inInit = true ∧ demo.sink.inInit = false := by decide

/-- Under the premises; and three, and no, parameter bytes. -/
theorem witness_WindowParametersSetTheWindow :
    ready.configured = true ∧ [(0x01 : Byte), 0x02, 0x03].length < 4 ∧ ([] : List Byte).length < 4 := by decide

theorem witness_ExcessWordsAreUnspecified :
    (({ ready with mode := .pixels } : Sink).mode = .pixels ∧ ({ ready with mode := .pixels } : Sink).window = none) ∧
    (∃ k : Sink, k.mode = .pixels ∧ (∃ col row ye, k.cursor = some (col, row) ∧ k.ye = some ye ∧ ye.toNat < row) ∧
      k = ready.takeCycles (window1122 ++ [C 0x002C, V 1, V 2, V 3, V 4])) ∧
    (4 ≤ [(0 : Byte), 1, 0, 2].length ∧ (ready.takeCycles window1122).mode = .param 0x2B [0, 1, 0, 2]) ∧
    (ready.takeCycles (window1122.take 5)).mode = .param 0x2A [0, 1, 0, 2] :=
  ⟨by decide, ⟨_, by decide, ⟨1, 3, 2, by decide⟩, rfl⟩, by decide, by decide⟩

/-- The table of P2 and P4 of `95_test_vectors.md`, which sets 0x55; a request that fails; a reset and an `init` with lines and
without. -/
theorem witness_PremisesComeAndGo :
    let s : State := panel (small true true [(0x3A, [0x55])]) yes []
    ((∀ e ∈ s.cfg.initTable, e.1 ∈ Config.tableCodes) ∧ setsFormat16 s.cfg.initTable = true ∧
      s.answersOk (wakeDrives s.cfg + tableDrives s.cfg.initTable + 2)) ∧
    (∃ t, isRequest .init = true ∧ exec .init (failing 7) = .next t ∧ t.result.status = .controlLineFault) ∧
    (∃ t, exec .hardReset demo = .next t) ∧ (∃ t, exec .hardReset big = .next t) ∧
    (∃ t, exec .init demo = .next t) ∧ (∃ t, exec .init (failing 7) = .next t) :=
  ⟨by unfold State.answersOk; decide, ⟨_, rfl, rfl, by decide⟩, ⟨_, rfl⟩, ⟨_, rfl⟩, ⟨_, rfl⟩, ⟨_, rfl⟩⟩

/-- A code of the map and one outside it, inside an `init` and outside one (V67). -/
theorem witness_SinkLogsOtherTraffic :
    ((0x36 : Byte) ≠ 0x2A ∧ (0x36 : Byte) ≠ 0x2B ∧ (0x36 : Byte) ≠ 0x2C ∧
      ∃ i, ((0x36 : Byte), i) ∈ wireMap) ∧
    ((0x21 : Byte) ≠ 0x2A ∧ (0x21 : Byte) ≠ 0x2B ∧ (0x21 : Byte) ≠ 0x2C ∧
      ¬ ∃ i, ((0x21 : Byte), i) ∈ wireMap) ∧
    (ready.note .initBegin).inInit = true ∧ ready.inInit = false ∧ demo.sink.mode = .idle := by
  refine ⟨⟨by decide, by decide, by decide, .wireMemoryAccessControl, by decide⟩, ⟨by decide, by decide, by decide, ?_⟩,
    by decide, by decide, by decide⟩
  simp [wireMap]

/-- A 2 x 2 window, and the one pixel in the last corner. -/
theorem witness_PixelStreamFillsTheWindow :
    ready.configured = true ∧
    ((1 : U16).toNat ≤ (2 : U16).toNat ∧ (0 : U16).toNat ≤ (1 : U16).toNat ∧
      [(1 : U16), 2, 3, 4].length = ((2 : U16).toNat - (1 : U16).toNat + 1) * ((1 : U16).toNat - (0 : U16).toNat + 1)) ∧
    ((0xFFFF : U16).toNat ≤ (0xFFFF : U16).toNat ∧
      [(1 : U16)].length = ((0xFFFF : U16).toNat - (0xFFFF : U16).toNat + 1) *
        ((0xFFFF : U16).toNat - (0xFFFF : U16).toNat + 1)) ∧
    (4 < 65536 ∧ ¬ ((1 : U16).toNat ≤ 4 ∧ 4 ≤ (2 : U16).toNat ∧ (0 : U16).toNat ≤ 0 ∧ 0 ≤ (1 : U16).toNat)) := by
  decide

theorem witness_SolidFillPaintsExactlyTheClip :
    let s : State := { demo with sink := ready }
    s.cfg.legal = true ∧ clip s.cfg ⟨-1, 0, 2, 1⟩ = some ⟨0, 0, 1, 1⟩ ∧ s.answersOk 12 ∧
    (∃ t, exec (.fillSolid ⟨-1, 0, 2, 1⟩ 7) s = .next t) ∧ (s.sink.takeAll s.buffer).configured = true :=
  ⟨by decide, by decide, witness_bus_twelve_drives.1, ⟨_, rfl⟩, by decide⟩

/-- An empty and a longer payload, signed coordinates at their ends, and a cycle. -/
theorem witness_EncodedInstructionsDecode :
    (Instr.sendCommand []).wellFormed = true ∧ (Instr.sendData (.other 0xFF [1])).wellFormed = true ∧
    (Instr.fillSolid ⟨-2147483648, 2147483647, 4294967295, 0⟩ 1).wellFormed = true ∧
    Instr.wireVendorE1.wellFormed = true := by decide

theorem witness_UnassignedEncodingsAreRejected :
    (lowByte 0xFFFFFF00).toNat = 0 ∧ 15 ≤ (lowByte 0x0000000F).toNat ∧ 15 ≤ (lowByte 0x000000FF).toNat ∧
    decodeCycle 0x0002C = .ok .wireMemoryWrite := by decide

/-- HARD_RESET with every unused bit set; SEND_DATA with another `IMM`; WRITE_COMMAND with another high
byte of `IMM`; CLEAR with another `FMT`. -/
theorem witness_UnusedFieldsAreIgnored :
    lowByte 0xFFFFFF08 = lowByte 0x00000008 ∧
    (lowByte 0xFFFF0102 = lowByte 0x00000102 ∧ fmtField 0xFFFF0102 = fmtField 0x00000102) ∧
    (lowByte 0xFF2CFF03 = lowByte 0x002C0003 ∧ immByte 0xFF2CFF03 = immByte 0x002C0003) ∧
    (lowByte 0x07E0FF0A = lowByte 0x07E0000A ∧ highHalf 0x07E0FF0A = highHalf 0x07E0000A) := by decide

/-- Each operation with elements whose upper bits differ. -/
theorem witness_ElementUpperBitsAreIgnored :
    ([(0x0000002A : Word)].length = (1 : Word).toNat ∧
      [(0x0000002A : Word)].map lowByte = [0xFFFFFF2A].map lowByte ∧ (lowByte 0x00000001).toNat = 1 ∧
      ((lowByte 0x00000002).toNat = 2 ∧ (fmtField 0x00000002).toNat = 0)) ∧
    ([(0x00001234 : Word)].map lowHalf = [0xFFFF1234].map lowHalf ∧ (lowByte 0x00000005).toNat = 5 ∧
      (lowByte 0x00000006).toNat = 6 ∧ ((lowByte 0x00000102).toNat = 2 ∧ (fmtField 0x00000102).toNat = 1) ∧
      ((lowByte 0x00000202).toNat = 2 ∧ (fmtField 0x00000202).toNat = 2) ∧ (lowByte 0x0000000D).toNat = 13) ∧
    ([((1 : Word), (2 : Word), (0x00001234 : Word), (0xFFFF1234 : Word))].length = (1 : Word).toNat ∧
      lowHalf 0x00001234 = lowHalf 0xFFFF1234 ∧ (lowByte 0x0000000C).toNat = 12) := by decide

theorem witness_RequestLengthFollowsOpAndLen :
    decodeRequest [0x00000001, 0x00000001, 0x0000002A, 0x0000000B] = .ok (.sendCommand [0x2A], [0x0000000B]) ∧
    decodeRequest [0x0000000C, 0x00000000] = .ok (.drawPixels [], []) ∧
    decodeRequest [0x0000000D, 0, 0, 1, 1, 1, 0x0000F800] =
      .ok (.fillRegion { x := 0, y := 0, w := 1, h := 1 } [0xF800], []) := by decide

theorem witness_StepRunsTheDecodedRequest :
    let s : State := { panel wide yes [.request] with port := [0x002C0003, 0x0000000B] }
    s.cfg.legal = true ∧ s.turn = .request ∧ s.seq = .idle ∧ s.discard = 0 ∧
    decodeRequest s.port = .ok (.writeCommand 0x2C, [0x0000000B]) := by decide

/-- Operand words with payload missing, on both turns; an empty port; a window program cut short; and a
request whose payload is there. -/
theorem witness_IdleStepAcceptsOrWaits :
    let s (turn : Turn) (port : List Word) : State := { panel wide yes [turn] with port := port }
    (∀ turn port, (s turn port).cfg.legal = true ∧ (s turn port).turn = turn ∧
      (s turn port).seq = .idle ∧ (s turn port).discard = 0) ∧
    decodeHeader [0x00000001, 0x00000002, 0x0000002A] =
      .ok { instr := .sendCommand [], len := 2, rest := [0x0000002A] } ∧
    decodeRequest [0x00000001, 0x00000002, 0x0000002A] = .error .cutShort ∧
    decodeHeader [] = .error .noWord ∧ decodeHeader [0x00000007, 0x000001D6] = .error .cutShort ∧
    [0x00000007, 0x000001D6].length < requestLength (lowByte 0x00000007).toNat ∧
    (∃ h, decodeHeader [0x00000001, 0x00000001, 0x0000002A] = .ok h ∧
      h.rest = [0x0000002A] ++ [] ∧ [0x0000002A].length = h.len * elementWords h.instr) :=
  ⟨fun _ _ => ⟨rfl, rfl, rfl, rfl⟩, by decide, by decide, rfl, by decide, by decide, ⟨_, rfl, rfl, rfl⟩⟩

/-- A word to send; a result to wait for and one that is there; a request to issue; nothing left; and a
step on another turn. -/
theorem witness_HostIssuesOneRequestAtATime :
    let at_ (h : HostSide) : State := { panel wide yes [.host] with host := h, resp := [0] }
    (∀ h, (at_ h).cfg.legal = true ∧ (at_ h).turn = .host ∧ (at_ h).host = h) ∧
    ((at_ ⟨[], [], some 1⟩).resp.length ≤ 1 ∧ 0 < (at_ ⟨[], [], some 0⟩).resp.length) ∧
    (∃ t, step (panel wide yes [.stall]) = .next t ∧ (panel wide yes [.stall]).turn ≠ .host) :=
  ⟨fun _ => ⟨rfl, rfl, rfl⟩, by decide, ⟨_, rfl, by decide⟩⟩

/-- An empty buffer; a command of the map; a data cycle and an unassigned command; a mark. -/
theorem witness_StepDeliversTheOldestCycle :
    let at_ (b : List BusItem) : State := { panel wide yes [.transport] with buffer := b }
    (∀ b, (at_ b).cfg.legal = true ∧ (at_ b).turn = .transport) ∧ (at_ []).buffer = [] ∧
    ((at_ [.cycle (.driven .low) 0x2C]).buffer = [.cycle (.driven .low) 0x2C] ∧
      decodeCycle (cycleBits .low 0x2C) = .ok .wireMemoryWrite) ∧
    decodeCycle (cycleBits .high 0x2C) = .error .dataCycle ∧
    decodeCycle (cycleBits .low 0x21) = .error (.notInCommandMap 0x21) ∧
    (at_ [.note .aborted]).buffer = [.note .aborted] :=
  ⟨fun _ => ⟨rfl, rfl⟩, rfl, ⟨rfl, by decide⟩, by decide, by decide, rfl⟩

/-- An event of the list (on either turn); the end; a missing and a present payload element; one off the
canvas. -/
theorem witness_StepPerformsOneEvent :
    let s (port : List Word) (q : Seq) : State := { panel wide yes [.event] with port := port, seq := q }
    (∀ p q, (s p q).cfg.legal = true ∧ (s p q).turn = .event ∧ (s p q).seq = q) ∧
    (panel wide yes [.request]).turn = .request ∧
    (planOf wide (.writeCommand 1)).acts[0]? = some (.drive .dc .low) ∧
    (planOf wide (.writeCommand 1)).acts[2]? = none ∧
    ((planOf wide (.sendData (.other 3 []))).acts[1]? = none ∧ (planOf wide (.sendData (.other 3 []))).streams = false) ∧
    ((planOf wide (.sendCommand [])).acts[1]? = none ∧ (planOf wide (.sendCommand [])).streams = true ∧
      (s [] (.busy (.sendCommand []) 1 1)).port.length < elementWords (.sendCommand []) ∧
      elementWords (.sendCommand []) ≤ (s [0x2A] (.busy (.sendCommand []) 1 1)).port.length ∧
      admitted wide ((Instr.sendCommand []).withElements [0x2A]) = true) ∧
    ((planOf wide (.drawPixels [])).acts[0]? = none ∧ (planOf wide (.drawPixels [])).streams = true ∧
      elementWords (.drawPixels []) ≤ (s [480, 0, 0] (.busy (.drawPixels []) 0 1)).port.length ∧
      admitted wide ((Instr.drawPixels []).withElements [480, 0, 0]) = false) :=
  ⟨fun _ _ => ⟨rfl, rfl, rfl⟩, by decide, by decide, by decide, by decide, by decide, by decide⟩

/-- More words on the port than are to be discarded, and fewer. -/
theorem witness_UnreadPayloadIsDiscarded :
    let s : State := { panel wide [] [.request] with port := [0xAA, 0x0B], discard := 1 }
    let u : State := { panel wide [] [.event] with port := [0xAA], discard := 2 }
    (s.cfg.legal = true ∧ s.turn = .request ∧ s.seq = .idle ∧ 0 < s.discard ∧ s.discard ≤ s.port.length) ∧
    (u.cfg.legal = true ∧ u.turn = .event ∧ u.seq = .idle ∧ 0 < u.discard ∧ u.port.length < u.discard) := by decide

/-- Canvases of no width and of one column too many; a hang at a word and at a delay; a triple refused in
a fetched request and in a begun one. -/
theorem witness_OnlyTheseStops :
    (panel (canvas 0 1) [] []).cfg.legal = false ∧ (panel (canvas 65537 1) [] []).cfg.legal = false ∧
    step { panel wide yes [.hang] with seq := .busy (.writeCommand 1) 1 0 } = .fault .requestHung ∧
    step { panel (small true true t1) yes [.hang] with seq := .busy .hardReset 1 0 } = .fault .requestHung ∧
    step { panel wide yes [.request] with port := [0x0C, 1, 480, 0, 0] } = .refused .pixelOutsideCanvas ∧
    step { panel wide yes [.event] with seq := .busy (.drawPixels []) 0 1, port := [480, 0, 0] } =
      .refused .pixelOutsideCanvas :=
  ⟨by decide, by decide, rfl, rfl, rfl, rfl⟩

theorem witness_EventStepsAgreeWithWholeRequest :
    let s : State := { panel wide yes [] with port := [0xAB2C5503, 0x0000000B] }
    s.cfg.legal = true ∧ s.seq = .idle ∧ s.discard = 0 ∧
    decodeRequest s.port = .ok (.writeCommand 0x2C, [0x0000000B]) ∧
    ∃ t, exec (.writeCommand 0x2C) { s with port := [0x0000000B], schedule := [] } = .next t :=
  ⟨rfl, rfl, rfl, by decide, ⟨_, rfl⟩⟩

/-- A request on the port of a constructed block: the invariants of the premises hold, and a step is
made. -/
def begun : State := { panel (small true true t1) yes [.request] with port := [0x002C0003] }

theorem begun_steps : ∃ t, step begun = .next t := ⟨_, rfl⟩

theorem witness_StepKeepsTraceAndWireCoherent : begun.Coherent ∧ ∃ t, step begun = .next t :=
  ⟨⟨fun line => by cases line <;> rfl, rfl⟩, begun_steps⟩

theorem witness_StepKeepsEventsLegal : begun.EventsLegal ∧ ∃ t, step begun = .next t :=
  ⟨fun e h => (by cases h), begun_steps⟩

/-- Idle, and in the middle of a request whose first event is on the trace. -/
theorem witness_StepKeepsEventsWellPlaced :
    (begun.WellPlaced ∧ ∃ t, step begun = .next t) ∧
    ({ begun with seq := .busy (.writeCommand 1) 1 0, tr := [.drive .dc .low], dc := .driven .low } : State).WellPlaced :=
  ⟨⟨⟨trivial, fun c h => (by cases h), rfl⟩, begun_steps⟩,
   ⟨⟨by decide, [], rfl⟩, fun c h => (by cases h), rfl⟩⟩

theorem witness_StepKeepsFrameMemoryCanonical :
    (begun.sink.Canonical ∧ ∃ t, step begun = .next t) ∧
    (ready.takeCycles (window1122 ++ [C 0x002C, V 1, V 2, V 3, V 4])).Canonical :=
  ⟨⟨⟨rfl, fun _ => rfl⟩, begun_steps⟩, ⟨by decide, by decide⟩⟩

theorem witness_StepKeepsConfigurationAndAbsentLines :
    (∃ t, step begun = .next t) ∧ begun.AbsentUndriven ∧ big.AbsentUndriven :=
  ⟨begun_steps, ⟨fun _ => rfl, fun _ => rfl⟩, ⟨fun _ => rfl, fun _ => rfl⟩⟩

end Sys2Proof.Tests
end

section
/-! SUPPORT. What a step does to the trace, the latches and the bus, said once (`Extends`): the step's
events go behind the trace, and the latches and the cycles follow them. -/

namespace Sys2Proof.Machine

/-- `t` comes from `s` by the events `es` (R9, R10): they stand behind the trace, the latches are what
they make them, and their cycles stand behind those on the pins and in the buffer. The configuration and
the host are as before. -/
structure Extends (s t : State) (es : List Event) : Prop where
  tr : t.tr = s.tr ++ es
  latch : ∀ line, t.latch line = latchAfter line (s.latch line) es
  cycles : t.pins ++ cyclesOf t.buffer = s.pins ++ cyclesOf s.buffer ++ wireFrom s.dc es
  cfg : t.cfg = s.cfg
  host : t.host = s.host

theorem Ran.extends {s t : State} {as : List Action} (h : Ran s t as) : Extends s t (as.map eventOf) :=
  ⟨h.tr, h.latch, h.cycles, h.cfg, h.host⟩

theorem Extends.trans {s t u : State} {es fs : List Event} (h : Extends s t es) (k : Extends t u fs) :
    Extends s u (es ++ fs) where
  tr := by simp [k.tr, h.tr]
  latch line := by rw [k.latch, h.latch, latchAfter_append]
  cycles := by
    have hd : t.dc = latchAfter .dc s.dc es := h.latch .dc
    rw [k.cycles, h.cycles, wireFrom_append, hd, List.append_assoc]
  cfg := k.cfg.trans h.cfg
  host := k.host.trans h.host

/-- A change without an event. -/
theorem Extends.silent {s t : State} (htr : t.tr = s.tr) (hdc : t.dc = s.dc) (hrst : t.rst = s.rst)
    (hbl : t.bl = s.bl) (hcycles : t.pins ++ cyclesOf t.buffer = s.pins ++ cyclesOf s.buffer)
    (hcfg : t.cfg = s.cfg) (hhost : t.host = s.host) : Extends s t [] where
  tr := by simp [htr]
  latch line := by cases line <;> assumption
  cycles := by simpa [wireFrom] using hcycles
  cfg := hcfg
  host := hhost

theorem Extends.refl (s : State) : Extends s s [] := (Ran.refl s).extends

/-- A change without an event after the events `es`. -/
theorem Extends.thenSilent {s t u : State} {es : List Event} (h : Extends s t es) (k : Extends t u []) :
    Extends s u es := by
  simpa using h.trans k

theorem State.useTurn_extends (s : State) : Extends s s.useTurn [] :=
  .silent (by simp) (by simp) (by simp) (by simp) (by simp) (by simp) (by simp)

theorem State.setPort_extends (s : State) (p : List Word) : Extends s { s with port := p } [] :=
  .silent rfl rfl rfl rfl rfl rfl rfl

theorem State.openRequest_extends (s : State) (p : Plan) : Extends s (s.openRequest p) [] :=
  .silent rfl rfl rfl rfl (by simp [cyclesOf_append]) rfl rfl

theorem State.raise_extends (s : State) (c : Status) (n : Nat) : Extends s (s.raise c n) [] :=
  .silent (by simp) (by simp) (by simp) (by simp) (by rw [State.raise_cycles, State.raise_pins])
    (by simp) (by simp)

theorem State.conclude_extends (s : State) (p : Plan) (n : Nat) : Extends s (s.conclude p n) [] := by
  obtain ⟨htr, -, hdc, hrst, hbl, hcfg, hpins, -, -⟩ := s.conclude_fields p n
  refine .silent htr hdc hrst hbl (by rw [State.conclude_cycles, hpins]) hcfg ?_
  unfold State.conclude
  split <;> simp

theorem State.conclude_seq (s : State) (p : Plan) (n : Nat) : (s.conclude p n).seq = .idle := by
  obtain ⟨-, -, -, -, -, -, -, -, hidle⟩ := s.conclude_fields p n
  exact hidle

/-- A drive that fails is the event `DriveFail` (R171). -/
theorem State.drive_extends (s : State) (line : Line) (l : Level) (h : s.answerAt 0 = false) :
    Extends s (s.drive line l).1 [.driveFail line l] := by
  obtain ⟨htr, hU, hother, hcycles, hcfg, -, -⟩ := State.drive_false s line l h
  refine ⟨htr, fun m => ?_, by simpa [wireFrom] using hcycles, hcfg, by simp [State.drive_fail line l h]⟩
  by_cases hm : line = m
  · subst hm; simpa [latchAfter] using hU
  · simpa [latchAfter, hm] using hother m (Ne.symm hm)

/-- The drive at which a request stopped, or nothing (R176). -/
def EndOfRun (es : List Event) : Prop := es = [] ∨ ∃ line l, es = [.driveFail line l]

/-- A whole request performs a first part of its event list, and stops there with a failed drive unless
that part is everything (R11, R176). -/
theorem State.runPlan_extends (s : State) (p : Plan) :
    ∃ k es, EndOfRun es ∧ Extends s (s.runPlan p) ((p.acts.take k).map eventOf ++ es) := by
  have ho := s.openRequest_extends p
  rcases s.runPlan_cases p with ⟨t, -, hran, he⟩ | ⟨before, line, l, after, u, hp, -, hran, h0, he⟩
  · refine ⟨p.acts.length, [], .inl rfl, ?_⟩
    rw [he, List.take_length, List.append_nil]
    exact (ho.trans hran.extends).thenSilent (t.conclude_extends p 0)
  · refine ⟨before.length, _, .inr ⟨line, l, rfl⟩, ?_⟩
    rw [he, hp, List.take_left]
    exact ((ho.trans hran.extends).trans (u.drive_extends line l h0)).thenSilent
      (State.raise_extends _ _ _)

/-- A whole request leaves the sequencer idle (R11). -/
theorem State.runPlan_seq (s : State) (p : Plan) : (s.runPlan p).seq = .idle := by
  rcases s.runPlan_cases p with ⟨t, -, -, he⟩ | ⟨before, line, l, after, u, -, -, -, -, he⟩
  · rw [he, State.conclude_seq]
  · rw [he, State.raise_seq]

/-- Every move but the host's puts its events behind the trace. -/
theorem StepTo.extends {u t : State} (h : StepTo u t) : ∃ es, Extends u t es := by
  cases h with
  | stay => exact ⟨_, .refl u⟩
  | skip => exact ⟨_, .silent rfl rfl rfl rfl rfl rfl rfl⟩
  | bad p hs => exact ⟨_, (u.setPort_extends p).thenSilent (State.raise_extends _ .badRequest 0)⟩
  | accept i len p hs hi =>
    exact ⟨_, .silent rfl rfl rfl rfl (by simp [cyclesOf_append]) rfl rfl⟩
  | whole i p hs hi ha =>
    obtain ⟨k, es, -, he⟩ := State.runPlan_extends { u with port := p } (planOf u.cfg i)
    exact ⟨_, (u.setPort_extends p).trans he⟩
  | event i k owed a v hs hk hp =>
    exact ⟨_, (State.perform_ran u v a hp).extends.thenSilent (.silent rfl rfl rfl rfl rfl rfl rfl)⟩
  | eventFail i k owed n line l hs hk ha =>
    exact ⟨_, (u.drive_extends line l ha).thenSilent (State.raise_extends _ _ n)⟩
  | element i k owed es p hs hk hst he => exact ⟨_, .silent rfl rfl rfl rfl rfl rfl rfl⟩
  | finish i k owed n hs hk => exact ⟨_, u.conclude_extends _ n⟩
  | arrive b rest hb =>
    refine ⟨_, .silent rfl rfl rfl rfl ?_ rfl rfl⟩
    rw [hb, List.append_assoc, ← cyclesOf_append, List.singleton_append]

end Sys2Proof.Machine
end

section
/-! SUPPORT. The invariant of R9, R10, R31 and R61: the latches and the wire view are what the trace says. -/

namespace Sys2Proof.Machine

/-- Events performed keep the latches and the wire view what the trace says. -/
theorem State.Coherent.extends {s t : State} {es : List Event} (h : s.Coherent) (k : Extends s t es) :
    t.Coherent := by
  obtain ⟨hlatch, hwire⟩ := h
  have hdc : s.dc = latchAfter .dc .U s.tr := hlatch .dc
  refine ⟨fun line => ?_, ?_⟩
  · rw [k.latch, hlatch, k.tr, latchAfter_append]
  · rw [k.tr, k.cycles, hdc, ← hwire, wire, wireFrom_append]
    rfl

/-- The host's move touches no latch, no event and no cycle. -/
theorem State.Coherent.hostMove {s : State} (h : s.Coherent) : s.hostMove.Coherent := by
  obtain ⟨ws, side, e⟩ := s.hostMove_eq
  rw [e]
  exact h

/-- Settles O53: every move but the host's `Extends` the state, and that keeps coherence. -/
theorem stepKeepsTraceAndWireCoherent : Obligations.StepKeepsTraceAndWireCoherent := by
  intro s t hs h
  have hu : s.useTurn.Coherent := hs.extends s.useTurn_extends
  rcases step_cases h with ⟨-, rfl⟩ | hto
  · exact hu.hostMove
  · obtain ⟨es, he⟩ := hto.extends
    exact hu.extends he

end Sys2Proof.Machine
end

section
/-! SUPPORT. The invariant of R10, R80, R140 and R141: legal cycles and delays in their places. -/

namespace Sys2Proof.Machine

/-- Every cycle of the trace is legal, and every delay stands where it may (R10, R80, R140, R141). -/
def PlacedTrace (tr : List Event) : Prop :=
  (∀ c ∈ wire tr, cycleLegal c = true) ∧ delaysPlaced none tr = true

theorem PlacedTrace.left {tr es : List Event} (h : PlacedTrace (tr ++ es)) : PlacedTrace tr := by
  obtain ⟨hc, hd⟩ := h
  refine ⟨fun c hmem => hc c ?_, by simpa using delaysPlaced_take none (tr ++ es) tr.length hd⟩
  rw [wire, wireFrom_append]
  exact List.mem_append_left _ hmem

/-- Events with legal cycles and delays in their places, whatever stood before them. -/
theorem PlacedTrace.append {tr es : List Event} (h : PlacedTrace tr)
    (hc : ∀ d, ∀ c ∈ wireFrom d es, cycleLegal c = true) (hd : delaysPlaced none es = true) :
    PlacedTrace (tr ++ es) := by
  refine ⟨fun c hmem => ?_, delaysPlaced_append none tr es h.2 hd⟩
  rw [wire, wireFrom_append] at hmem
  exact (List.mem_append.1 hmem).elim (h.1 c) (hc _ c)

/-- The first events of a request's list (R22). -/
theorem PlacedTrace.append_plan {tr : List Event} (h : PlacedTrace tr) (c : Config) (i : Instr) (k : Nat) :
    PlacedTrace (tr ++ ((planOf c i).acts.take k).map eventOf) := by
  refine h.append ((planOf_cyclesOk c i).take k) ?_
  rw [List.map_take]
  exact delaysPlaced_take _ _ _ (planOf_delaysPlaced c i)

/-- A failed drive makes no cycle and is no delay. -/
theorem PlacedTrace.append_end {tr es : List Event} (h : PlacedTrace tr) (he : EndOfRun es) :
    PlacedTrace (tr ++ es) := by
  obtain rfl | ⟨line, l, rfl⟩ := he
  · simpa using h
  · exact h.append (fun d c hmem => by simp [wireFrom] at hmem) rfl

theorem State.inStep_of_idle {s : State} (h : s.seq = .idle) : s.inStep := by
  simp [State.inStep, h]

theorem State.inStep_busy {s : State} {i : Instr} {k owed : Nat} (h : s.seq = .busy i k owed) :
    s.inStep ↔ k ≤ (planOf s.cfg i).acts.length ∧
      ∃ before, s.tr = before ++ ((planOf s.cfg i).acts.take k).map eventOf := by
  simp [State.inStep, h]

/-- An event performed brings the trace one event further in the request's list (R22). -/
theorem wellPlaced_event {u t : State} {i : Instr} {k owed : Nat} {a : Action} (h : u.WellPlaced)
    (hs : u.seq = .busy i k owed) (hk : (planOf u.cfg i).acts[k]? = some a)
    (hp : u.perform a = (t, true)) : ({ t with seq := .busy i (k + 1) owed } : State).WellPlaced := by
  obtain ⟨hin, hplaced⟩ := h
  obtain ⟨-, before, htr⟩ := (State.inStep_busy hs).1 hin
  have hran := State.perform_ran u t a hp
  have htake : (planOf u.cfg i).acts.take (k + 1) = (planOf u.cfg i).acts.take k ++ [a] := by
    rw [List.take_add_one, hk]; rfl
  have htr' : t.tr = before ++ ((planOf u.cfg i).acts.take (k + 1)).map eventOf := by
    rw [hran.tr, htr, htake, List.map_append, List.append_assoc]
  refine ⟨(State.inStep_busy rfl).2 ?_, ?_⟩
  · rw [show ({ t with seq := .busy i (k + 1) owed } : State).cfg = u.cfg from hran.cfg]
    exact ⟨(List.getElem?_eq_some_iff.1 hk).1, before, htr'⟩
  · change PlacedTrace t.tr
    rw [htr']
    have hb : PlacedTrace u.tr := hplaced
    rw [htr] at hb
    exact hb.left.append_plan u.cfg i (k + 1)

/-- A payload element read leaves the events performed at the head of the longer list (R95). -/
theorem wellPlaced_element {u : State} {i : Instr} {k owed owed' : Nat} {es p : List Word}
    (h : u.WellPlaced) (hs : u.seq = .busy i k owed)
    (hst : (planOf u.cfg i).streams = true) (he : es.length = elementWords i) :
    ({ u with port := p, seq := .busy (i.withElements es) k owed' } : State).WellPlaced := by
  obtain ⟨hin, hplaced⟩ := h
  obtain ⟨hle, before, htr⟩ := (State.inStep_busy hs).1 hin
  obtain ⟨more, hmore⟩ := planOf_withElements_streams u.cfg i es 1 hst (by rw [he, Nat.mul_one])
  refine ⟨(State.inStep_busy rfl).2 ?_, hplaced⟩
  simp only [hmore, List.length_append]
  exact ⟨by omega, before, by rw [htr, List.take_append_of_le_length hle]⟩

/-- Every move but the host's keeps cycles legal and delays in their places. -/
theorem StepTo.wellPlaced {u t : State} (h : u.WellPlaced) (hto : StepTo u t) : t.WellPlaced := by
  have hplaced : PlacedTrace u.tr := h.2
  cases hto with
  | stay => exact h
  | skip => exact h
  | bad p hs => exact ⟨State.inStep_of_idle rfl, hplaced⟩
  | accept i len p hs hi =>
    exact ⟨(State.inStep_busy rfl).2 ⟨Nat.zero_le _, u.tr, by simp⟩, hplaced⟩
  | whole i p hs hi ha =>
    obtain ⟨k, es, hend, he⟩ := State.runPlan_extends { u with port := p } (planOf u.cfg i)
    refine ⟨State.inStep_of_idle (State.runPlan_seq _ _), ?_⟩
    change PlacedTrace _
    rw [he.tr, ← List.append_assoc]
    exact (hplaced.append_plan u.cfg i k).append_end hend
  | event i k owed a v hs hk hp => exact wellPlaced_event h hs hk hp
  | eventFail i k owed n line l hs hk ha =>
    refine ⟨State.inStep_of_idle (State.raise_seq _ _ _), ?_⟩
    change PlacedTrace _
    rw [State.raise_tr, (u.drive_extends line l ha).tr]
    exact hplaced.append_end (.inr ⟨line, l, rfl⟩)
  | element i k owed es p hs hk hst he => exact wellPlaced_element h hs hst he
  | finish i k owed n hs hk =>
    refine ⟨State.inStep_of_idle (State.conclude_seq _ _ _), ?_⟩
    change PlacedTrace _
    rw [(u.conclude_extends _ n).tr, List.append_nil]
    exact hplaced
  | arrive b rest hb => exact h

/-- The host's move touches no event and not the sequencer. -/
theorem State.WellPlaced.hostMove {s : State} (h : s.WellPlaced) : s.hostMove.WellPlaced := by
  obtain ⟨ws, side, e⟩ := s.hostMove_eq
  rw [e]
  exact h

theorem State.WellPlaced.useTurn {s : State} (h : s.WellPlaced) : s.useTurn.WellPlaced := by
  simpa [State.WellPlaced, State.inStep] using h

/-- Settles O55: a request's event list has legal cycles and delays in their places, and the trace of a
busy sequencer ends in the first events of that list. -/
theorem stepKeepsEventsWellPlaced : Obligations.StepKeepsEventsWellPlaced := by
  intro s t hs h
  rcases step_cases h with ⟨-, rfl⟩ | hto
  · exact hs.useTurn.hostMove
  · exact hto.wellPlaced hs.useTurn

end Sys2Proof.Machine
end
section
/-! SUPPORT. The turns of the sequencer and of the host (R7, R11, R22, R186). -/

namespace Sys2Proof.Machine

/-- The step of a legal configuration is the move of the turn (R35). -/
theorem step_legal {s : State} (hl : s.cfg.legal = true) : step s = moveOf s.turn s.useTurn := by
  simp [step, hl]

/-- A whole request on the port is what an idle sequencer fetches (R85, R95). -/
theorem fetchRequest_whole {s : State} {i : Instr} {rest : List Word} (hd : s.discard = 0)
    (h : decodeRequest s.port = .ok (i, rest)) : fetchRequest s = .whole i { s with port := rest } := by
  simp [fetchRequest, hd, h]

/-- Settles O45: the turn `request` fetches the decoded request and runs it. -/
theorem stepRunsTheDecodedRequest : Obligations.StepRunsTheDecodedRequest := by
  intro s i rest hl ht hs hd hr
  rw [step_legal hl, ht]
  simp [moveOf, requestMove, hs, fetchRequest_whole (s := s.useTurn) (by simpa using hd)
    (by simpa using hr)]

/-- Settles O47: the host's move by its own cases; every other move `Extends` the state, which leaves
the host as it was. -/
theorem hostIssuesOneRequestAtATime : Obligations.HostIssuesOneRequestAtATime := by
  refine ⟨fun s hl ht => ?_, fun s t h hne => ?_⟩
  · rw [step_legal hl, ht]
    refine ⟨fun w ws hw => ?_, fun n hw ha hn => ?_, fun n hw ha hn => ?_, fun r rs hw ha hr => ?_,
      fun hw ha hr => ?_⟩
    · simp [moveOf, State.hostMove, hw]
    · simp [moveOf, State.hostMove, hw, ha, Nat.not_lt.2 hn]
    · simp [moveOf, State.hostMove, hw, ha, hn]
    · simp [moveOf, State.hostMove, hw, ha, hr]
    · simp [moveOf, State.hostMove, hw, ha, hr]
  · rcases step_cases h with ⟨ht, -⟩ | hto
    · exact absurd ht hne
    · obtain ⟨es, he⟩ := hto.extends
      rw [he.host, State.useTurn_host]

end Sys2Proof.Machine
end

section
/-! SUPPORT. Every way in which a step stops (R6, R209, R152), said once (`step_outcome`). -/

namespace Sys2Proof.Machine

/-- Under `P` the move is refused for a triple off the canvas, and else it gives a next state. -/
def RefusedWhen (P : Prop) (o : Host.Outcome State Fault Refusal) : Prop :=
  (P ∧ o = .refused .pixelOutsideCanvas) ∨ (¬ P ∧ ∃ t, o = .next t)

theorem RefusedWhen.of_next {P : Prop} {t : State} {o : Host.Outcome State Fault Refusal} (hP : ¬ P)
    (h : o = .next t) : RefusedWhen P o :=
  .inr ⟨hP, t, h⟩

/-- The request an idle sequencer fetches whole is not admitted (R152). -/
def State.refusesFetched (s : State) : Prop :=
  s.seq = .idle ∧ s.discard = 0 ∧
    ∃ i rest, decodeRequest s.port = .ok (i, rest) ∧ admitted s.cfg i = false

/-- The payload element a busy sequencer reads makes a request that is not admitted (R95, R152). -/
def State.refusesElement (s : State) : Prop :=
  ∃ i k owed, s.seq = .busy i k owed ∧ (planOf s.cfg i).acts[k]? = none ∧
    (planOf s.cfg i).streams = true ∧ 0 < owed ∧ elementWords i ≤ s.port.length ∧
    admitted s.cfg (i.withElements (s.port.take (elementWords i))) = false

/-- The turns on which a triple off the canvas is met. -/
def State.refusesOn (s : State) (m : Turn) : Prop :=
  m = .request ∧ s.refusesFetched ∨ (m = .request ∨ m = .event) ∧ s.refusesElement

theorem State.not_refusesElement_of_idle {s : State} (hs : s.seq = .idle) : ¬ s.refusesElement := by
  simp [State.refusesElement, hs]

/-- A wire command and an admitted request give a next state; any other request is refused (R152). -/
theorem exec_outcome (i : Instr) (s : State) : RefusedWhen (admitted s.cfg i = false) (exec i s) := by
  cases ha : admitted s.cfg i with
  | true =>
    cases hi : isRequest i with
    | true => exact .of_next (by simp) (exec_request i s hi ha)
    | false =>
      obtain ⟨f, hf⟩ := exec_wire i s hi
      exact .of_next (by simp) hf
  | false =>
    refine .inl ⟨rfl, ?_⟩
    cases i with
    | drawPixels ps => simp [exec, execDrawPixels, ha]
    | _ => simp [admitted] at ha

theorem advance_outcome {s : State} {i : Instr} {k owed : Nat} (hs : s.seq = .busy i k owed) :
    RefusedWhen s.refusesElement (s.advance i k owed) := by
  have hP : s.refusesElement ↔ (planOf s.cfg i).acts[k]? = none ∧ (planOf s.cfg i).streams = true ∧
      0 < owed ∧ elementWords i ≤ s.port.length ∧
      admitted s.cfg (i.withElements (s.port.take (elementWords i))) = false := by
    simp [State.refusesElement, hs]
  unfold State.advance
  dsimp only
  split
  · rename_i a hk
    rcases s.perform a with ⟨t, _ | _⟩ <;> exact .of_next (by simp [hP, hk]) rfl
  · rename_i hk
    split
    · rename_i hread
      simp only [Bool.and_eq_true, decide_eq_true_eq] at hread
      unfold State.readElement
      dsimp only
      split
      · exact .of_next (by rw [hP]; omega) rfl
      · rename_i hlen
        split
        · rename_i ha
          exact .of_next (by simp [hP, ha]) rfl
        · rename_i ha
          exact .inl ⟨hP.2 ⟨hk, hread.1, hread.2, by omega, by simpa using ha⟩, rfl⟩
    · rename_i hread
      refine .of_next (fun h => hread ?_) rfl
      obtain ⟨-, hst, ho, -⟩ := hP.1 h
      simp [hst, ho]

theorem eventMove_outcome (s : State) : RefusedWhen s.refusesElement (eventMove s) := by
  unfold eventMove
  split
  · exact advance_outcome (by assumption)
  · rename_i hs
    split <;> exact .of_next (State.not_refusesElement_of_idle hs) rfl

/-- The request an idle sequencer performs at once is the one that decodes from the port. -/
theorem fetchRequest_whole_iff {s t : State} {i : Instr} :
    fetchRequest s = .whole i t ↔
      s.discard = 0 ∧ ∃ rest, decodeRequest s.port = .ok (i, rest) ∧ t = { s with port := rest } := by
  refine ⟨fun h => ?_, ?_⟩
  · unfold fetchRequest at h
    split at h
    · rename_i hd
      split at h
      · rename_i r hr
        obtain ⟨rfl, rfl⟩ := Fetched.whole.inj h
        exact ⟨hd, r.2, hr, rfl⟩
      · rcases fetchHeader_cases s with hf | hf | ⟨p, hf⟩ | ⟨j, len, p, -, hf⟩ <;> simp [hf] at h
    · simp at h
  · rintro ⟨hd, rest, hr, rfl⟩
    exact fetchRequest_whole hd hr

theorem State.refusesFetched_of_idle {s : State} (hs : s.seq = .idle) :
    s.refusesFetched ↔ ∃ i t, fetchRequest s = .whole i t ∧ admitted t.cfg i = false := by
  simp only [State.refusesFetched, hs, true_and, fetchRequest_whole_iff]
  refine ⟨?_, ?_⟩
  · rintro ⟨hd, i, rest, hr, ha⟩
    exact ⟨i, _, ⟨hd, rest, hr, rfl⟩, ha⟩
  · rintro ⟨i, _, ⟨hd, rest, hr, rfl⟩, ha⟩
    exact ⟨hd, i, rest, hr, ha⟩

theorem requestMove_outcome (s : State) :
    RefusedWhen (s.refusesFetched ∨ s.refusesElement) (requestMove s) := by
  unfold requestMove
  split
  · rename_i i k owed hs
    simpa [State.refusesFetched, hs] using advance_outcome hs
  · rename_i hs
    simp only [State.not_refusesElement_of_idle hs, or_false, State.refusesFetched_of_idle hs]
    cases hf : fetchRequest s with
    | whole i t => simpa [hf] using exec_outcome i t
    | wait t => exact .of_next (by simp) rfl
    | bad t => exact .of_next (by simp) rfl
    | header i len t => exact .of_next (by simp) rfl

theorem transportMove_outcome (s : State) : ∃ t, transportMove s = .next t := by
  cases hb : s.buffer with
  | nil => exact ⟨_, transportMove_nil hb⟩
  | cons b rest => exact ⟨_, transportMove_cons hb⟩

/-- A turn that is not a hang at a pending word or delay is refused for a triple off the canvas only. -/
theorem moveOf_outcome (m : Turn) (s : State) (h : ¬ (m = .hang ∧ s.mayHang = true)) :
    RefusedWhen (s.refusesOn m) (moveOf m s) := by
  cases m with
  | request => simpa [State.refusesOn, moveOf] using requestMove_outcome s
  | event => simpa [State.refusesOn, moveOf] using eventMove_outcome s
  | host => exact .of_next (by simp [State.refusesOn]) rfl
  | transport =>
    obtain ⟨t, ht⟩ := transportMove_outcome s
    exact .of_next (by simp [State.refusesOn]) ht
  | stall => exact .of_next (by simp [State.refusesOn]) rfl
  | hang => exact .of_next (t := s) (by simp [State.refusesOn]) (by simpa [moveOf] using h)

@[simp] theorem State.useTurn_refusesOn (s : State) (m : Turn) : s.useTurn.refusesOn m ↔ s.refusesOn m := by
  simp [State.refusesOn, State.refusesFetched, State.refusesElement]

@[simp] theorem State.useTurn_mayHang (s : State) : s.useTurn.mayHang = s.mayHang := by
  simp [State.mayHang]

/-- The four ways a step can go, each with its condition (R6, R209, R152). -/
theorem step_outcome (s : State) :
    (s.cfg.legal = false ∧ step s = .refused .illegalConfiguration) ∨
    (s.cfg.legal = true ∧ (s.turn = .hang ∧ s.mayHang = true) ∧ step s = .fault .requestHung) ∨
    (s.cfg.legal = true ∧ s.refusesOn s.turn ∧ step s = .refused .pixelOutsideCanvas) ∨
    (s.cfg.legal = true ∧ ¬ (s.turn = .hang ∧ s.mayHang = true) ∧ ¬ s.refusesOn s.turn ∧
      ∃ t, step s = .next t) := by
  cases hl : s.cfg.legal with
  | false => simp [step, hl]
  | true =>
    rw [step_legal hl]
    by_cases hh : s.turn = .hang ∧ s.mayHang = true
    · simp [hh, moveOf]
    · rcases moveOf_outcome s.turn s.useTurn (by simpa using hh) with ⟨hP, ho⟩ | ⟨hP, ho⟩
      · exact .inr (.inr (.inl ⟨rfl, by simpa using hP, ho⟩))
      · exact .inr (.inr (.inr ⟨rfl, hh, by simpa using hP, ho⟩))

/-- What can hang is a pending word or delay (R209). -/
theorem State.mayHang_iff (s : State) :
    s.mayHang = true ↔ ∃ i k owed, s.seq = .busy i k owed ∧
      ((∃ w, (planOf s.cfg i).acts[k]? = some (.write w)) ∨
        (∃ ms, (planOf s.cfg i).acts[k]? = some (.delay ms))) := by
  unfold State.mayHang
  cases hs : s.seq with
  | idle => simp
  | busy i k owed =>
    rcases hk : (planOf s.cfg i).acts[k]? with _ | ⟨line, l⟩ | w | ms <;> simp [hk]

/-- A request is not admitted when it is a `draw_pixels` with a triple off the canvas, under the policy
`refuse` (R152, U5). -/
theorem admitted_false_iff (c : Config) (i : Instr) :
    admitted c i = false ↔ c.pixelOob = .refuse ∧ ∃ ps, i = .drawPixels ps ∧
      ∃ p ∈ ps, ¬ (0 ≤ p.x ∧ p.x < c.width ∧ 0 ≤ p.y ∧ p.y < c.height) := by
  cases i with
  | drawPixels ps => simp [admitted, onCanvas, and_assoc]
  | _ => simp [admitted]

theorem withElements_eq_drawPixels (i : Instr) (ws : List Word) (ps : List Pixel) :
    i.withElements ws = .drawPixels ps ↔ ∃ qs, i = .drawPixels qs ∧ ps = qs ++ pixelsOfWords ws := by
  cases i <;> simp [Instr.withElements, eq_comm]

/-- A triple off the canvas in the `draw_pixels` that is fetched (R152). -/
theorem State.refusesFetched_iff (s : State) :
    s.refusesFetched ↔ s.cfg.pixelOob = .refuse ∧ ∃ ps : List Pixel,
      (∃ p ∈ ps, ¬ (0 ≤ p.x ∧ p.x < s.cfg.width ∧ 0 ≤ p.y ∧ p.y < s.cfg.height)) ∧
      s.seq = .idle ∧ s.discard = 0 ∧ ∃ rest, decodeRequest s.port = .ok (.drawPixels ps, rest) := by
  simp only [State.refusesFetched, admitted_false_iff]
  constructor
  · rintro ⟨hs, hd, _, rest, hr, hp, ps, rfl, hoff⟩
    exact ⟨hp, ps, hoff, hs, hd, rest, hr⟩
  · rintro ⟨hp, ps, hoff, hs, hd, rest, hr⟩
    exact ⟨hs, hd, _, rest, hr, hp, ps, rfl, hoff⟩

/-- A triple off the canvas in the `draw_pixels` begun, with the element just read (R95, R152). -/
theorem State.refusesElement_iff (s : State) :
    s.refusesElement ↔ s.cfg.pixelOob = .refuse ∧ ∃ ps : List Pixel,
      (∃ p ∈ ps, ¬ (0 ≤ p.x ∧ p.x < s.cfg.width ∧ 0 ≤ p.y ∧ p.y < s.cfg.height)) ∧
      ∃ qs k owed, s.seq = .busy (.drawPixels qs) k owed ∧
        (planOf s.cfg (.drawPixels qs)).acts[k]? = none ∧ 0 < owed ∧ 3 ≤ s.port.length ∧
        ps = qs ++ pixelsOfWords (s.port.take 3) := by
  simp only [State.refusesElement, admitted_false_iff, withElements_eq_drawPixels]
  constructor
  · rintro ⟨_, k, owed, hs, hk, -, ho, hlen, hp, _, ⟨qs, rfl, rfl⟩, hoff⟩
    exact ⟨hp, _, hoff, qs, k, owed, hs, hk, ho, hlen, rfl⟩
  · rintro ⟨hp, _, hoff, qs, k, owed, hs, hk, ho, hlen, rfl⟩
    exact ⟨_, k, owed, hs, hk, rfl, ho, hlen, hp, _, ⟨qs, rfl, rfl⟩, hoff⟩

/-- Settles O51: the four ways of a step exclude each other, so each stop has exactly its condition. -/
theorem onlyTheseStops : Obligations.OnlyTheseStops := by
  refine ⟨fun s => ?_, fun s r => ?_, fun s => ?_, fun s r hr => ?_⟩
  · rcases step_outcome s with ⟨hl, h⟩ | ⟨hl, -, h⟩ | ⟨hl, -, h⟩ | ⟨hl, -, -, t, h⟩ <;> simp [h, hl]
  · have hfault : step s = .fault r ↔
        r = .requestHung ∧ s.cfg.legal = true ∧ s.turn = .hang ∧ s.mayHang = true := by
      cases r
      rcases step_outcome s with ⟨hl, h⟩ | ⟨hl, hh, h⟩ | ⟨hl, hP, h⟩ | ⟨hl, hh, -, t, h⟩
      · simp [h, hl]
      · simp [h, hl, hh]
      · have hne : s.turn ≠ .hang := fun ht => by simp [State.refusesOn, ht] at hP
        simp [h, hne]
      · simpa [h, hl] using hh
    rw [hfault, State.mayHang_iff]
  · have hpixel : step s = .refused .pixelOutsideCanvas ↔
        s.cfg.legal = true ∧ s.refusesOn s.turn := by
      rcases step_outcome s with ⟨hl, h⟩ | ⟨hl, hh, h⟩ | ⟨hl, hP, h⟩ | ⟨hl, -, hP, t, h⟩
      · simp [h, hl]
      · simp [h, hh.1, State.refusesOn]
      · simp [h, hl, hP]
      · simp [h, hP]
    rw [hpixel, State.refusesOn, State.refusesFetched_iff, State.refusesElement_iff]
    constructor
    · rintro ⟨hl, ⟨ht, hp, ps, hoff, h⟩ | ⟨ht, hp, ps, hoff, h⟩⟩
      · exact ⟨hl, hp, ps, hoff, .inl ⟨ht, h⟩⟩
      · exact ⟨hl, hp, ps, hoff, .inr ⟨ht, h⟩⟩
    · rintro ⟨hl, hp, ps, hoff, ⟨ht, h⟩ | ⟨ht, h⟩⟩
      · exact ⟨hl, .inl ⟨ht, hp, ps, hoff, h⟩⟩
      · exact ⟨hl, .inr ⟨ht, hp, ps, hoff, h⟩⟩
  · rcases step_outcome s with ⟨-, h⟩ | ⟨-, -, h⟩ | ⟨-, -, h⟩ | ⟨-, -, -, t, h⟩ <;> rw [h] at hr
    · exact .inl (Host.Outcome.refused.inj hr).symm
    · cases hr
    · exact .inr (Host.Outcome.refused.inj hr).symm
    · cases hr

end Sys2Proof.Machine
end
section
/-! SUPPORT. The event-by-event run of a request (R22), and that it ends as the whole request does (R11).
The state a busy sequencer is in is the state of the big step with the sequencer's own bookkeeping put
over it (`State.placed`), so the run is followed on the big step's own states. -/

namespace Sys2Proof.Machine

/-- `s` with the bookkeeping of the sequencer put over it: the port, the position, the payload words to
discard, and the turns to come. No event reads or writes these (R9). -/
def State.placed (s : State) (port : List Word) (q : Seq) (discard : Nat) (turns : List Turn) : State :=
  { s with port := port, seq := q, discard := discard, schedule := turns }

section placed
variable (s : State) (port : List Word) (q : Seq) (d : Nat) (turns : List Turn)

@[simp] theorem State.placed_cfg : (s.placed port q d turns).cfg = s.cfg := rfl
@[simp] theorem State.placed_port : (s.placed port q d turns).port = port := rfl
@[simp] theorem State.placed_seq : (s.placed port q d turns).seq = q := rfl
@[simp] theorem State.placed_discard : (s.placed port q d turns).discard = d := rfl

/-- An event does the same whatever the bookkeeping. -/
theorem State.perform_placed (a : Action) :
    (s.placed port q d turns).perform a =
      ((s.perform a).1.placed port q d turns, (s.perform a).2) := by
  cases a with
  | drive line l =>
    have ha : (s.placed port q d turns).answerAt 0 = s.answerAt 0 := rfl
    simp only [State.perform, State.drive, ha]
    cases line <;> split <;> rfl
  | write w => rfl
  | delay ms => rfl

theorem State.performAll_placed (as : List Action) :
    (s.placed port q d turns).performAll as =
      ((s.performAll as).1.placed port q d turns, (s.performAll as).2) := by
  induction as generalizing s with
  | nil => rfl
  | cons a as ih =>
    simp only [State.performAll, State.perform_placed]
    rcases s.perform a with ⟨t, _ | _⟩
    · rfl
    · exact ih t

/-- Raising makes the sequencer idle with the unread words to discard. -/
theorem State.raise_placed (c : Status) (n m : Nat) :
    (s.placed port q d turns).raise c n = (s.raise c m).placed port .idle n turns := by
  cases c <;> rfl

theorem State.conclude_placed (p : Plan) (n m : Nat) :
    (s.placed port q d turns).conclude p n = (s.conclude p m).placed port .idle n turns := by
  unfold State.conclude
  split
  · rfl
  all_goals exact State.raise_placed s port q d turns _ n m

theorem State.runPlan_placed (p : Plan) :
    (s.placed port q d turns).runPlan p = (s.runPlan p).placed port .idle 0 turns := by
  have ho : (s.placed port q d turns).openRequest p = (s.openRequest p).placed port q d turns := rfl
  unfold State.runPlan
  rw [ho, State.performAll_placed]
  rcases (s.openRequest p).performAll p.acts with ⟨t, _ | _⟩
  · exact State.raise_placed t port q d turns _ 0 0
  · exact State.conclude_placed t port q d turns p 0 0

end placed

/-- From the state `f` gives for a schedule, some `event` turns of the sequencer lead to `t`, with the
turns `turns` still to come. -/
def EventRun (turns : List Turn) (f : List Turn → State) (t : State) : Prop :=
  ∃ n, Sys2Proof.core.run n (f (List.replicate n .event ++ turns)) = .next t

theorem EventRun.refl (turns : List Turn) (f : List Turn → State) : EventRun turns f (f turns) := ⟨0, rfl⟩

/-- One `event` turn, then the run. -/
theorem EventRun.step {turns : List Turn} {s : State} {port : List Word} {q : Seq} {d : Nat}
    {g : List Turn → State} {t : State} (hl : s.cfg.legal = true)
    (hm : ∀ ts, eventMove (s.placed port q d ts) = .next (g ts)) (h : EventRun turns g t) :
    EventRun turns (s.placed port q d) t := by
  obtain ⟨n, hn⟩ := h
  refine ⟨n + 1, ?_⟩
  rw [List.replicate_succ, List.cons_append]
  exact (run_next (M := Sys2Proof.core)
    ((step_legal (s := s.placed port q d (.event :: _)) hl).trans (hm _))).trans hn

/-- The unread payload of an ended request goes in at most one step (R92). -/
theorem EventRun.skip {turns : List Turn} {s : State} (hl : s.cfg.legal = true) (es rest : List Word) :
    EventRun turns (s.placed (es ++ rest) .idle es.length) (s.placed rest .idle 0 turns) := by
  cases es with
  | nil => exact .refl turns _
  | cons w ws =>
    refine .step hl (g := s.placed rest .idle 0) (fun ts => ?_) (.refl turns _)
    simp [eventMove, fetchHeader, State.skipUnread, State.placed]

/-! ## One move of a busy sequencer -/

section moves
variable {s t : State} {i : Instr} {k owed : Nat} {port : List Word}

theorem eventMove_event {a : Action} (hk : (planOf s.cfg i).acts[k]? = some a)
    (hp : s.perform a = (t, true)) (ts : List Turn) :
    eventMove (s.placed port (.busy i k owed) 0 ts) =
      .next (t.placed port (.busy i (k + 1) owed) 0 ts) := by
  simp only [eventMove, State.placed_seq, State.advance, State.placed_cfg, hk, State.perform_placed, hp]
  rfl

theorem eventMove_fail {a : Action} (hk : (planOf s.cfg i).acts[k]? = some a)
    (hp : s.perform a = (t, false)) (ts : List Turn) :
    eventMove (s.placed port (.busy i k owed) 0 ts) =
      .next ((t.raise .controlLineFault 0).placed port .idle (owed * elementWords i) ts) := by
  simp only [eventMove, State.placed_seq, State.advance, State.placed_cfg, hk, State.perform_placed, hp]
  exact congrArg Host.Outcome.next (State.raise_placed ..)

theorem eventMove_element (hk : (planOf s.cfg i).acts[k]? = none)
    (hst : (planOf s.cfg i).streams = true) {e : List Word} (he : e.length = elementWords i)
    (ha : admitted s.cfg (i.withElements e) = true) (ts : List Turn) :
    eventMove (s.placed (e ++ port) (.busy i k (owed + 1)) 0 ts) =
      .next (s.placed port (.busy (i.withElements e) k owed) 0 ts) := by
  have hread : (e ++ port).take (elementWords i) = e ∧ (e ++ port).drop (elementWords i) = port :=
    ⟨List.take_left' he, List.drop_left' he⟩
  have hlen : ¬ (e ++ port).length < elementWords i := by rw [List.length_append]; omega
  simp only [eventMove, State.placed_seq, State.advance, State.placed_cfg, hk, hst, Nat.zero_lt_succ,
    decide_true, Bool.and_self, if_true, State.readElement, State.placed_port, hlen, if_false, hread, ha]
  rfl

theorem eventMove_end (hk : (planOf s.cfg i).acts[k]? = none)
    (h : (planOf s.cfg i).streams = false ∨ owed = 0) (ts : List Turn) :
    eventMove (s.placed port (.busy i k owed) 0 ts) =
      .next ((s.conclude (planOf s.cfg i) 0).placed port .idle (owed * elementWords i) ts) := by
  have hread : ((planOf s.cfg i).streams && decide (0 < owed)) = false := by
    rcases h with h | h <;> simp [h]
  simp only [eventMove, State.placed_seq, State.advance, State.placed_cfg, hk, hread, Bool.false_eq_true,
    if_false, Host.Outcome.next.injEq]
  exact State.conclude_placed ..

end moves

/-! ## The whole run -/

/-- Where the events of a list bring a busy sequencer: behind the list, or to the end of the request. -/
def State.afterEvents (s : State) (port : List Word) (i : Instr) (k owed : Nat) (as : List Action) :
    List Turn → State :=
  match s.performAll as with
  | (t, true) => t.placed port (.busy i (k + as.length) owed) 0
  | (t, false) => (t.raise .controlLineFault 0).placed port .idle (owed * elementWords i)

theorem State.perform_cfg (s : State) (a : Action) : (s.perform a).1.cfg = s.cfg := by
  cases a with
  | drive line l => simp only [State.perform, State.drive]; split <;> simp
  | write w => rfl
  | delay ms => rfl

theorem State.performAll_cfg (s : State) (as : List Action) : (s.performAll as).1.cfg = s.cfg := by
  induction as generalizing s with
  | nil => rfl
  | cons a as ih =>
    have hcfg := s.perform_cfg a
    simp only [State.performAll]
    rcases hp : s.perform a with ⟨t, _ | _⟩ <;> rw [hp] at hcfg
    · exact hcfg
    · exact (ih t).trans hcfg

/-- A busy sequencer performs the events its list has (R22). -/
theorem EventRun.events {turns : List Turn} {i : Instr} {owed : Nat} {port : List Word} {x : State}
    {as : List Action} {s : State} {k : Nat} (hl : s.cfg.legal = true)
    (hdrop : (planOf s.cfg i).acts.drop k = as)
    (h : EventRun turns (s.afterEvents port i k owed as) x) :
    EventRun turns (s.placed port (.busy i k owed) 0) x := by
  induction as generalizing s k with
  | nil => exact h
  | cons a as ih =>
    have hk : (planOf s.cfg i).acts[k]? = some a := by
      rw [← Nat.add_zero k, ← List.getElem?_drop, hdrop]; rfl
    have hdrop' : (planOf s.cfg i).acts.drop (k + 1) = as := by
      rw [← List.drop_drop, hdrop]; rfl
    have hcfg := s.perform_cfg a
    simp only [State.afterEvents, State.performAll] at h
    rcases hp : s.perform a with ⟨t, _ | _⟩ <;> rw [hp] at h hcfg
    · exact .step hl (eventMove_fail hk hp) h
    · refine .step hl (eventMove_event hk hp) (ih (by rw [hcfg]; exact hl) (by rw [hcfg]; exact hdrop') ?_)
      rw [State.afterEvents, Nat.add_assoc, Nat.add_comm 1]
      exact h

/-- The big-step rest of a request from event number `k` on (R11). -/
def State.completes (s : State) (p : Plan) (k : Nat) : State :=
  match s.performAll (p.acts.drop k) with
  | (t, true) => t.conclude p 0
  | (t, false) => t.raise .controlLineFault 0

theorem State.runPlan_eq_completes (s : State) (p : Plan) :
    s.runPlan p = (s.openRequest p).completes p 0 := rfl

/-- A request with more payload elements has the same plan with more events, none if it does not use
its payload (R95). -/
theorem planOf_withElements (c : Config) (i : Instr) (es : List Word) (n : Nat)
    (he : es.length = n * elementWords i) :
    ∃ more, planOf c (i.withElements es) = { planOf c i with acts := (planOf c i).acts ++ more } := by
  cases hst : (planOf c i).streams with
  | true => exact planOf_withElements_streams c i es n hst (by rw [he, Nat.mul_comm])
  | false => exact ⟨[], by rw [planOf_withElements_still c i es hst, List.append_nil]⟩

/-- The end of a request whose events are all performed and whose payload is read or not used: it
concludes, and the unread payload goes (R92). -/
theorem EventRun.finish {turns : List Turn} {s : State} {i : Instr} {k owed : Nat} {es rest : List Word}
    (hl : s.cfg.legal = true) (hk : (planOf s.cfg i).acts[k]? = none)
    (h : (planOf s.cfg i).streams = false ∨ owed = 0) (hes : es.length = owed * elementWords i) :
    EventRun turns (s.placed (es ++ rest) (.busy i k owed) 0)
      ((s.completes (planOf s.cfg i) k).placed rest .idle 0 turns) := by
  have hc : s.completes (planOf s.cfg i) k = s.conclude (planOf s.cfg i) 0 := by
    rw [State.completes, List.drop_eq_nil_of_le (List.getElem?_eq_none_iff.1 hk)]
    rfl
  rw [hc]
  refine .step hl (eventMove_end hk h) ?_
  rw [← hes]
  exact .skip (by rw [(s.conclude_extends _ 0).cfg]; exact hl) es rest

/-- To follow a request to its end it is enough to follow it from where the events listed so far are
performed: a drive that fails before that ends it as the big step does (R176). -/
theorem EventRun.listed {turns : List Turn} {s : State} {i : Instr} {k owed : Nat} {es rest : List Word}
    {p : Plan} {more : List Action} (hl : s.cfg.legal = true) (hk : k ≤ (planOf s.cfg i).acts.length)
    (hes : es.length = owed * elementWords i) (hp : p.acts = (planOf s.cfg i).acts ++ more)
    (h : ∀ t : State, t.cfg = s.cfg →
      EventRun turns (t.placed (es ++ rest) (.busy i (planOf s.cfg i).acts.length owed) 0)
        ((t.completes p (planOf s.cfg i).acts.length).placed rest .idle 0 turns)) :
    EventRun turns (s.placed (es ++ rest) (.busy i k owed) 0)
      ((s.completes p k).placed rest .idle 0 turns) := by
  refine .events hl rfl ?_
  have hdrop : p.acts.drop k = (planOf s.cfg i).acts.drop k ++ more := by
    rw [hp, List.drop_append_of_le_length hk]
  have hmore : p.acts.drop (planOf s.cfg i).acts.length = more := by rw [hp, List.drop_left]
  have hcfg := s.performAll_cfg ((planOf s.cfg i).acts.drop k)
  unfold State.afterEvents
  rcases hrun : s.performAll ((planOf s.cfg i).acts.drop k) with ⟨t, _ | _⟩ <;> rw [hrun] at hcfg
  · have hend : s.completes p k = t.raise .controlLineFault 0 := by
      rw [State.completes, hdrop, State.performAll_append, hrun]
    rw [hend, ← hes]
    exact .skip (by rw [State.raise_cfg, hcfg]; exact hl) es rest
  · have hend : s.completes p k = t.completes p (planOf s.cfg i).acts.length := by
      rw [State.completes, hdrop, State.performAll_append, hrun, State.completes, hmore]
    rw [hend, List.length_drop, Nat.add_sub_cancel' hk]
    exact h t hcfg

/-- From any point of a request on, the run of its events ends as the big step does (R11, R22). -/
theorem EventRun.completes {turns : List Turn} {rest : List Word} (owed : Nat) {s : State} {i : Instr}
    {k : Nat} {es : List Word} (hl : s.cfg.legal = true) (hk : k ≤ (planOf s.cfg i).acts.length)
    (hes : es.length = owed * elementWords i) (ha : admitted s.cfg (i.withElements es) = true) :
    EventRun turns (s.placed (es ++ rest) (.busy i k owed) 0)
      ((s.completes (planOf s.cfg (i.withElements es)) k).placed rest .idle 0 turns) := by
  induction owed generalizing s i k es with
  | zero =>
    obtain rfl : es = [] := List.eq_nil_of_length_eq_zero (by simpa using hes)
    rw [Instr.withElements_nil]
    refine .listed (more := []) hl hk hes (by simp) fun t ht => ?_
    rw [← ht] at hl ⊢
    exact .finish hl (by simp) (.inr rfl) hes
  | succ owed ih =>
    obtain ⟨more, hmore⟩ := planOf_withElements s.cfg i es _ hes
    refine .listed hl hk hes (by rw [hmore]) fun t ht => ?_
    rw [← ht] at hl ha ⊢
    cases hst : (planOf t.cfg i).streams with
    | false =>
      rw [planOf_withElements_still _ _ _ hst]
      exact .finish hl (by simp) (.inl hst) hes
    | true =>
      obtain ⟨e, fs, rfl, he⟩ : ∃ e fs, es = e ++ fs ∧ e.length = elementWords i :=
        ⟨_, _, (List.take_append_drop (elementWords i) es).symm, by
          rw [List.length_take, hes, Nat.succ_mul]; omega⟩
      rw [← Instr.withElements_append i e fs 1 (by omega)] at ha ⊢
      obtain ⟨first, hfirst⟩ := planOf_withElements t.cfg i e 1 (by omega)
      rw [List.append_assoc]
      refine .step hl (eventMove_element (by simp) hst he (admitted_of_withElements _ _ _ ha))
        (ih hl (by rw [hfirst]; simp) ?_ ha)
      rw [List.length_append, he, Nat.succ_mul] at hes
      rw [Instr.elementWords_withElements]
      omega

/-- The turn on which an idle sequencer accepts the request on the port (R22). -/
theorem eventMove_accept {s : State} {ws : List Word} {h : Header} (hd : decodeHeader ws = .ok h)
    (ts : List Turn) :
    eventMove (s.placed ws .idle 0 ts) =
      .next ((s.openRequest (planOf s.cfg h.instr)).placed h.rest (.busy h.instr 0 h.len) 0 ts) := by
  simp only [eventMove, State.placed_seq, fetchHeader, State.placed_discard, if_true, State.placed_port, hd]
  rfl

/-- Settles O52: the sequencer accepts the request at its operand words, and from there the run of its
events completes it as the big step does. -/
theorem eventStepsAgreeWithWholeRequest : Obligations.EventStepsAgreeWithWholeRequest := by
  intro i s t rest turns hl hs hd hr hexec
  have hat : ∀ ts, { s with schedule := ts } = s.placed s.port .idle 0 ts := fun ts => by
    rw [← hs, ← hd]; rfl
  have hbig : ({ s with port := rest, schedule := turns } : State) = s.placed rest .idle 0 turns := by
    rw [← hs, ← hd]; rfl
  obtain ⟨ha, rfl⟩ := exec_next i _ t (decodeRequest_isRequest hr) hexec
  obtain ⟨h, es, hh, hrest, hes, rfl⟩ := decodeRequest_ok hr
  obtain ⟨more, hmore⟩ := planOf_withElements s.cfg h.instr es _ hes
  have hopen : s.openRequest (planOf s.cfg (h.instr.withElements es)) =
      s.openRequest (planOf s.cfg h.instr) := by
    rw [hmore]; rfl
  have hrun : EventRun turns (s.placed s.port .idle 0)
      ((s.runPlan (planOf s.cfg (h.instr.withElements es))).placed rest .idle 0 turns) := by
    refine .step hl (eventMove_accept hh) ?_
    rw [hrest, State.runPlan_eq_completes, hopen]
    exact .completes h.len (s := s.openRequest (planOf s.cfg h.instr)) hl (Nat.zero_le _) hes ha
  obtain ⟨n, hn⟩ := hrun
  refine ⟨n, ?_⟩
  rw [hat, hbig, State.runPlan_placed]
  exact hn

end Sys2Proof.Machine
end

section
/-! SUPPORT. The machine after construction (R34, R66): the invariants hold there. -/

namespace Sys2Proof.Machine

theorem State.construct_coherent (c : Config) : (State.construct c).Coherent :=
  ⟨fun line => by cases line <;> rfl, rfl⟩

theorem State.construct_wellPlaced (c : Config) : (State.construct c).WellPlaced :=
  ⟨State.inStep_of_idle rfl, fun _ hc => absurd hc List.not_mem_nil, rfl⟩

/-- Settles O58: the trace and the frame memory are empty, the sequencer is idle, every latch is `U`. -/
theorem constructionMeetsTheInvariants : Obligations.ConstructionMeetsTheInvariants := fun c =>
  ⟨State.construct_coherent c, fun _ he => absurd he List.not_mem_nil, State.construct_wellPlaced c,
    Sink.canonical_fresh, ⟨fun _ => rfl, fun _ => rfl⟩, rfl⟩

/-- Settles O59: each field is the one `State.construct` gives, and the sink is the fresh one. -/
theorem stateAfterConstruction : Obligations.StateAfterConstruction :=
  ⟨fun _ => ⟨rfl, rfl, rfl, rfl, rfl, rfl, rfl, rfl, Sink.blank_fresh, rfl, rfl⟩, rfl, rfl, rfl⟩

end Sys2Proof.Machine
end

section
/-! SUPPORT. The events a step adds come from the event list of a request (`GivenBy`), so they drive
present lines only and hold the two durations only (R27, R143, R181). -/

namespace Sys2Proof.Machine

/-- The line an event drives, or fails to drive. -/
def lineOf : Event → Option Line
  | .drive line _ => some line
  | .driveFail line _ => some line
  | .write _ => none
  | .delay _ => none

@[simp] theorem lineOf_eventOf (a : Action) : lineOf (eventOf a) = lineDriven a := by
  cases a <;> rfl

/-- Events that do not drive a line leave its latch (R9). -/
theorem latchAfter_of_not_driven {line : Line} (v : Latch) {es : List Event}
    (h : ∀ e ∈ es, lineOf e ≠ some line) : latchAfter line v es = v := by
  induction es with
  | nil => rfl
  | cons e es ih =>
    have he := h e List.mem_cons_self
    have ih := ih fun f hf => h f (List.mem_cons_of_mem e hf)
    cases e with
    | drive m l => simpa [latchAfter, show m ≠ line by simpa [lineOf] using he] using ih
    | driveFail m l => simpa [latchAfter, show m ≠ line by simpa [lineOf] using he] using ih
    | write w => exact ih
    | delay ms => exact ih

/-- An event that an entry of an event list becomes: performed, or a drive that failed (R9, R171). -/
def GivenBy (as : List Action) (e : Event) : Prop :=
  (∃ a ∈ as, e = eventOf a) ∨ ∃ line l, Action.drive line l ∈ as ∧ e = .driveFail line l

/-- An event that drives a line comes from an entry that drives it. -/
theorem GivenBy.lineDriven {as : List Action} {e : Event} {line : Line} (h : GivenBy as e)
    (hl : lineOf e = some line) : ∃ a ∈ as, lineDriven a = some line := by
  rcases h with ⟨a, ha, rfl⟩ | ⟨m, l, ha, rfl⟩
  · exact ⟨a, ha, (lineOf_eventOf a).symm.trans hl⟩
  · exact ⟨_, ha, hl⟩

/-- The events of a request's list are legal, also where a drive fails. -/
theorem GivenBy.eventLegal {c : Config} {i : Instr} {e : Event} (h : GivenBy (planOf c i).acts e) :
    eventLegal c e = true := by
  rcases h with ⟨a, ha, rfl⟩ | ⟨line, l, ha, rfl⟩
  · exact eventLegal_of_actLegal c a (planOf_actLegal c i a ha)
  · exact planOf_actLegal c i _ ha

/-- A legal event drives a present line only (R27). -/
theorem linePresent_of_eventLegal {c : Config} {e : Event} {line : Line} (h : eventLegal c e = true)
    (hl : lineOf e = some line) : linePresent c line = true := by
  cases e with
  | drive m l =>
    obtain rfl := Option.some.inj hl
    exact (Bool.and_eq_true_iff.1 h).1
  | driveFail m l =>
    obtain rfl := Option.some.inj hl
    exact (Bool.and_eq_true_iff.1 h).1
  | write w => cases hl
  | delay ms => cases hl

/-- Legal events leave the latch of an absent line (R24, R25, R27). -/
theorem latchAfter_of_absent {c : Config} {line : Line} (v : Latch) {es : List Event}
    (hp : linePresent c line = false) (h : ∀ e ∈ es, eventLegal c e = true) :
    latchAfter line v es = v :=
  latchAfter_of_not_driven v fun e he hl => by
    simpa [hp] using linePresent_of_eventLegal (h e he) hl

/-- The events from one state to another are determined by the two traces. -/
theorem Extends.unique {s t : State} {es fs : List Event} (h : Extends s t es) (k : Extends s t fs) :
    es = fs :=
  List.append_cancel_left (h.tr.symm.trans k.tr)

/-- A whole request adds events of its own list (R11, R176). -/
theorem State.runPlan_givenBy (s : State) (p : Plan) :
    ∃ es, Extends s (s.runPlan p) es ∧ ∀ e ∈ es, GivenBy p.acts e := by
  have ho := s.openRequest_extends p
  rcases s.runPlan_cases p with ⟨t, -, hran, he⟩ | ⟨before, line, l, after, u, hp, -, hran, h0, he⟩
  · refine ⟨p.acts.map eventOf, ?_, fun e hmem => ?_⟩
    · rw [he]
      exact (ho.trans hran.extends).thenSilent (t.conclude_extends p 0)
    · obtain ⟨a, ha, rfl⟩ := List.mem_map.1 hmem
      exact .inl ⟨a, ha, rfl⟩
  · refine ⟨before.map eventOf ++ [.driveFail line l], ?_, fun e hmem => ?_⟩
    · rw [he]
      exact ((ho.trans hran.extends).trans (u.drive_extends line l h0)).thenSilent
        (State.raise_extends _ _ _)
    · rw [hp]
      rcases List.mem_append.1 hmem with hmem | hmem
      · obtain ⟨a, ha, rfl⟩ := List.mem_map.1 hmem
        exact .inl ⟨a, List.mem_append_left _ ha, rfl⟩
      · exact .inr ⟨line, l, by simp, List.mem_singleton.1 hmem⟩

/-- Every move but the host's adds legal events only. -/
theorem StepTo.extends_legal {u t : State} (h : StepTo u t) :
    ∃ es, Extends u t es ∧ ∀ e ∈ es, eventLegal u.cfg e = true := by
  obtain ⟨es, hes⟩ := h.extends
  refine ⟨es, hes, ?_⟩
  cases h with
  | whole i p hs hi ha =>
    obtain ⟨fs, hfs, hgiven⟩ := State.runPlan_givenBy { u with port := p } (planOf u.cfg i)
    obtain rfl := hes.unique ((u.setPort_extends p).trans hfs)
    exact fun e he => (hgiven e he).eventLegal
  | event i k owed a v hs hk hp =>
    obtain rfl : es = [eventOf a] := List.append_cancel_left (hes.tr.symm.trans (u.perform_ran v a hp).tr)
    intro e he
    exact GivenBy.eventLegal (.inl ⟨a, List.mem_of_getElem? hk, List.mem_singleton.1 he⟩)
  | eventFail i k owed n line l hs hk ha =>
    obtain rfl := hes.unique ((u.drive_extends line l ha).thenSilent (State.raise_extends _ _ n))
    intro e he
    exact GivenBy.eventLegal (.inr ⟨line, l, List.mem_of_getElem? hk, List.mem_singleton.1 he⟩)
  | finish i k owed n hs hk =>
    obtain rfl := hes.unique (u.conclude_extends _ n)
    simp
  | _ =>
    obtain rfl : es = [] := by simpa [State.badRequest] using hes.tr
    simp

/-- Legal events keep the trace legal. -/
theorem State.EventsLegal.extends {s t : State} {es : List Event} (h : s.EventsLegal)
    (k : Extends s t es) (hes : ∀ e ∈ es, eventLegal s.cfg e = true) : t.EventsLegal := by
  intro e he
  rw [k.tr] at he
  rw [k.cfg]
  exact (List.mem_append.1 he).elim (h e) (hes e)

/-- Legal events keep the latches of absent lines unspecified. -/
theorem State.AbsentUndriven.extends {s t : State} {es : List Event} (h : s.AbsentUndriven)
    (k : Extends s t es) (hes : ∀ e ∈ es, eventLegal s.cfg e = true) : t.AbsentUndriven := by
  obtain ⟨hrst, hbl⟩ := h
  unfold State.AbsentUndriven
  rw [k.cfg]
  exact ⟨fun hp => (k.latch .rst).trans ((latchAfter_of_absent (line := .rst) _ hp hes).trans (hrst hp)),
    fun hp => (k.latch .bl).trans ((latchAfter_of_absent (line := .bl) _ hp hes).trans (hbl hp))⟩

/-- Settles O54: a step adds events of a request's list, and these are legal. -/
theorem stepKeepsEventsLegal : Obligations.StepKeepsEventsLegal := by
  intro s t hs h
  have hu : s.useTurn.EventsLegal := by simpa [State.EventsLegal] using hs
  rcases step_cases h with ⟨-, rfl⟩ | hto
  · simpa [State.EventsLegal] using hu
  · obtain ⟨es, hes, hlegal⟩ := hto.extends_legal
    exact hu.extends hes hlegal

/-- Settles O57: no move changes the configuration, and the legal events a step adds do not drive an
absent line. -/
theorem stepKeepsConfigurationAndAbsentLines : Obligations.StepKeepsConfigurationAndAbsentLines := by
  intro s t h
  rcases step_cases h with ⟨-, rfl⟩ | hto
  · simp [State.AbsentUndriven]
  · obtain ⟨es, hes, hlegal⟩ := hto.extends_legal
    refine ⟨hes.cfg.trans s.useTurn_cfg, fun hs => ?_⟩
    have hu : s.useTurn.AbsentUndriven := by simpa [State.AbsentUndriven] using hs
    exact hu.extends hes hlegal

end Sys2Proof.Machine
end

section
/-! SUPPORT. The backlight latch (R25): which requests drive it, what `init` leaves in it, and that nothing
reads it. -/

namespace Sys2Proof.Machine

/-- A list that only uses the bus does not drive the backlight. -/
theorem lineDriven_ne_bl_of_busOnly {as : List Action} (h : busOnly as = true) :
    ∀ a ∈ as, lineDriven a ≠ some .bl := by
  intro a ha hbl
  obtain ⟨pre, post, rfl⟩ := List.append_of_mem ha
  rw [busOnly_append, Bool.and_eq_true] at h
  cases a with
  | drive line l =>
    obtain rfl := Option.some.inj hbl
    exact absurd h.2 (by simp [busOnly])
  | write w => cases hbl
  | delay ms => cases hbl

/-- No event list but that of `init` drives the backlight (R25). -/
theorem planOf_spares_backlight (c : Config) {i : Instr} (hi : i ≠ .init) :
    ∀ a ∈ (planOf c i).acts, lineDriven a ≠ some .bl := by
  by_cases hr : i = .hardReset
  · subst hr
    intro a ha
    simp only [planOf, hardResetPlan, hardResetActs, resetStepActs] at ha
    split at ha
    · simp only [List.cons_append, List.nil_append, List.mem_cons, List.not_mem_nil, or_false] at ha
      rcases ha with rfl | rfl | rfl | rfl | rfl | rfl <;> simp [lineDriven]
    · simp at ha
  · exact lineDriven_ne_bl_of_busOnly (planOf_busOnly c i hr hi)

/-- After the events of a whole `init` the backlight, if present, is high: the drive of R143 is the last
of its line. -/
theorem latchAfter_initActs_backlight {c : Config} (v : Latch) (h : c.hasBl = true) :
    latchAfter .bl v ((initActs c).map eventOf) = .driven .high := by
  have htable : ∀ w, latchAfter .bl w ((c.initTable.flatMap tableEntryActs).map eventOf) = w := fun w =>
    latchAfter_of_not_driven w fun e he hl => by
      obtain ⟨a, ha, rfl⟩ := List.mem_map.1 he
      exact lineDriven_ne_bl_of_busOnly (tableActs_busOnly _) a ha ((lineOf_eventOf a).symm.trans hl)
  have hback : (backlightActs c).map eventOf = [.drive .bl .high] := by simp [backlightActs, h]
  have htail : ∀ w, latchAfter .bl w (initTailActs.map eventOf) = w := fun w => rfl
  rw [initActs, List.map_append, List.map_append, List.map_append, latchAfter_append, latchAfter_append,
    latchAfter_append, hback, htail, htable]
  rfl

/-- An event does the same whatever the backlight latch holds. -/
theorem State.perform_setBacklight (s : State) (v : Latch) (a : Action) :
    ∃ w, (s.setLatch .bl v).perform a = ((s.perform a).1.setLatch .bl w, (s.perform a).2) := by
  cases a with
  | drive line l =>
    have ha : (s.setLatch .bl v).answerAt 0 = s.answerAt 0 := rfl
    simp only [State.perform, State.drive, ha]
    cases line with
    | dc => exact ⟨v, by split <;> rfl⟩
    | rst => exact ⟨v, by split <;> rfl⟩
    | bl => exact ⟨(s.drive .bl l).1.bl, by simp only [State.drive]; split <;> rfl⟩
  | write w => exact ⟨v, rfl⟩
  | delay ms => exact ⟨v, rfl⟩

theorem State.performAll_setBacklight (s : State) (v : Latch) (as : List Action) :
    ∃ w, (s.setLatch .bl v).performAll as = ((s.performAll as).1.setLatch .bl w, (s.performAll as).2) := by
  induction as generalizing s v with
  | nil => exact ⟨v, rfl⟩
  | cons a as ih =>
    obtain ⟨w, hw⟩ := s.perform_setBacklight v a
    simp only [State.performAll, hw]
    rcases s.perform a with ⟨t, _ | _⟩
    · exact ⟨w, rfl⟩
    · exact ih t w

theorem State.raise_setBacklight (s : State) (v : Latch) (c : Status) (n : Nat) :
    (s.setLatch .bl v).raise c n = (s.raise c n).setLatch .bl v := by
  cases c <;> rfl

theorem State.conclude_setBacklight (s : State) (v : Latch) (p : Plan) (n : Nat) :
    (s.setLatch .bl v).conclude p n = (s.conclude p n).setLatch .bl v := by
  unfold State.conclude
  split
  · rfl
  all_goals exact State.raise_setBacklight s v _ n

/-- A whole request does the same whatever the backlight latch holds (R25). -/
theorem State.runPlan_setBacklight (s : State) (v : Latch) (p : Plan) :
    ∃ w, (s.setLatch .bl v).runPlan p = (s.runPlan p).setLatch .bl w := by
  have ho : (s.setLatch .bl v).openRequest p = (s.openRequest p).setLatch .bl v := rfl
  obtain ⟨w, hw⟩ := (s.openRequest p).performAll_setBacklight v p.acts
  refine ⟨w, ?_⟩
  unfold State.runPlan
  rw [ho, hw]
  rcases (s.openRequest p).performAll p.acts with ⟨t, _ | _⟩
  · exact State.raise_setBacklight t w _ 0
  · exact State.conclude_setBacklight t w p 0

/-- An `init` that returns `OK` leaves a present backlight high (R143). -/
theorem State.runPlan_init_backlight {s : State} (hbl : s.cfg.hasBl = true)
    (hok : (s.runPlan (initPlan s.cfg)).result.status = .ok) :
    (s.runPlan (initPlan s.cfg)).bl = .driven .high := by
  rcases s.runPlan_cases (initPlan s.cfg) with ⟨t, -, hran, he⟩ | ⟨_, _, _, _, _, -, -, -, -, he⟩
  · obtain ⟨-, -, -, -, hkeep, -⟩ := t.conclude_fields (initPlan s.cfg) 0
    rw [he, hkeep]
    exact (hran.latch .bl).trans (latchAfter_initActs_backlight _ hbl)
  · rw [he, State.raise_result] at hok
    cases hok

/-- Settles O14: a request adds events of its own list. Only the list of `init` drives the backlight, once
and high, where the line exists; and no event reads the latch. -/
theorem backlightLatchIsInitsAlone : Obligations.BacklightLatchIsInitsAlone := by
  refine ⟨fun c => rfl, fun i s t hi h => ?_⟩
  obtain ⟨ha, rfl⟩ := exec_next i s t hi h
  obtain ⟨es, hes, hgiven⟩ := s.runPlan_givenBy (planOf s.cfg i)
  have hlegal : ∀ e ∈ es, eventLegal s.cfg e = true := fun e he => (hgiven e he).eventLegal
  refine ⟨fun hne => ?_, fun habs => ?_, ?_, ⟨es, hes.tr, fun hlow => ?_⟩, fun v => ?_⟩
  · refine (hes.latch .bl).trans (latchAfter_of_not_driven _ fun e he hl => ?_)
    obtain ⟨a, hmem, hbl⟩ := (hgiven e he).lineDriven hl
    exact planOf_spares_backlight s.cfg hne a hmem hbl
  · exact (hes.latch .bl).trans (latchAfter_of_absent _ habs hlegal)
  · rintro rfl hbl hok
    exact State.runPlan_init_backlight hbl hok
  · simpa [eventLegal] using hlegal _ hlow
  · obtain ⟨w, hw⟩ := s.runPlan_setBacklight v (planOf s.cfg i)
    refine ⟨(s.runPlan (planOf s.cfg i)).setLatch .bl w, ?_, by simp, by simp⟩
    rw [← hw]
    exact exec_request i (s.setLatch .bl v) hi ha

end Sys2Proof.Machine
end

section
/-! SUPPORT. The turns of the far end (R31, R66) and of a busy sequencer (R22, R95). -/

namespace Sys2Proof.Machine

/-- Settles O48: the oldest item arrives at the sink, and a command cycle of the map does there what its
instruction does. -/
theorem stepDeliversTheOldestCycle : Obligations.StepDeliversTheOldestCycle := by
  intro s hl ht
  have hstep : step s = transportMove s.useTurn := by rw [step_legal hl, ht]; rfl
  have harrive : ∀ b rest, s.buffer = b :: rest → step s = .next { s.useTurn with
      buffer := rest, pins := s.pins ++ cyclesOf [b], sink := s.sink.take b } := fun b rest hb => by
    rw [hstep, transportMove_cons (by rw [State.useTurn_buffer, hb]), State.useTurn_pins,
      State.useTurn_sink]
  refine ⟨fun hb => ?_, fun l w rest i hb hi => ?_, fun l w rest e hb _ => harrive _ _ hb,
    fun n rest hb => ?_⟩
  · rw [hstep, transportMove_nil (by rw [State.useTurn_buffer, hb])]
  · refine ⟨?_, harrive _ _ hb⟩
    rw [exec_cycle hi, State.useTurn_sink]
    exact harrive _ _ hb
  · rw [harrive _ _ hb]
    simp [cyclesOf, Sink.take]

/-- A busy sequencer goes on with its request on either of its turns (R11, R22). -/
theorem moveOf_busy {s : State} {m : Turn} {i : Instr} {k owed : Nat} (hm : m = .request ∨ m = .event)
    (hs : s.seq = .busy i k owed) : moveOf m s = s.advance i k owed := by
  rcases hm with rfl | rfl
  · simp [moveOf, requestMove, hs]
  · simp [moveOf, eventMove, hs]

/-- With the list so far exhausted and its payload read or not used, a request ends (R22). -/
theorem State.advance_finish {s : State} {i : Instr} {k owed : Nat}
    (hk : (planOf s.cfg i).acts[k]? = none) (h : owed = 0 ∨ (planOf s.cfg i).streams = false) :
    s.advance i k owed = .next (s.conclude (planOf s.cfg i) (owed * elementWords i)) := by
  have hread : ((planOf s.cfg i).streams && decide (0 < owed)) = false := by
    rcases h with h | h <;> simp [h]
  simp [State.advance, hk, hread]

/-- With the list so far exhausted and an element of its payload owed, a request reads it (R95). -/
theorem State.advance_read {s : State} {i : Instr} {k owed : Nat}
    (hk : (planOf s.cfg i).acts[k]? = none) (ho : 0 < owed) (hst : (planOf s.cfg i).streams = true) :
    s.advance i k owed = s.readElement i k owed := by
  simp [State.advance, hk, ho, hst]

/-- Settles O49: the step of a busy sequencer is `State.advance`, taken branch by branch. -/
theorem stepPerformsOneEvent : Obligations.StepPerformsOneEvent := by
  intro s i k owed hl hm hs
  have hstep : step s = s.useTurn.advance i k owed := by
    rw [step_legal hl, moveOf_busy hm (by rw [State.useTurn_seq, hs])]
  rw [hstep, ← s.useTurn_cfg, ← s.useTurn_port]
  generalize s.useTurn = u
  refine ⟨fun a hk => ?_, fun hk h => State.advance_finish hk h, fun hk ho hst hlen => ?_,
    fun hk ho hst hlen ha => ?_, fun hk ho hst hlen ha => ?_⟩
  · rcases hp : u.perform a with ⟨t, _ | _⟩ <;> simp [State.advance, hk, hp]
  · simp [State.advance_read hk ho hst, State.readElement, hlen]
  · simp [State.advance_read hk ho hst, State.readElement, Nat.not_lt.2 hlen, ha]
  · simp [State.advance_read hk ho hst, State.readElement, Nat.not_lt.2 hlen, ha]

end Sys2Proof.Machine
end

section
/-! SUPPORT. The operand words of a request (R92), and the turn on which an idle sequencer accepts it or
waits for them (R22, R95). -/

namespace Sys2Proof

/-- `o` is the header of a request whose operand words are the first `n` of `ws`: cut short while one of
them is missing, else with the words behind them left (R92, R95). -/
def TakesWords (n : Nat) (ws : List Word) (o : Except DecodeReject Header) : Prop :=
  (ws.length < n → o = .error .cutShort) ∧ (n ≤ ws.length → ∃ h, o = .ok h ∧ h.rest = ws.drop n)

theorem TakesWords.cons {n : Nat} {ws : List Word} {o : Except DecodeReject Header} (w : Word)
    (h : TakesWords n ws o) : TakesWords (n + 1) (w :: ws) o := by
  simpa [TakesWords] using h

theorem plainHeader_takesWords (i : Instr) (ws : List Word) : TakesWords 0 ws (plainHeader i ws) :=
  ⟨fun h => absurd h (Nat.not_lt_zero _), fun _ => ⟨_, rfl, rfl⟩⟩

theorem countedHeader_takesWords (i : Instr) (ws : List Word) : TakesWords 1 ws (countedHeader i ws) := by
  cases ws with
  | nil => exact ⟨fun _ => rfl, fun h => by simp at h⟩
  | cons n rest => exact ⟨fun h => by simp at h, fun _ => ⟨_, rfl, rfl⟩⟩

theorem windowHeader_takesWords : (ws : List Word) → TakesWords 2 ws (windowHeader ws)
  | w1 :: w2 :: rest => ((plainHeader_takesWords _ rest).cons w2).cons w1
  | [] | [_] => ⟨fun _ => rfl, fun h => by simp at h⟩

theorem regionHeader_takesWords : (ws : List Word) → TakesWords 5 ws (regionHeader ws)
  | w1 :: w2 :: w3 :: w4 :: rest =>
    ((((countedHeader_takesWords _ rest).cons w4).cons w3).cons w2).cons w1
  | [] | [_] | [_, _] | [_, _, _] => ⟨fun _ => rfl, fun h => by simp at h⟩

theorem solidHeader_takesWords (colour : Colour) :
    (ws : List Word) → TakesWords 4 ws (solidHeader colour ws)
  | w1 :: w2 :: w3 :: w4 :: rest =>
    ((((plainHeader_takesWords _ rest).cons w4).cons w3).cons w2).cons w1
  | [] | [_] | [_, _] | [_, _, _] => ⟨fun _ => rfl, fun h => by simp at h⟩

/-- The operand words of a request are as many as the table of R92 says, for each of the opcodes of
R86. -/
theorem decodeHeader_takesWords (w : Word) (ws : List Word) (h1 : 1 ≤ (lowByte w).toNat)
    (h14 : (lowByte w).toNat ≤ 14) :
    TakesWords (Machine.requestLength (lowByte w).toNat) (w :: ws) (decodeHeader (w :: ws)) := by
  simp only [decodeHeader]
  generalize (lowByte w).toNat = op at h1 h14 ⊢
  match op, h1, h14 with
  | 1, _, _ | 2, _, _ | 5, _, _ | 6, _, _ | 12, _, _ => exact (countedHeader_takesWords _ ws).cons w
  | 3, _, _ | 4, _, _ | 8, _, _ | 9, _, _ | 10, _, _ | 11, _, _ =>
    exact (plainHeader_takesWords _ ws).cons w
  | 7, _, _ => exact (windowHeader_takesWords ws).cons w
  | 13, _, _ => exact (regionHeader_takesWords ws).cons w
  | 14, _, _ => exact (solidHeader_takesWords _ ws).cons w

/-- Words that give no header give no request. -/
theorem decodeRequest_of_header_error {ws : List Word} {e : DecodeReject}
    (h : decodeHeader ws = .error e) : decodeRequest ws = .error e := by
  simp [decodeRequest, h]

/-- A header whose payload is not all there is a request cut short (R92, R95). -/
theorem decodeRequest_of_missing {ws : List Word} {h : Header} (hd : decodeHeader ws = .ok h)
    (hl : h.rest.length < h.len * elementWords h.instr) : decodeRequest ws = .error .cutShort := by
  simp [decodeRequest, hd, hl]

end Sys2Proof

namespace Sys2Proof.Machine

theorem fetchHeader_header {s : State} {h : Header} (hd : s.discard = 0)
    (hh : decodeHeader s.port = .ok h) :
    fetchHeader s = .header h.instr h.len { s with port := h.rest } := by
  simp [fetchHeader, hd, hh]

theorem fetchHeader_wait {s : State} (hd : s.discard = 0)
    (hh : decodeHeader s.port = .error .noWord ∨ decodeHeader s.port = .error .cutShort) :
    fetchHeader s = .wait s := by
  rcases hh with hh | hh <;> simp [fetchHeader, hd, hh]

/-- Without a whole request on the port, the turn `request` of an idle sequencer is its turn `event`
(R11, R95). -/
theorem moveOf_idle {s : State} {m : Turn} (hs : s.seq = .idle) (hd : s.discard = 0)
    (hm : m = .event ∨ m = .request ∧ ∃ e, decodeRequest s.port = .error e) :
    moveOf m s = eventMove s := by
  rcases hm with rfl | ⟨rfl, e, he⟩
  · rfl
  · have hf : fetchRequest s = fetchHeader s := by simp [fetchRequest, hd, he]
    rcases fetchHeader_cases s with h | h | ⟨p, h⟩ | ⟨i, len, p, -, h⟩ <;>
      simp [moveOf, requestMove, eventMove, hs, hf, h]

/-- An idle sequencer accepts the request whose operand words are on the port (R22). -/
theorem eventMove_header {s : State} {h : Header} (hs : s.seq = .idle) (hd : s.discard = 0)
    (hh : decodeHeader s.port = .ok h) :
    eventMove s = .next (State.accept { s with port := h.rest } h.instr h.len) := by
  simp [eventMove, hs, fetchHeader_header hd hh]

/-- An idle sequencer waits while an operand word is missing (R95). -/
theorem eventMove_wait {s : State} (hs : s.seq = .idle) (hd : s.discard = 0)
    (hh : decodeHeader s.port = .error .noWord ∨ decodeHeader s.port = .error .cutShort) :
    eventMove s = .next s := by
  simp [eventMove, hs, fetchHeader_wait hd hh]

/-- Settles O46: the turn of an idle sequencer is decided by the header on the port, and the header by
the operand words of R92's table. -/
theorem idleStepAcceptsOrWaits : Obligations.IdleStepAcceptsOrWaits := by
  refine ⟨fun s hl hs hd => ?_, rfl, fun w ws h1 h14 => ?_⟩
  · have hidle : s.useTurn.seq = .idle := s.useTurn_seq.trans hs
    have hnone : s.useTurn.discard = 0 := s.useTurn_discard.trans hd
    have hstep : (s.turn = .event ∨ s.turn = .request ∧ ∃ e, decodeRequest s.port = .error e) →
        step s = eventMove s.useTurn := fun hm => by
      rw [step_legal hl, moveOf_idle hidle hnone (by simpa using hm)]
    refine ⟨fun h hh hm => ?_, fun hm hh => ?_⟩
    · rw [hstep (hm.imp_right fun ⟨ht, he⟩ => ⟨ht, _, he⟩),
        eventMove_header (h := h) hidle hnone (by simpa using hh), ← s.useTurn_cfg, ← s.useTurn_buffer]
      rfl
    · have hr : ∃ e, decodeRequest s.port = .error e :=
        hh.elim (fun he => ⟨_, decodeRequest_of_header_error he⟩)
          fun he => ⟨_, decodeRequest_of_header_error he⟩
      rw [hstep (hm.symm.imp_right fun ht => ⟨ht, hr⟩), eventMove_wait hidle hnone (by simpa using hh)]
  · obtain ⟨hshort, hlong⟩ := decodeHeader_takesWords w ws h1 h14
    refine ⟨hshort, fun hlen => ?_⟩
    obtain ⟨h, hh, hrest⟩ := hlong hlen
    exact ⟨h, hh, hrest, decodeRequest_of_missing hh,
      fun es rest he hl => decodeRequest_of_header hh he hl⟩

end Sys2Proof.Machine
end

section
/-! SUPPORT. The sink's commands and parameter bytes in closed form (R67, R68, R71, U7, U8). -/

namespace Sys2Proof.Machine

/-! ## Commands other than the three the sink acts on (R71) -/

/-- The codes of R82's map: the three the sink acts on, and those an `init` sends. -/
theorem wireMap_codes : wireMap.map Prod.fst = 0x2A :: 0x2B :: 0x2C :: initCodes := rfl

theorem mem_initCodes_iff {c : Byte} (hA : c ≠ 0x2A) (hB : c ≠ 0x2B) (hC : c ≠ 0x2C) :
    c ∈ initCodes ↔ ∃ i, (c, i) ∈ wireMap := by
  have hcode : (∃ i, (c, i) ∈ wireMap) ↔ c ∈ wireMap.map Prod.fst := by simp
  rw [hcode, wireMap_codes, List.mem_cons, or_iff_right hA, List.mem_cons, or_iff_right hB,
    List.mem_cons, or_iff_right hC]

theorem ne_of_mem_initCodes {c : Byte} (h : c ∈ initCodes) : c ≠ 0x2A ∧ c ≠ 0x2B ∧ c ≠ 0x2C := by
  refine ⟨?_, ?_, ?_⟩ <;> rintro rfl <;> exact absurd h (by decide)

/-- The sink with a command and its data bytes logged, at its place among that data (R71). -/
def Sink.logged (k : Sink) (c : Byte) (data : List Byte) : Sink :=
  { k with mode := .param c data, log := .command c data :: k.log }

/-- R71: logged either way, with the loss of U8 outside an `init` and for a code outside the map. -/
theorem Sink.otherCommand_eq (k : Sink) (c : Byte) :
    k.otherCommand c =
      if k.inInit = true ∧ c ∈ initCodes then k.logged c [] else k.lose.logged c [] := by
  have hdef : k.otherCommand c =
      if k.inInit then (if initCodes.contains c then k.logged c [] else k.lose.logged c [])
      else k.lose.logged c [] := rfl
  rw [hdef]
  cases k.inInit <;> simp

theorem Sink.command_other (k : Sink) {c : Byte} (hA : c ≠ 0x2A) (hB : c ≠ 0x2B) (hC : c ≠ 0x2C) :
    k.command c = k.otherCommand c := by
  rw [Sink.command, if_neg hA, if_neg hB, if_neg hC]

/-- R71 (a): a code of the map inside an `init`. -/
theorem Sink.command_inside {k : Sink} {c : Byte} (hk : k.inInit = true) (hc : c ∈ initCodes) :
    k.command c = k.logged c [] := by
  obtain ⟨hA, hB, hC⟩ := ne_of_mem_initCodes hc
  rw [k.command_other hA hB hC, Sink.otherCommand_eq, if_pos ⟨hk, hc⟩]

/-- R71 (b) and the model's reading of a code outside the map (assumption 11). -/
theorem Sink.command_outside {k : Sink} {c : Byte} (hA : c ≠ 0x2A) (hB : c ≠ 0x2B) (hC : c ≠ 0x2C)
    (h : k.inInit = false ∨ c ∉ initCodes) : k.command c = k.lose.logged c [] := by
  rw [k.command_other hA hB hC, Sink.otherCommand_eq, if_neg]
  rintro ⟨hk, hc⟩
  rcases h with h | h
  · simp [hk] at h
  · exact h hc

/-- The data after a logged command joins its log entry. -/
theorem Sink.logged_words (k : Sink) {c : Byte} (hA : c ≠ 0x2A) (hB : c ≠ 0x2B) (ws : List U16) :
    (k.logged c []).takeCycles (ws.map wordCycle) = k.logged c (ws.map lo8) :=
  Sink.takeCycles_logged _ c [] [] ws k.log rfl rfl hA hB

/-! ## Parameter bytes (R68) -/

theorem Sink.data_param {k : Sink} {c : Byte} {got : List Byte} (h : k.mode = .param c got) (w : U16) :
    k.data w = k.param c got (lo8 w) := by
  simp [Sink.data, h]

/-- A parameter of a window command other than its fourth sets no field. -/
theorem Sink.param_not_fourth (k : Sink) {c : Byte} {got : List Byte} (b : Byte)
    (hc : c = 0x2A ∨ c = 0x2B) (h : got.length ≠ 3) :
    k.param c got b = if got.length < 4 then { k with mode := .param c (got ++ [b]) }
      else { k.losePicture with mode := .param c (got ++ [b]) } := by
  -- `simp` takes the second branch of the match on `got` by this fact in the context.
  have hne : ∀ p0 p1 p2, got ≠ [p0, p1, p2] := by rintro p0 p1 p2 rfl; simp at h
  rcases hc with rfl | rfl
  · simp [Sink.param]; rfl
  · simp [Sink.param]; rfl

/-- The first three parameters of a window command are only collected. -/
theorem Sink.param_early (k : Sink) {c : Byte} {got : List Byte} (b : Byte) (hc : c = 0x2A ∨ c = 0x2B)
    (h : got.length < 3) : k.param c got b = { k with mode := .param c (got ++ [b]) } := by
  rw [k.param_not_fourth b hc (by omega), if_pos (by omega)]

/-- A parameter after the fourth loses the window and the frame memory (U7). -/
theorem Sink.param_excess (k : Sink) {c : Byte} {got : List Byte} (b : Byte) (hc : c = 0x2A ∨ c = 0x2B)
    (h : 4 ≤ got.length) : k.param c got b = { k.losePicture with mode := .param c (got ++ [b]) } := by
  rw [k.param_not_fourth b hc (by omega), if_neg (by omega)]

/-- Fewer than four parameters of a window command set nothing. -/
theorem Sink.takeCycles_early {k : Sink} {c : Byte} {got : List Byte} (ps : List Byte)
    (hc : c = 0x2A ∨ c = 0x2B) (hm : k.mode = .param c got) (hl : got.length + ps.length < 4) :
    k.takeCycles (ps.map byteCycle) = { k with mode := .param c (got ++ ps) } := by
  induction ps generalizing k got with
  | nil => simp [← hm]
  | cons p ps ih =>
    rw [List.length_cons] at hl
    rw [List.map_cons, Sink.takeCycles_cons, Sink.cycle_byte, Sink.data_param hm, lo8_setWidth,
      Sink.param_early k p hc (by omega), ih rfl (by simp; omega)]
    simp

/-! ## The statements -/

/-- Settles O31: what the three commands do at the sink, where the cursor goes by the window's start. -/
theorem wireWindowCommands : Obligations.WireWindowCommands := by
  intro s
  have hwrite : exec .wireMemoryWrite s = .next { s with sink := s.sink.beginPixels } := rfl
  refine ⟨rfl, rfl, fun xs ys hx hy => ?_, fun h => ?_⟩
  · rw [hwrite]
    simp [Sink.beginPixels, hx, hy]
  · rw [hwrite]
    rcases h with h | h
    · simp [Sink.beginPixels, h]
    · cases hx : s.sink.xs <;> simp [Sink.beginPixels, h, hx]

/-- Settles O32: a wire row is its command at the sink, and the other sixteen are logged inside an `init`
and lose the picture outside one. -/
theorem wireInitCommands : Obligations.WireInitCommands := by
  intro c i s h hA hB hC
  rw [exec_wireMap h]
  refine ⟨fun hin => ?_, fun hout => ?_⟩
  · rw [Sink.command_inside hin ((mem_initCodes_iff hA hB hC).2 ⟨i, h⟩)]
    rfl
  · rw [Sink.command_outside hA hB hC (.inl hout)]
    rfl

/-- Settles O33: four parameters set the fields of their command, fewer leave them as the command did. -/
theorem windowParametersSetTheWindow : Obligations.WindowParametersSetTheWindow := by
  intro k p0 p1 p2 p3 hk
  refine ⟨?_, ?_, fun ps hps => ?_⟩
  · rw [Sink.takeCycles_columns k p0 p1 p2 p3 hk]
    exact ⟨rfl, rfl, rfl, rfl, rfl, hk⟩
  · rw [Sink.takeCycles_rows k p0 p1 p2 p3 hk]
    exact ⟨rfl, rfl, rfl, rfl, rfl, hk⟩
  · have hcol : k.takeCycles (commandCycle 0x2A :: ps.map byteCycle) =
        { k.beginColumn with mode := .param 0x2A ps } := by
      rw [Sink.takeCycles_cons, Sink.cycle_command]
      exact Sink.takeCycles_early (k := k.beginColumn) ps (.inl rfl) rfl (by simpa using hps)
    have hrow : k.takeCycles (commandCycle 0x2B :: ps.map byteCycle) =
        { k.beginRow with mode := .param 0x2B ps } := by
      rw [Sink.takeCycles_cons, Sink.cycle_command]
      exact Sink.takeCycles_early (k := k.beginRow) ps (.inr rfl) rfl (by simpa using hps)
    rw [hcol, hrow]
    exact ⟨rfl, rfl, rfl, rfl⟩

/-- Settles O38: the command is logged, with the loss of U8 or without, and its data joins the entry. -/
theorem sinkLogsOtherTraffic : Obligations.SinkLogsOtherTraffic := by
  refine ⟨fun k c ws hA hB hC => ⟨fun hin hmap => ?_, fun hout => ?_⟩, fun k w hm => ?_⟩
  · rw [Sink.takeCycles_cons, Sink.cycle_command,
      Sink.command_inside hin ((mem_initCodes_iff hA hB hC).2 hmap), Sink.logged_words k hA hB]
    rfl
  · rw [Sink.takeCycles_cons, Sink.cycle_command,
      Sink.command_outside hA hB hC (hout.imp_right (mt (mem_initCodes_iff hA hB hC).1)),
      Sink.logged_words k.lose hA hB]
    rfl
  · rw [Sink.takeCycles_cons, Sink.cycle_word]
    simp [Sink.data, hm]

end Sys2Proof.Machine
end

section
/-! SUPPORT. A pixel stream at the sink in closed form, and what lies outside it (R69, R70, R72, U6, U12). -/

namespace Sys2Proof.Machine

/-! ## Words that overflow or miss the window -/

theorem Sink.data_pixels {k : Sink} (h : k.mode = .pixels) (w : U16) : k.data w = k.pixel w := by
  simp [Sink.data, h]

/-- The last row of a usable window is the field `ye`. -/
theorem Sink.ye_of_window {k : Sink} {xs xe ys ye : Nat} (h : k.window = some (xs, xe, ys, ye)) :
    k.ye.map BitVec.toNat = some ye := by
  unfold Sink.window at h
  split at h
  · rename_i hye
    split at h
    · simp only [Option.some.injEq, Prod.mk.injEq] at h
      simp [hye, h]
    · cases h
  · cases h

/-- A pixel word without a usable window or cursor, or past the last row (R70, U6, U12). -/
theorem Sink.pixel_excess (k : Sink) (w : U16)
    (h : k.window = none ∨ k.cursor = none ∨
      ∃ col row ye, k.cursor = some (col, row) ∧ k.ye = some ye ∧ ye.toNat < row) :
    k.pixel w = k.loseFrame := by
  unfold Sink.pixel
  split
  · rename_i xs xe ys ye col row hw hc
    have hrow : ¬ row ≤ ye := by
      rcases h with h | h | ⟨c, r, y, hcur, hye, hlt⟩
      · simp [hw] at h
      · simp [hc] at h
      · have hy := Sink.ye_of_window hw
        simp only [hye, Option.map_some, Option.some.injEq] at hy
        simp only [hc, Option.some.injEq, Prod.mk.injEq] at hcur
        omega
    rw [if_neg hrow]
  · rfl

/-- Settles O34: an excess pixel word loses the frame memory, an excess parameter the window as well. -/
theorem excessWordsAreUnspecified : Obligations.ExcessWordsAreUnspecified := by
  refine ⟨fun k w hm h => ?_, fun k got w hl hm => ?_⟩
  · rw [Sink.data_pixels hm, Sink.pixel_excess k w h]
    exact ⟨rfl, rfl, rfl, rfl, rfl, rfl⟩
  · obtain ⟨c, hc, hmode⟩ : ∃ c, (c = 0x2A ∨ c = 0x2B) ∧ k.mode = .param c got :=
      hm.elim (fun h => ⟨_, .inl rfl, h⟩) fun h => ⟨_, .inr rfl, h⟩
    rw [Sink.data_param hmode, Sink.param_excess k _ hc hl]
    exact ⟨rfl, rfl, rfl, rfl, rfl, rfl⟩

/-! ## Positions in a window, row by row -/

/-- The position of word `i` of a stream from `(xs, ys)` in rows of `m` (R72). -/
def streamPos (xs ys m i : Nat) : Nat × Nat := (xs + i % m, ys + i / m)

/-- The address of word `i` of a stream. -/
def streamAddr (xs ys m i : Nat) : Nat := gramAddr (streamPos xs ys m i).1 (streamPos xs ys m i).2

/-- The cursor of R69 goes from each position of the stream to the next. -/
theorem nextCursor_streamPos {xs xe m : Nat} (ys i : Nat) (hm : xs + m = xe + 1) (hm0 : 0 < m) :
    nextCursor xs xe (streamPos xs ys m i).1 (streamPos xs ys m i).2 = streamPos xs ys m (i + 1) := by
  have hlt : i % m < m := Nat.mod_lt i hm0
  have hi : i % m + m * (i / m) = i := Nat.mod_add_div i m
  have hcol : (streamPos xs ys m i).1 = xs + i % m := rfl
  unfold nextCursor
  by_cases hend : i % m + 1 = m
  · have hnext : (i + 1) / m = i / m + 1 ∧ (i + 1) % m = 0 :=
      (Nat.div_mod_unique hm0).2 ⟨by rw [Nat.mul_succ]; omega, hm0⟩
    rw [if_pos (by omega)]
    simp [streamPos, hnext, Nat.add_assoc]
  · have hnext : (i + 1) / m = i / m ∧ (i + 1) % m = i % m + 1 :=
      (Nat.div_mod_unique hm0).2 ⟨by omega, by omega⟩
    rw [if_neg (by omega)]
    simp [streamPos, hnext, Nat.add_assoc]

/-- The positions of a stream that fits its window are in the window. -/
theorem streamPos_inside {xs xe ys ye m i : Nat} (hm : xs + m = xe + 1) (hm0 : 0 < m)
    (hy : ys ≤ ye) (hi : i < m * (ye - ys + 1)) :
    xs ≤ (streamPos xs ys m i).1 ∧ (streamPos xs ys m i).1 ≤ xe ∧
      ys ≤ (streamPos xs ys m i).2 ∧ (streamPos xs ys m i).2 ≤ ye := by
  have hcol : i % m < m := Nat.mod_lt i hm0
  have hrow : i / m < ye - ys + 1 := Nat.div_lt_of_lt_mul hi
  simp only [streamPos]
  exact ⟨Nat.le_add_right _ _, by omega, Nat.le_add_right _ _, by omega⟩

/-- Different words of a stream have different addresses. -/
theorem streamAddr_inj {xs ys m i j : Nat} (hi : (streamPos xs ys m i).1 < 65536)
    (hj : (streamPos xs ys m j).1 < 65536) (h : streamAddr xs ys m i = streamAddr xs ys m j) : i = j := by
  obtain ⟨hcol, hrow⟩ := gramAddr_inj hi hj h
  simp only [streamPos, Nat.add_left_cancel_iff] at hcol hrow
  rw [← Nat.mod_add_div i m, ← Nat.mod_add_div j m, hcol, hrow]

/-! ## A run of writes -/

/-- The words of a list written in order to the addresses `addr i`, `addr (i + 1)`, ... -/
def Memory.writeRun (addr : Nat → Nat) : Memory → Nat → List U16 → Memory
  | m, _, [] => m
  | m, i, v :: vs => Memory.writeRun addr (m.write (addr i) v) (i + 1) vs

/-- A run of writes leaves every other address alone. -/
theorem Memory.read_writeRun_other {addr : Nat → Nat} {a : Nat} (m : Memory) (i : Nat) (vs : List U16)
    (h : ∀ j, i ≤ j → j < i + vs.length → a ≠ addr j) : (m.writeRun addr i vs).read a = m.read a := by
  induction vs generalizing m i with
  | nil => rfl
  | cons v vs ih =>
    rw [List.length_cons] at h
    rw [Memory.writeRun, ih _ _ fun j hj hlt => h j (by omega) (by omega),
      Memory.read_write_other m v (h i (by omega) (by omega))]

/-- A run of writes to different addresses leaves each word at its address. -/
theorem Memory.read_writeRun_same {addr : Nat → Nat} (m : Memory) (i : Nat) (vs : List U16)
    (hinj : ∀ j l, j < i + vs.length → l < i + vs.length → addr j = addr l → j = l) (j : Nat)
    (hj : j < vs.length) : (m.writeRun addr i vs).read (addr (i + j)) = vs[j]? := by
  induction vs generalizing m i j with
  | nil => simp at hj
  | cons v vs ih =>
    rw [List.length_cons] at hinj hj
    rw [Memory.writeRun]
    cases j with
    | zero =>
      have hother : ∀ l, i + 1 ≤ l → l < i + 1 + vs.length → addr i ≠ addr l := fun l hl hlt heq => by
        have := hinj i l (by omega) (by omega) heq
        omega
      exact (Memory.read_writeRun_other _ _ _ hother).trans (Memory.read_write_same m (addr i) v)
    | succ j =>
      rw [show i + (j + 1) = i + 1 + j by omega, ih _ _
        (fun a b ha hb => hinj a b (by omega) (by omega)) j (by omega)]
      rfl

/-! ## The stream -/

/-- A pixel word inside a usable window, under the premises of R71 (R69). -/
theorem Sink.pixel_inside {k : Sink} {xs xe ys ye : Nat} {p : Nat × Nat} (w : U16) (hk : k.configured = true)
    (hw : k.window = some (xs, xe, ys, ye)) (hc : k.cursor = some p) (hrow : p.2 ≤ ye) :
    k.pixel w = { k with gram := k.gram.write (gramAddr p.1 p.2) w,
                         cursor := some (nextCursor xs xe p.1 p.2) } := by
  simp [Sink.pixel, hw, hc, hrow, hk]

/-- The words of a stream that fits its window, from position `i` on: each at its place (R69, R72). -/
theorem Sink.takeCycles_stream {k : Sink} {xs xe ys ye m i : Nat} (vs : List U16)
    (hmode : k.mode = .pixels) (hk : k.configured = true) (hw : k.window = some (xs, xe, ys, ye))
    (hm : xs + m = xe + 1) (hm0 : 0 < m) (hy : ys ≤ ye) (hc : k.cursor = some (streamPos xs ys m i))
    (hfit : i + vs.length ≤ m * (ye - ys + 1)) :
    k.takeCycles (vs.map wordCycle) =
      { k with gram := k.gram.writeRun (streamAddr xs ys m) i vs,
               cursor := some (streamPos xs ys m (i + vs.length)) } := by
  induction vs generalizing k i with
  | nil => simp [Memory.writeRun, ← hc]
  | cons v vs ih =>
    rw [List.length_cons] at hfit
    obtain ⟨-, -, -, hrow⟩ := streamPos_inside (xs := xs) (i := i) hm hm0 hy (by omega)
    rw [List.map_cons, Sink.takeCycles_cons, Sink.cycle_word, Sink.data_pixels hmode,
      Sink.pixel_inside v hk hw hc hrow, nextCursor_streamPos ys i hm hm0,
      ih (i := i + 1) ?mode ?configured ?window rfl (by omega)]
    case mode => exact hmode
    case configured => exact hk
    case window => exact hw
    simp [Memory.writeRun, streamAddr, Nat.add_assoc, Nat.add_comm 1]

/-- A window program for an ordered window, memory write and a stream that fits: the frame memory has
the stream's words, and the premises stand (R72). -/
theorem Sink.takeCycles_paint {k : Sink} {xs ys xe ye : U16} (vs : List U16) (hk : k.configured = true)
    (hx : xs.toNat ≤ xe.toNat) (hy : ys.toNat ≤ ye.toNat)
    (hfit : vs.length ≤ (xe.toNat - xs.toNat + 1) * (ye.toNat - ys.toNat + 1)) :
    (k.takeCycles (paintCycles xs ys xe ye vs)).gram =
        k.gram.writeRun (streamAddr xs.toNat ys.toNat (xe.toNat - xs.toNat + 1)) 0 vs ∧
      (k.takeCycles (paintCycles xs ys xe ye vs)).configured = true := by
  rw [paintCycles, Sink.takeCycles_append, Sink.takeCycles_append, Sink.takeCycles_window k _ _ _ _ hk,
    Sink.takeCycles_cons, Sink.cycle_command, Sink.takeCycles_nil,
    Sink.takeCycles_stream (xs := xs.toNat) (xe := xe.toNat) (m := xe.toNat - xs.toNat + 1) (i := 0) vs
      rfl ?configured ?window (by omega) (by omega) hy ?cursor (by simpa using hfit)]
  case configured => exact hk
  case window => simp [Sink.window, Sink.command, Sink.beginPixels, hx, hy]
  case cursor => simp [Sink.command, Sink.beginPixels, streamPos]
  exact ⟨rfl, hk⟩

/-- Settles O35: the stream is a run of writes to the window's addresses, which are different for
different words and never outside the window. -/
theorem pixelStreamFillsTheWindow : Obligations.PixelStreamFillsTheWindow := by
  intro k xs ys xe ye colours hk hx hy hlen
  obtain ⟨hgram, hconf⟩ := Sink.takeCycles_paint colours hk hx hy (Nat.le_of_eq hlen)
  have hinside := fun i (hi : i < colours.length) =>
    streamPos_inside (xs := xs.toNat) (xe := xe.toNat) (m := xe.toNat - xs.toNat + 1) (by omega)
      (by omega) hy (hlen ▸ hi)
  have hcol : ∀ i, i < colours.length →
      (streamPos xs.toNat ys.toNat (xe.toNat - xs.toNat + 1) i).1 < 65536 := fun i hi => by
    have hxe : xe.toNat < 65536 := xe.isLt
    have := hinside i hi
    omega
  refine ⟨fun i hi => ?_, fun col row hc hout => ?_, hconf⟩
  · have hread := Memory.read_writeRun_same k.gram 0 colours
      (fun a b ha hb => streamAddr_inj (hcol a (by omega)) (hcol b (by omega))) i hi
    rw [Nat.zero_add] at hread
    rw [hgram]
    exact hread
  · rw [hgram]
    refine Memory.read_writeRun_other _ _ _ fun i _ hi heq => hout ?_
    obtain ⟨rfl, rfl⟩ := gramAddr_inj hc (hcol i (by omega)) heq
    exact hinside i (by omega)

end Sys2Proof.Machine
end

section
/-! SUPPORT. The invariant of the frame memory's canonical form (assumptions 11 and 12). -/

namespace Sys2Proof.Machine

theorem State.drive_canonical {s : State} (line : Line) (l : Level) (h : s.sink.Canonical) :
    (s.drive line l).1.sink.Canonical :=
  s.perform_canonical (.drive line l) h

theorem State.conclude_sink (s : State) (p : Plan) (n : Nat) : (s.conclude p n).sink = s.sink := by
  obtain ⟨-, -, -, -, -, -, -, hsink, -⟩ := s.conclude_fields p n
  exact hsink

/-- A whole request keeps the form: only its events reach the sink (R11). -/
theorem State.runPlan_canonical {s : State} (p : Plan) (h : s.sink.Canonical) :
    (s.runPlan p).sink.Canonical := by
  have hopen : (s.openRequest p).sink.Canonical := by simpa using h
  have hrun := State.performAll_canonical p.acts _ hopen
  unfold State.runPlan
  rcases hp : (s.openRequest p).performAll p.acts with ⟨t, _ | _⟩ <;> rw [hp] at hrun
  · simpa using hrun
  · simpa [State.conclude_sink] using hrun

/-- Every move but the host's keeps the form. -/
theorem StepTo.canonical {u t : State} (h : u.sink.Canonical) (hto : StepTo u t) : t.sink.Canonical := by
  cases hto with
  | stay => exact h
  | skip => exact h
  | bad p hs => exact h
  | accept i len p hs hi => exact h
  | whole i p hs hi ha => exact State.runPlan_canonical (s := { u with port := p }) _ h
  | event i k owed a v hs hk hp =>
    have hv := u.perform_canonical a h
    rw [hp] at hv
    exact hv
  | eventFail i k owed n line l hs hk ha =>
    rw [State.raise_sink]
    exact State.drive_canonical line l h
  | element i k owed es p hs hk hst he => exact h
  | finish i k owed n hs hk =>
    rw [State.conclude_sink]
    exact h
  | arrive b rest hb => exact Sink.canonical_take b h

/-- Settles O56: the host's move does not touch the sink, and every other move keeps the form. -/
theorem stepKeepsFrameMemoryCanonical : Obligations.StepKeepsFrameMemoryCanonical := by
  intro s t hs h
  have hu : s.useTurn.sink.Canonical := by simpa using hs
  rcases step_cases h with ⟨-, rfl⟩ | hto
  · simpa using hu
  · exact hto.canonical hu

end Sys2Proof.Machine
end

section
/-! SUPPORT. The sink when everything sent has arrived (`State.arrived`): what a request adds to it, and
how the premises of R71 come about and end (assumption 11). -/

namespace Sys2Proof.Machine

/-! ## What events and marks add -/

/-- The sink once the items still in the buffer have arrived too (R31). -/
def State.arrived (s : State) : Sink := s.sink.takeAll s.buffer

theorem State.enqueue_arrived (s : State) (items : List BusItem) :
    (s.enqueue items).arrived = s.arrived.takeAll items := by
  simp [State.arrived, Sink.takeAll_append]

/-- A drive sends nothing. -/
theorem State.drive_arrived (s : State) (line : Line) (l : Level) : (s.drive line l).1.arrived = s.arrived := by
  cases h : s.answerAt 0
  · rw [State.drive_fail line l h]
    cases line <;> rfl
  · rw [State.drive_ok line l h]
    cases line <;> rfl

/-- An entry of an event list sends the cycle of its event, if it has one (R10). -/
theorem State.perform_arrived {s t : State} {a : Action} (h : s.perform a = (t, true)) :
    t.arrived = s.arrived.takeCycles (wireFrom s.dc [eventOf a]) := by
  obtain rfl : (s.perform a).1 = t := congrArg Prod.fst h
  cases a with
  | drive line l => exact s.drive_arrived line l
  | write w => exact s.enqueue_arrived [.cycle s.dc w]
  | delay ms => rfl

/-- An event list sends the cycles of its events (R10). -/
theorem State.performAll_arrived {s t : State} {as : List Action} (h : s.performAll as = (t, true)) :
    t.arrived = s.arrived.takeCycles (wireFrom s.dc (as.map eventOf)) := by
  induction as generalizing s with
  | nil =>
    obtain rfl := (Prod.mk.inj h).1
    rfl
  | cons a as ih =>
    simp only [State.performAll] at h
    rcases hp : s.perform a with ⟨u, _ | _⟩ <;> rw [hp] at h
    · simp at h
    · have hdc : u.dc = latchAfter .dc s.dc [eventOf a] := (State.perform_ran s u a hp).latch .dc
      rw [ih h, State.perform_arrived hp, hdc, ← Sink.takeCycles_append, ← wireFrom_append]
      rfl

/-- After a `ControlLineFault` nothing is specified (U1, R206). -/
theorem State.raise_fault_blank (s : State) (n : Nat) : (s.raise .controlLineFault n).arrived.Blank := by
  have h : (s.raise .controlLineFault n).arrived = { s.arrived.lose with inInit := false } :=
    s.enqueue_arrived [.note .aborted]
  rw [h]
  exact s.arrived.blank_lose

/-- A request whose events have all been performed and that returns `OK`: its marks and its cycles
arrive in order. -/
theorem State.runPlan_arrived {s t : State} {p : Plan} (hs : p.status = .ok)
    (h : (s.openRequest p).performAll p.acts = (t, true)) :
    (s.runPlan p).arrived =
      ((s.arrived.takeAll (p.opening.map .note)).takeCycles
        (wireFrom s.dc (p.acts.map eventOf))).takeAll (p.closing.map .note) := by
  have hrun : s.runPlan p = t.conclude p 0 := by simp only [State.runPlan, h]
  have hend : (t.conclude p 0).arrived = (t.enqueue (p.closing.map .note)).arrived := by
    simp only [State.conclude, hs]
    rfl
  have hopen : (s.openRequest p).arrived = s.arrived.takeAll (p.opening.map .note) :=
    s.enqueue_arrived _
  rw [hrun, hend, State.enqueue_arrived, State.performAll_arrived h, hopen, State.openRequest_dc]

/-- A request that returns `OK` when its drives are answered leaves nothing specified, or all its marks
and cycles arrive. -/
theorem State.runPlan_blank_or (s : State) {p : Plan} (hs : p.status = .ok) :
    (s.runPlan p).arrived.Blank ∨ (s.runPlan p).arrived =
      ((s.arrived.takeAll (p.opening.map .note)).takeCycles
        (wireFrom s.dc (p.acts.map eventOf))).takeAll (p.closing.map .note) := by
  rcases s.runPlan_cases p with ⟨t, ht, -, -⟩ | ⟨_, line, l, _, u, -, -, -, -, he⟩
  · exact .inr (State.runPlan_arrived hs ht)
  · rw [he]
    exact .inl (State.raise_fault_blank _ 0)

/-! ## What an `init` sends -/

/-- The cycles of `init`: the table's, then sleep out and display on (R141). -/
theorem wireFrom_initActs (d : Latch) (c : Config) :
    wireFrom d ((initActs c).map eventOf) =
      tableCycles c.initTable ++ [commandCycle 0x11, commandCycle 0x29] := by
  have hwake : ∀ d, wireFrom d (wakeEvents c) = [] := fun d => by
    unfold wakeEvents
    cases c.hasRst <;> cases c.hasBl <;> rfl
  rw [initActs_events, initEvents, wireFrom_append, wireFrom_append, hwake, wireFrom_tableEvents]
  rfl

/-- The cycles of an `init` are arriving, and so far only commands the map has (R71 (a)). -/
def Sink.Initialising (k : Sink) : Prop := k.inInit = true ∧ k.tainted = false

/-- A command of the map with its data bytes is only logged inside an `init` (R71 (a)). -/
theorem Sink.takeCycles_entry {k : Sink} {c : Byte} (data : List Byte) (hk : k.inInit = true)
    (hc : c ∈ initCodes) :
    k.takeCycles (commandCycle c :: data.map byteCycle) = k.logged c data := by
  obtain ⟨hA, hB, -⟩ := ne_of_mem_initCodes hc
  have hbytes : data.map byteCycle = (data.map (BitVec.setWidth 16)).map wordCycle := by
    rw [List.map_map]
    rfl
  rw [Sink.takeCycles_cons, Sink.cycle_command, Sink.command_inside hk hc, hbytes,
    Sink.logged_words k hA hB]
  simp [Function.comp_def]

theorem Sink.Initialising.entry {k : Sink} {c : Byte} (data : List Byte) (hk : k.Initialising)
    (hc : c ∈ initCodes) : (k.takeCycles (commandCycle c :: data.map byteCycle)).Initialising := by
  rw [Sink.takeCycles_entry data hk.1 hc]
  exact hk

/-- A table with the codes of the map does not taint its `init`. -/
theorem Sink.Initialising.table {k : Sink} {t : List TableEntry} (hk : k.Initialising)
    (ht : ∀ e ∈ t, e.1 ∈ initCodes) : (k.takeCycles (tableCycles t)).Initialising := by
  induction t generalizing k with
  | nil => exact hk
  | cons e t ih =>
    obtain ⟨he, ht⟩ := List.forall_mem_cons.1 ht
    rw [tableCycles, List.flatMap_cons, Sink.takeCycles_append]
    exact ih (hk.entry e.2 he) ht

/-- Nor does the fixed tail of `init`. -/
theorem Sink.Initialising.initCycles {k : Sink} {t : List TableEntry} (hk : k.Initialising)
    (ht : ∀ e ∈ t, e.1 ∈ initCodes) :
    (k.takeCycles (tableCycles t ++ [commandCycle 0x11, commandCycle 0x29])).Initialising := by
  rw [Sink.takeCycles_append]
  have hsleep := (hk.table ht).entry (c := 0x11) [] (by decide)
  exact hsleep.entry (c := 0x29) [] (by decide)

/-- The codes R142 (a) lets a table entry have are codes of the map. -/
theorem tableCodes_subset_initCodes : ∀ c ∈ Config.tableCodes, c ∈ initCodes := by decide

/-- An untainted `init` that set 16 bits per pixel brings the premises about (R71). -/
theorem Sink.Initialising.configured {k : Sink} (hk : k.Initialising) :
    (k.note (.initEnd true)).configured = true := by
  simp [Sink.note, hk.2]

/-! ## The picture after an `init` -/

/-- Nothing of the window and the frame memory is specified, whether or not the premises hold. -/
def Sink.NoPicture (k : Sink) : Prop :=
  k.gram = [] ∧ k.xs = none ∧ k.xe = none ∧ k.ys = none ∧ k.ye = none

theorem Sink.Blank.noPicture {k : Sink} (h : k.Blank) : k.NoPicture := h.2

/-- The mark at the end of an `init` brings nothing of the picture about. -/
theorem Sink.Blank.initEnd_noPicture {k : Sink} (h : k.Blank) (f : Bool) :
    (k.note (.initEnd f)).NoPicture := by
  unfold Sink.note
  dsimp only
  split
  · exact h.noPicture
  · exact k.blank_forget.noPicture

/-! ## The premises of R71 -/

/-- R71: a completed `init` brings the premises about. -/
theorem init_configures (s : State) (hcodes : ∀ e ∈ s.cfg.initTable, e.1 ∈ Config.tableCodes)
    (hformat : setsFormat16 s.cfg.initTable = true)
    (hok : s.answersOk (wakeDrives s.cfg + tableDrives s.cfg.initTable + 2)) :
    (s.runPlan (initPlan s.cfg)).arrived.configured = true := by
  have hdrives : (s.openRequest (initPlan s.cfg)).answersOk (drivesIn (initPlan s.cfg).acts) := by
    rw [← initActs_drives] at hok
    exact hok
  obtain ⟨t, ht⟩ := State.performAll_of_answersOk _ _ hdrives
  have hbegin : (s.arrived.note .initBegin).Initialising := ⟨rfl, rfl⟩
  have hcycles := hbegin.initCycles fun e he => tableCodes_subset_initCodes e.1 (hcodes e he)
  rw [State.runPlan_arrived rfl ht]
  simp only [initPlan, wireFrom_initActs, hformat]
  exact hcycles.configured

/-- U1, R206: a `ControlLineFault` ends the premises. -/
theorem fault_blanks {s : State} {c : Config} {i : Instr}
    (h : (s.runPlan (planOf c i)).result.status = .controlLineFault) :
    (s.runPlan (planOf c i)).arrived.Blank := by
  rcases s.runPlan_cases (planOf c i) with ⟨t, -, -, he⟩ | ⟨_, line, l, _, u, -, -, -, -, he⟩
  · rw [he, State.conclude_result] at h
    exact absurd h (planOf_status c i)
  · rw [he]
    exact State.raise_fault_blank _ 0

/-- R144, U17: every `hard_reset` ends the premises. -/
theorem hardReset_blanks (s : State) (c : Config) : (s.runPlan (hardResetPlan c)).arrived.Blank := by
  rcases s.runPlan_blank_or (p := hardResetPlan c) rfl with h | h
  · exact h
  · rw [h]
    exact Sink.blank_takeCycles _ s.arrived.blank_forget

/-- R71, U17: an `init`, completed or not, leaves nothing of the picture specified. -/
theorem init_noPicture (s : State) (c : Config) : (s.runPlan (initPlan c)).arrived.NoPicture := by
  rcases s.runPlan_blank_or (p := initPlan c) rfl with h | h
  · exact h.noPicture
  · rw [h]
    have hbegin : (s.arrived.note .initBegin).Blank := s.arrived.blank_forget
    exact (Sink.blank_takeCycles _ hbegin).initEnd_noPicture _

/-- Settles O37: a request is its plan, whose marks and cycles arrive in order. -/
theorem premisesComeAndGo : Obligations.PremisesComeAndGo := by
  refine ⟨fun s hcodes hformat hok => ⟨_, rfl, init_configures s hcodes hformat hok⟩,
    fun i s t hi h hfault => ?_, fun s t h => ?_, fun s t h => ?_⟩
  · obtain ⟨-, rfl⟩ := exec_next i s t hi h
    exact fault_blanks hfault
  · obtain ⟨-, rfl⟩ := exec_next .hardReset s t rfl h
    exact hardReset_blanks s s.cfg
  · obtain ⟨-, rfl⟩ := exec_next .init s t rfl h
    exact init_noPicture s s.cfg

end Sys2Proof.Machine
end

section
/-! SUPPORT. The request encoding of R85 to R87 and R92 as a table (`OperandWords`), and the decoder as what
that table says: both directions of the obligations about it read the table. -/

namespace Sys2Proof

/-! ## The table of operand words -/

/-- `OperandWords ws i len`: the words `ws` are the operand words of a request, which without a payload
element yet is `i` and has `len` elements still to come (R86, R92). -/
inductive OperandWords : List Word → Instr → Nat → Prop where
  | sendCommand (w n : Word) (op : (lowByte w).toNat = 1) : OperandWords [w, n] (.sendCommand []) n.toNat
  | sendData (w n : Word) (op : (lowByte w).toNat = 2) :
      OperandWords [w, n] (.sendData (emptyPayload (fmtField w))) n.toNat
  | writeCommand (w : Word) (op : (lowByte w).toNat = 3) : OperandWords [w] (.writeCommand (immByte w)) 0
  | writeData (w : Word) (op : (lowByte w).toNat = 4) : OperandWords [w] (.writeData (immByte w)) 0
  | writeDataWords (w n : Word) (op : (lowByte w).toNat = 5) :
      OperandWords [w, n] (.writeDataWords []) n.toNat
  | writePixels (w n : Word) (op : (lowByte w).toNat = 6) : OperandWords [w, n] (.writePixels []) n.toNat
  | setAddressWindow (w w1 w2 : Word) (op : (lowByte w).toNat = 7) :
      OperandWords [w, w1, w2]
        (.setAddressWindow (lowHalf w1) (highHalf w1) (lowHalf w2) (highHalf w2)) 0
  | hardReset (w : Word) (op : (lowByte w).toNat = 8) : OperandWords [w] .hardReset 0
  | init (w : Word) (op : (lowByte w).toNat = 9) : OperandWords [w] .init 0
  | clear (w : Word) (op : (lowByte w).toNat = 10) : OperandWords [w] (.clear (highHalf w)) 0
  | size (w : Word) (op : (lowByte w).toNat = 11) : OperandWords [w] .size 0
  | drawPixels (w n : Word) (op : (lowByte w).toNat = 12) : OperandWords [w, n] (.drawPixels []) n.toNat
  | fillRegion (w w1 w2 w3 w4 n : Word) (op : (lowByte w).toNat = 13) :
      OperandWords [w, w1, w2, w3, w4, n] (.fillRegion (rectOfWords w1 w2 w3 w4) []) n.toNat
  | fillSolid (w w1 w2 w3 w4 : Word) (op : (lowByte w).toNat = 14) :
      OperandWords [w, w1, w2, w3, w4] (.fillSolid (rectOfWords w1 w2 w3 w4) (highHalf w)) 0

/-- Operand words of the table, with any words behind them, give their header. -/
theorem OperandWords.decodeHeader {ws : List Word} {i : Instr} {len : Nat} (h : OperandWords ws i len)
    (rest : List Word) : decodeHeader (ws ++ rest) = .ok { instr := i, len := len, rest := rest } := by
  cases h <;>
    simp [Sys2Proof.decodeHeader, countedHeader, plainHeader, windowHeader, regionHeader, solidHeader, *]

/-- The words `ws` are operand words of the table for the header `h`, and the words it leaves. -/
def HasOperands (ws : List Word) (h : Header) : Prop :=
  ∃ ops, OperandWords ops h.instr h.len ∧ ws = ops ++ h.rest

theorem plainHeader_hasOperands {pre ws : List Word} {i : Instr} {h : Header}
    (hd : plainHeader i ws = .ok h) (ho : OperandWords pre i 0) : HasOperands (pre ++ ws) h := by
  obtain rfl := Except.ok.inj hd
  exact ⟨pre, ho, rfl⟩

theorem countedHeader_hasOperands {pre ws : List Word} {i : Instr} {h : Header}
    (hd : countedHeader i ws = .ok h) (ho : ∀ n, OperandWords (pre ++ [n]) i n.toNat) :
    HasOperands (pre ++ ws) h := by
  cases ws with
  | nil => cases hd
  | cons n rest =>
    obtain rfl := Except.ok.inj hd
    exact ⟨pre ++ [n], ho n, by simp⟩

theorem windowHeader_hasOperands {w : Word} {ws : List Word} {h : Header} (op : (lowByte w).toNat = 7)
    (hd : windowHeader ws = .ok h) : HasOperands (w :: ws) h := by
  match ws, hd with
  | w1 :: w2 :: rest, hd => exact plainHeader_hasOperands hd (.setAddressWindow w w1 w2 op)

theorem regionHeader_hasOperands {w : Word} {ws : List Word} {h : Header} (op : (lowByte w).toNat = 13)
    (hd : regionHeader ws = .ok h) : HasOperands (w :: ws) h := by
  match ws, hd with
  | w1 :: w2 :: w3 :: w4 :: rest, hd =>
    exact countedHeader_hasOperands (pre := [w, w1, w2, w3, w4]) hd
      fun n => .fillRegion w w1 w2 w3 w4 n op

theorem solidHeader_hasOperands {w : Word} {ws : List Word} {h : Header} (op : (lowByte w).toNat = 14)
    (hd : solidHeader (highHalf w) ws = .ok h) : HasOperands (w :: ws) h := by
  match ws, hd with
  | w1 :: w2 :: w3 :: w4 :: rest, hd => exact plainHeader_hasOperands hd (.fillSolid w w1 w2 w3 w4 op)

/-- A header comes from operand words of the table only (R86, R92). -/
theorem decodeHeader_hasOperands {ws : List Word} {h : Header} (hd : decodeHeader ws = .ok h) :
    HasOperands ws h := by
  cases ws with
  | nil => cases hd
  | cons w rest =>
    simp only [decodeHeader] at hd
    split at hd <;> rename_i op
    · exact countedHeader_hasOperands (pre := [w]) hd fun n => .sendCommand w n op
    · exact countedHeader_hasOperands (pre := [w]) hd fun n => .sendData w n op
    · exact plainHeader_hasOperands hd (.writeCommand w op)
    · exact plainHeader_hasOperands hd (.writeData w op)
    · exact countedHeader_hasOperands (pre := [w]) hd fun n => .writeDataWords w n op
    · exact countedHeader_hasOperands (pre := [w]) hd fun n => .writePixels w n op
    · exact windowHeader_hasOperands op hd
    · exact plainHeader_hasOperands hd (.hardReset w op)
    · exact plainHeader_hasOperands hd (.init w op)
    · exact plainHeader_hasOperands hd (.clear w op)
    · exact plainHeader_hasOperands hd (.size w op)
    · exact countedHeader_hasOperands (pre := [w]) hd fun n => .drawPixels w n op
    · exact regionHeader_hasOperands op hd
    · exact solidHeader_hasOperands op hd
    · cases hd

/-- A request decodes from its operand words and its payload, and leaves the words behind (R87, R92). -/
theorem OperandWords.decodeRequest {ws es : List Word} {i : Instr} {len : Nat}
    (h : OperandWords ws i len) (hes : es.length = len * elementWords i) (rest : List Word) :
    decodeRequest (ws ++ (es ++ rest)) = .ok (i.withElements es, rest) :=
  decodeRequest_of_header (h.decodeHeader (es ++ rest)) rfl hes

/-- A decoded request has its operand words and its payload in front of the words it leaves. -/
theorem decodeRequest_hasOperands {ws rest : List Word} {i : Instr}
    (h : decodeRequest ws = .ok (i, rest)) :
    ∃ ops es j len, OperandWords ops j len ∧ es.length = len * elementWords j ∧
      i = j.withElements es ∧ ws = (ops ++ es) ++ rest := by
  obtain ⟨hd, es, hh, hrest, hes, rfl⟩ := decodeRequest_ok h
  obtain ⟨ops, ho, rfl⟩ := decodeHeader_hasOperands hh
  exact ⟨ops, es, hd.instr, hd.len, ho, hes, rfl, by rw [hrest, List.append_assoc]⟩

/-! ## Encoding a request -/

@[simp] theorem lowByte_comp_byteWord : lowByte ∘ byteWord = id := funext lowByte_byteWord

@[simp] theorem lowHalf_comp_halfWord : lowHalf ∘ halfWord = id := funext lowHalf_halfWord

theorem emptyPayload_withElements_words {p : Payload} (h : p.wellFormed = true) :
    (emptyPayload p.fmt).withElements p.words = p := by
  cases p with
  | other code raw =>
    simp only [Payload.wellFormed, Bool.and_eq_true, decide_eq_true_eq] at h
    have hcode : emptyPayload code = .other code [] := by
      unfold emptyPayload
      split <;> first | omega | rfl
    simp [Payload.fmt, Payload.words, hcode, Payload.withElements]
  | u8 bs => simp [Payload.fmt, Payload.words, emptyPayload, Payload.withElements]
  | u16le vs => simp [Payload.fmt, Payload.words, emptyPayload, Payload.withElements]
  | u16leIter vs => simp [Payload.fmt, Payload.words, emptyPayload, Payload.withElements]

theorem Payload.fitsU32_words {p : Payload} (h : p.wellFormed = true) :
    fitsU32 p.words.length = true := by
  cases p <;> simp_all [Payload.wellFormed, Payload.words]

/-- A well-formed request is encoded as operand words of the table and its payload. -/
theorem encode_request {i : Instr} (hi : Machine.isRequest i = true) (hwf : i.wellFormed = true) :
    ∃ ops es j len, OperandWords ops j len ∧ es.length = len * elementWords j ∧
      j.withElements es = i ∧ encode i = .request (ops ++ es) := by
  cases i with
  | sendCommand bs =>
    refine ⟨_, _, _, _, .sendCommand _ _ ?_, ?_, ?_, rfl⟩ <;>
      simp [Instr.withElements, elementWords, toNat_u32 _ hwf]
  | sendData p =>
    refine ⟨_, p.words, _, _, .sendData _ _ ?_, ?_, ?_, rfl⟩ <;>
      simp [Instr.withElements, elementWords, toNat_u32 _ (Payload.fitsU32_words hwf),
        emptyPayload_withElements_words hwf]
  | writeCommand c => exact ⟨_, [], _, _, .writeCommand _ (by simp), rfl, by simp, rfl⟩
  | writeData b => exact ⟨_, [], _, _, .writeData _ (by simp), rfl, by simp, rfl⟩
  | writeDataWords vs =>
    refine ⟨_, _, _, _, .writeDataWords _ _ ?_, ?_, ?_, rfl⟩ <;>
      simp [Instr.withElements, elementWords, toNat_u32 _ hwf]
  | writePixels cs =>
    refine ⟨_, _, _, _, .writePixels _ _ ?_, ?_, ?_, rfl⟩ <;>
      simp [Instr.withElements, elementWords, toNat_u32 _ hwf]
  | setAddressWindow xs ys xe ye =>
    exact ⟨_, [], _, _, .setAddressWindow _ _ _ (by simp), rfl, by simp, rfl⟩
  | hardReset => exact ⟨_, [], _, _, .hardReset _ (by simp), rfl, by simp, rfl⟩
  | init => exact ⟨_, [], _, _, .init _ (by simp), rfl, by simp, rfl⟩
  | clear c => exact ⟨_, [], _, _, .clear _ (by simp), rfl, by simp, rfl⟩
  | size => exact ⟨_, [], _, _, .size _ (by simp), rfl, by simp, rfl⟩
  | drawPixels ps =>
    obtain ⟨hlen, hps⟩ := Bool.and_eq_true_iff.1 hwf
    refine ⟨_, ps.flatMap pixelWords, _, _, .drawPixels _ _ ?_, ?_, ?_, rfl⟩
    · simp
    · rw [toNat_u32 _ hlen]
      exact length_pixelWords ps
    · simp [Instr.withElements, pixelsOfWords_pixelWords ps hps]
  | fillRegion r cs =>
    obtain ⟨hr, hlen⟩ := Bool.and_eq_true_iff.1 hwf
    refine ⟨_, _, _, _, .fillRegion _ _ _ _ _ _ ?_, ?_, ?_, rfl⟩ <;>
      simp [Instr.withElements, elementWords, toNat_u32 _ hlen, rectOfWords_rectWords r hr]
  | fillSolid r c =>
    refine ⟨_, [], _, _, .fillSolid _ _ _ _ _ ?_, rfl, ?_, rfl⟩
    · simp
    · simp [rectOfWords_rectWords r hwf]
  | _ => cases hi

/-! ## Command cycles -/

/-- A cycle of the command level with a zero upper half is its code alone (R80). -/
theorem commandBits_iff (c : BitVec 17) :
    levelOfBit (c.getLsbD 16) = Config.dcCmdLevel ∧ c.extractLsb' 8 8 = 0 ↔
      c.toNat = (c.extractLsb' 0 8).toNat := by
  have hlevel : levelOfBit (c.getLsbD 16) = Config.dcCmdLevel ↔ c.toNat / 65536 % 2 = 0 := by
    rw [BitVec.getLsbD, Nat.testBit_eq_decide_div_mod_eq]
    simp [levelOfBit, Config.dcCmdLevel]
  have hupper : c.extractLsb' 8 8 = 0 ↔ c.toNat / 256 % 256 = 0 := by
    simp [← BitVec.toNat_inj, Nat.shiftRight_eq_div_pow]
  have hcode : (c.extractLsb' 0 8).toNat = c.toNat % 256 := by simp
  have := c.isLt
  rw [hlevel, hupper, hcode]
  omega

/-- No code stands twice in the map of R82. -/
theorem lookup_wireMap_iff {code : Byte} {i : Instr} :
    wireMap.lookup code = some i ↔ (code, i) ∈ wireMap := by
  have hall : ∀ e ∈ wireMap, wireMap.lookup e.1 = some e.2 := by decide
  exact ⟨Machine.mem_of_lookup _, hall (code, i)⟩

/-- A cycle is an instruction exactly if it is the code of one in the map of R82. -/
theorem decodeCycle_ok_iff {c : BitVec 17} {i : Instr} :
    decodeCycle c = .ok i ↔ ∃ code, (code, i) ∈ wireMap ∧ c.toNat = code.toNat := by
  have hdecode : decodeCycle c = .ok i ↔
      c.toNat = (c.extractLsb' 0 8).toNat ∧ wireMap.lookup (c.extractLsb' 0 8) = some i := by
    rw [← commandBits_iff]
    unfold decodeCycle
    split
    · split
      · rename_i hlevel hupper
        rw [and_iff_right ⟨hlevel, hupper⟩]
        cases wireMap.lookup (c.extractLsb' 0 8) <;> simp
      · rename_i hupper
        exact iff_of_false (by simp) fun ⟨⟨_, hzero⟩, _⟩ => hupper hzero
    · rename_i hlevel
      exact iff_of_false (by simp) fun ⟨⟨hcmd, _⟩, _⟩ => hlevel hcmd
  rw [hdecode, lookup_wireMap_iff]
  refine ⟨fun ⟨hc, hmem⟩ => ⟨_, hmem, hc⟩, fun ⟨code, hmem, hc⟩ => ?_⟩
  have hcode : c.extractLsb' 0 8 = code := by
    apply BitVec.eq_of_toNat_eq
    rw [BitVec.extractLsb'_toNat, hc, Nat.shiftRight_zero, Nat.mod_eq_of_lt code.isLt]
  rw [hcode]
  exact ⟨hc, hmem⟩

/-- A wire command is encoded as the cycle of its code in the map (R82). -/
theorem encode_wire {i : Instr} (hi : Machine.isRequest i = false) :
    ∃ code, (code, i) ∈ wireMap ∧ encode i = commandCode code := by
  cases i <;> simp [wireMap, encode, Machine.isRequest] at hi ⊢

theorem toNat_commandCycle (code : Byte) :
    (cycleBits Config.dcCmdLevel (byteImm code)).toNat = code.toNat := by
  have h : (byteImm code).toNat = code.toNat := BitVec.toNat_setWidth_of_le (by decide)
  rw [← h]
  exact (BitVec.toNat_append _ _).trans (by simp [Config.dcCmdLevel, bitOfLevel])

/-! ## The obligations -/

/-- Settles O39: a request by the table of operand words, a wire command by the map of R82. -/
theorem encodedInstructionsDecode : Obligations.EncodedInstructionsDecode := by
  intro i rest hwf
  cases hi : Machine.isRequest i with
  | true =>
    obtain ⟨ops, es, j, len, ho, hes, rfl, henc⟩ := encode_request hi hwf
    rw [henc, Code.andThen, List.append_assoc]
    exact ho.decodeRequest hes rest
  | false =>
    obtain ⟨code, hmem, henc⟩ := encode_wire hi
    have hd := decodeCycle_ok_iff.2 ⟨code, hmem, toNat_commandCycle code⟩
    simp [henc, commandCode, Code.andThen, decode, hd]

/-- Settles O41: the opcode byte outside the table, and `decodeCycle_ok_iff`. -/
theorem unassignedEncodingsAreRejected : Obligations.UnassignedEncodingsAreRejected :=
  ⟨decodeHeader_badOp, fun _ _ => decodeCycle_ok_iff⟩

end Sys2Proof
end

section
/-! SUPPORT. What of the words of a request the decoder ignores (R85, R87), and how many words a request
takes (R92), both read off the table `OperandWords`. -/

namespace Sys2Proof

/-! ## Fields of the first word -/

/-- The header depends on `OP`, and on `FMT` and `IMM` where the operation uses them (R85). -/
theorem decodeHeader_congr {v w : Word} (rest : List Word) (hop : lowByte v = lowByte w)
    (hfmt : (lowByte w).toNat = 2 → fmtField v = fmtField w)
    (hbyte : (lowByte w).toNat = 3 ∨ (lowByte w).toNat = 4 → immByte v = immByte w)
    (hhalf : (lowByte w).toNat = 10 ∨ (lowByte w).toNat = 14 → highHalf v = highHalf w) :
    decodeHeader (v :: rest) = decodeHeader (w :: rest) := by
  simp only [decodeHeader, hop]
  split <;> rename_i op
  case h_2 => rw [hfmt op]
  case h_3 => rw [hbyte (.inl op)]
  case h_4 => rw [hbyte (.inr op)]
  case h_10 => rw [hhalf (.inl op)]
  case h_14 => rw [hhalf (.inr op)]
  all_goals rfl

/-- Words with the same header are the same request. -/
theorem decodeRequest_congr {vs ws : List Word} (h : decodeHeader vs = decodeHeader ws) :
    decodeRequest vs = decodeRequest ws := by
  simp only [decodeRequest, h]

/-- Settles O42: the header is the same, so the request is. -/
theorem unusedFieldsAreIgnored : Obligations.UnusedFieldsAreIgnored :=
  fun _ _ rest hop hfmt hbyte hhalf =>
    decodeRequest_congr (decodeHeader_congr rest hop hfmt hbyte hhalf)

/-! ## Element words -/

/-- Payload words that give the same elements give the same request. -/
theorem OperandWords.decodeRequest_congr {ws es fs : List Word} {i : Instr} {len : Nat}
    (h : OperandWords ws i len) (hes : es.length = len * elementWords i) (hfs : fs.length = es.length)
    (heq : i.withElements es = i.withElements fs) (rest : List Word) :
    Sys2Proof.decodeRequest (ws ++ (es ++ rest)) = Sys2Proof.decodeRequest (ws ++ (fs ++ rest)) := by
  rw [h.decodeRequest hes, h.decodeRequest (hfs.trans hes), heq]

/-- The elements of a payload of one word each, which the request takes by a field `f` of the word. -/
theorem OperandWords.decodeRequest_field {α : Type} {f : Word → α} {ws es fs : List Word} {i : Instr}
    {n : Nat} (h : OperandWords ws i n) (hone : elementWords i = 1)
    (hfield : ∀ es fs : List Word, es.map f = fs.map f → i.withElements es = i.withElements fs)
    (hes : es.length = n) (heq : es.map f = fs.map f) (rest : List Word) :
    Sys2Proof.decodeRequest (ws ++ (es ++ rest)) = Sys2Proof.decodeRequest (ws ++ (fs ++ rest)) :=
  h.decodeRequest_congr (by rw [hone, hes, Nat.mul_one])
    (by simpa using (congrArg List.length heq).symm) (hfield es fs heq) rest

theorem emptyPayload_u8 {fmt : Byte} (h : fmt.toNat = 0) : emptyPayload fmt = .u8 [] := by
  simp [emptyPayload, h]

theorem emptyPayload_u16le {fmt : Byte} (h : fmt.toNat = 1) : emptyPayload fmt = .u16le [] := by
  simp [emptyPayload, h]

theorem emptyPayload_u16leIter {fmt : Byte} (h : fmt.toNat = 2) : emptyPayload fmt = .u16leIter [] := by
  simp [emptyPayload, h]

/-- The triples of element words given as triples (R87). -/
theorem pixelsOfWords_flatMap {α : Type} (x y c : α → Word) (ps : List α) :
    pixelsOfWords (ps.flatMap fun p => [x p, y p, c p]) =
      ps.map fun p => { x := (x p).toInt, y := (y p).toInt, colour := lowHalf (c p) } := by
  induction ps with
  | nil => rfl
  | cons p ps ih =>
    rw [List.map_cons, ← ih]
    rfl

theorem length_flatMap_triple {α : Type} (x y c : α → Word) (ps : List α) :
    (ps.flatMap fun p => [x p, y p, c p]).length = ps.length * 3 := by
  simp [List.length_flatMap]

/-- Settles O43: each payload takes its elements by the named bits of their words; an `Other` payload has
no event for its elements. -/
theorem elementUpperBitsAreIgnored : Obligations.ElementUpperBitsAreIgnored := by
  refine ⟨fun w n es fs rest hes heq hop => ?_, fun w n es fs rest hes heq hop => ?_,
    fun w x y a b n es fs rest hes heq hop => ?_, fun w n ps rest hps heq hop => ?_,
    fun code es fs s => rfl⟩
  · rcases hop with hop | ⟨hop, hfmt⟩
    · exact (OperandWords.sendCommand w n hop).decodeRequest_field rfl
        (fun es fs h => by simp [Instr.withElements, h]) hes heq rest
    · exact (OperandWords.sendData w n hop).decodeRequest_field rfl
        (fun es fs h => by
          simp [Instr.withElements, Payload.withElements, emptyPayload_u8 hfmt, h]) hes heq rest
  · rcases hop with hop | hop | ⟨hop, hfmt | hfmt⟩
    · exact (OperandWords.writeDataWords w n hop).decodeRequest_field rfl
        (fun es fs h => by simp [Instr.withElements, h]) hes heq rest
    · exact (OperandWords.writePixels w n hop).decodeRequest_field rfl
        (fun es fs h => by simp [Instr.withElements, h]) hes heq rest
    · exact (OperandWords.sendData w n hop).decodeRequest_field rfl
        (fun es fs h => by
          simp [Instr.withElements, Payload.withElements, emptyPayload_u16le hfmt, h]) hes heq rest
    · exact (OperandWords.sendData w n hop).decodeRequest_field rfl
        (fun es fs h => by
          simp [Instr.withElements, Payload.withElements, emptyPayload_u16leIter hfmt, h]) hes heq rest
  · exact (OperandWords.fillRegion w x y a b n hop).decodeRequest_field rfl
      (fun es fs h => by simp [Instr.withElements, h]) hes heq rest
  · refine (OperandWords.drawPixels w n hop).decodeRequest_congr ?_ ?_ ?_ rest
    · rw [length_flatMap_triple, hps]
      rfl
    · rw [length_flatMap_triple, length_flatMap_triple]
    · simp only [Instr.withElements, pixelsOfWords_flatMap]
      congr 2
      exact List.map_congr_left fun p hp => by rw [heq p hp]

/-! ## The length of a request -/

/-- A payload has as many elements as it has element words (R87). -/
theorem length_words_withElements (fmt : Byte) (ws : List Word) :
    ((emptyPayload fmt).withElements ws).words.length = ws.length := by
  unfold emptyPayload
  split <;> simp [Payload.withElements, Payload.words]

/-- Settles O44: a decoded request has used operand words of the table and its payload. -/
theorem requestLengthFollowsOpAndLen : Obligations.RequestLengthFollowsOpAndLen := by
  intro ws rest i h
  obtain ⟨ops, es, j, len, ho, hes, rfl, rfl⟩ := decodeRequest_hasOperands h
  refine ⟨ops ++ es, rfl, ?_⟩
  cases ho with
  | sendCommand w n op | writeDataWords w n op | writePixels w n op =>
    simp [Instr.withElements, op, hes, elementWords, Nat.add_comm 2]
  | sendData w n op =>
    simp [Instr.withElements, op, hes, elementWords, length_words_withElements, Nat.add_comm 2]
  | drawPixels w n op =>
    simp [Instr.withElements, op, hes, elementWords, length_pixelsOfWords es _ hes, Nat.add_comm 2,
      Nat.mul_comm 3]
  | fillRegion w w1 w2 w3 w4 n op =>
    simp [Instr.withElements, op, hes, elementWords, Nat.add_comm 6]
  | writeCommand w op | writeData w op | hardReset w op | init w op | clear w op | size w op
  | setAddressWindow w w1 w2 op | fillSolid w w1 w2 w3 w4 op =>
    simp [Instr.withElements, op, hes]

end Sys2Proof
end

section
/-! SUPPORT. The operands as numbers (R83, R84, R54), the wrappers (R94), and the answer to SIZE (R88). -/

namespace Sys2Proof.Machine

/-- The fields stand next to one another: 5, 6 and 5 bits (R84). -/
theorem toNat_pack (c : Rgb565) : (pack c).toNat = c.r.toNat * 2048 + c.g.toNat * 32 + c.b.toNat := by
  have hb := c.b.isLt
  have hg := c.g.isLt
  rw [pack, BitVec.toNat_append, BitVec.toNat_append, ← Nat.shiftLeft_add_eq_or_of_lt hb,
    ← Nat.shiftLeft_add_eq_or_of_lt hg, Nat.shiftLeft_eq, Nat.shiftLeft_eq]
  omega

theorem unpack_pack (c : Rgb565) : unpack (pack c) = c := by
  obtain ⟨r, g, b⟩ := c
  have hr := r.isLt
  have hg := g.isLt
  have hb := b.isLt
  have hfields : ∀ start len : Nat, ((pack ⟨r, g, b⟩).extractLsb' start len).toNat =
      (r.toNat * 2048 + g.toNat * 32 + b.toNat) / 2 ^ start % 2 ^ len := fun start len => by
    rw [BitVec.extractLsb'_toNat, toNat_pack, Nat.shiftRight_eq_div_pow]
  simp only [unpack, Rgb565.mk.injEq]
  refine ⟨BitVec.eq_of_toNat_eq ?_, BitVec.eq_of_toNat_eq ?_, BitVec.eq_of_toNat_eq ?_⟩ <;>
    rw [hfields] <;> omega

/-- Settles O23: `wireColour` is unpacking and packing, and the numbers of the fields determine them. -/
theorem colourPackingIsLossless : Obligations.ColourPackingIsLossless :=
  ⟨wireColour_id, unpack_pack, toNat_pack, wireColour_id⟩

theorem hi8_append_lo8 (v : U16) : (hi8 v ++ lo8 v : U16) = v := by
  apply BitVec.eq_of_getLsbD_eq
  intro i hi
  simp only [hi8, lo8, BitVec.getLsbD_append, BitVec.getLsbD_extractLsb']
  by_cases h : i < 8
  · simp [h]
  · simp [h, show i - 8 < 8 by omega, show 8 + (i - 8) = i by omega]

/-- Settles O24: the two bytes are quotient and remainder by 256. -/
theorem byteSplitAndWidening : Obligations.ByteSplitAndWidening := by
  refine ⟨fun v => ?_, hi8_append_lo8, fun b => BitVec.toNat_setWidth_of_le (by decide)⟩
  have := v.isLt
  simp only [hi8, lo8, BitVec.extractLsb'_toNat, Nat.shiftRight_eq_div_pow]
  omega

/-- Settles O7: each wrapper is its expansion's event list, and a request performed whole is its event
list (R11). -/
theorem wrappersAreTheirExpansions : Obligations.WrappersAreTheirExpansions :=
  fun _ _ _ _ _ => ⟨rfl, rfl, rfl, rfl⟩

/-- Settles O16: SIZE is a request without events. -/
theorem sizeRespondsThreeWords : Obligations.SizeRespondsThreeWords := fun s => by
  rw [exec_request .size s rfl rfl]
  exact congrArg _ (s.runPlan_quiet (sizePlan s.cfg) rfl rfl rfl rfl)

end Sys2Proof.Machine
end

section
/-! SUPPORT. The turn of an idle sequencer that meets no request: a word that spells none (R89), and the
rest of an ended request (R92). -/

namespace Sys2Proof.Machine

/-- An idle sequencer with nothing to discard answers a word that spells no request, and only that. -/
theorem State.badRequest_of_idle {s : State} (hs : s.seq = .idle) (hd : s.discard = 0) :
    s.badRequest = { s with result := { status := .badRequest, dims := none },
                            resp := s.resp ++ [0x000000FF] } := by
  cases s; cases hs; cases hd; rfl

/-- An idle sequencer takes a word that spells no request, and that word alone, from the port (R89). -/
theorem eventMove_badOp {s : State} {w : Word} {rest : List Word} (hs : s.seq = .idle)
    (hd : s.discard = 0) (hp : s.port = w :: rest)
    (hop : (lowByte w).toNat = 0 ∨ 15 ≤ (lowByte w).toNat) :
    eventMove s = .next (State.badRequest { s with port := rest }) := by
  have hf : fetchHeader s = .bad { s with port := rest } := by
    simp [fetchHeader, hd, hp, decodeHeader_badOp w rest hop]
  simp only [eventMove, hs, hf]

/-- Settles O29: the word gives no header, so it is taken alone and `BadRequest` is raised. -/
theorem wordThatSpellsNoRequest : Obligations.WordThatSpellsNoRequest := by
  intro s w rest hl ht hs hd hp hop
  have hidle : s.useTurn.seq = .idle := s.useTurn_seq.trans hs
  have hnone : s.useTurn.discard = 0 := s.useTurn_discard.trans hd
  have hport : s.useTurn.port = w :: rest := s.useTurn_port.trans hp
  have hdecode : ∃ e, decodeRequest s.useTurn.port = .error e := by
    rw [hport]
    exact ⟨_, decodeRequest_of_header_error (decodeHeader_badOp w rest hop)⟩
  rw [step_legal hl, moveOf_idle hidle hnone (ht.symm.imp_right fun h => ⟨h, hdecode⟩),
    eventMove_badOp hidle hnone hport hop,
    State.badRequest_of_idle (s := { s.useTurn with port := rest }) hidle hnone, State.useTurn_resp]

/-- An idle sequencer with unread payload discards it on either of its turns (R92). -/
theorem moveOf_discard {s : State} {m : Turn} (hm : m = .request ∨ m = .event) (hs : s.seq = .idle)
    (hd : 0 < s.discard) : moveOf m s = .next s.skipUnread := by
  have hne : s.discard ≠ 0 := Nat.ne_of_gt hd
  rcases hm with rfl | rfl
  · simp [moveOf, requestMove, hs, fetchRequest, hne]
  · simp [moveOf, eventMove, hs, fetchHeader, hne]

/-- Settles O50: the turn discards what has arrived. -/
theorem unreadPayloadIsDiscarded : Obligations.UnreadPayloadIsDiscarded := by
  intro s hl ht hs hd
  rw [step_legal hl, moveOf_discard ht (s.useTurn_seq.trans hs) (by simpa using hd), State.skipUnread,
    State.useTurn_port, State.useTurn_discard]

end Sys2Proof.Machine
end

section
/-! SUPPORT. Words written out from the encoding tables (R82, R86). -/

namespace Sys2Proof

/-- Settles O40: the decoder, evaluated on the words. -/
theorem sampleWordsDecode : Obligations.SampleWordsDecode := by
  unfold Obligations.SampleWordsDecode
  decide

end Sys2Proof
end

section
/-! SUPPORT. The transport calls (R110 to R112): one drive of `DC`, then the words, all at its level. -/

namespace Sys2Proof.Machine

/-! ## The next drive -/

theorem State.answersOk_one_iff (s : State) : s.answersOk 1 ↔ s.answerAt 0 = true := by
  simp [State.answersOk]

theorem State.firstFailure_zero_iff (s : State) : s.firstFailure 0 ↔ s.answerAt 0 = false := by
  simp [State.firstFailure, State.answersOk_zero]

/-! ## A drive of `DC` and words behind it -/

theorem map_eventOf_select (l : Level) (ws : List U16) :
    (Action.drive .dc l :: ws.map .write).map eventOf = .drive .dc l :: ws.map .write := by
  simp only [List.map_cons, eventOf_drive, map_eventOf_writes]

theorem wireFrom_select (d : Latch) (l : Level) (ws : List U16) :
    wireFrom d (.drive .dc l :: ws.map .write) = ws.map fun w => (.driven l, w) :=
  wireFrom_writes (.driven l) ws

/-- Bytes are zero-extended and share the level (R54, R80). -/
theorem wireFrom_select_bytes (d : Latch) (l : Level) (bytes : List Byte) :
    wireFrom d (.drive .dc l :: (bytes.map zext16).map .write) =
      bytes.map fun b => (.driven l, zext16 b) := by
  rw [wireFrom_select, List.map_map]
  rfl

theorem latchAfter_select (d : Latch) (l : Level) (ws : List U16) :
    latchAfter .dc d (.drive .dc l :: ws.map .write) = .driven l :=
  latchAfter_writes .dc (.driven l) ws

theorem drivesIn_select (l : Level) (ws : List U16) :
    drivesIn (.drive .dc l :: ws.map .write) = 1 :=
  congrArg (· + 1) (drivesIn_writes ws)

theorem busOnly_select (l : Level) (ws : List U16) :
    busOnly (.drive .dc l :: ws.map .write) = true :=
  busOnly_writes ws

/-- A plan whose events only use the bus, with every drive answered, ends as its status says: the case of
`State.runPlan_bus_ok` that R172 needs, where a condition stands at the end. -/
theorem State.runPlan_bus_conclude (s : State) (p : Plan) (hb : busOnly p.acts = true)
    (ho : p.opening = []) (h : s.answersOk (drivesIn p.acts)) :
    s.runPlan p = (s.afterBus p.acts).conclude p 0 := by
  have hopen : s.openRequest p = s := by simp [State.openRequest, ho, State.enqueue]
  unfold State.runPlan
  rw [hopen, State.performAll_busOnly s _ hb h]

section select

variable {p : Plan} {l : Level} {ws : List U16}
variable (hp : p.acts = .drive .dc l :: ws.map .write) (ho : p.opening = [])
include hp ho

/-- With the drive answered, the plan drives `DC`, writes its words and ends. -/
theorem State.runPlan_select_ok {s : State} (h : s.answerAt 0 = true) :
    s.runPlan p = (s.afterBus (.drive .dc l :: ws.map .write)).conclude p 0 := by
  rw [← hp]
  refine s.runPlan_bus_conclude p ?_ ho ?_
  · rw [hp, busOnly_select]
  · rwa [hp, drivesIn_select, State.answersOk_one_iff]

/-- With the drive failed, nothing comes after it. -/
theorem State.runPlan_select_fail {s : State} (h : s.answerAt 0 = false) :
    s.runPlan p = s.busFault 0 [.drive .dc l] := by
  refine (s.runPlan_bus_fail p l _ 0 hp ?_ ho ?_ (s.firstFailure_zero_iff.2 h)).trans ?_
  · rw [hp, busOnly_select]
  · rw [hp, drivesIn_select]; exact Nat.one_pos
  · rw [hp, map_eventOf_select]; rfl

/-- A request whose plan is one drive of `DC` and words runs on the bus. -/
theorem runsOnBus_select {i : Instr} {s : State} (he : exec i s = .next (s.runPlan p))
    (hc : p.closing = []) (hs : p.status = .ok) (hd : p.dims = none) :
    runsOnBus i s 1 l (.drive .dc l :: ws.map .write) := by
  have h := runsOnBus_of_plan (d := l) he hp (by rw [hp, busOnly_select]) ho hc hs hd
    (by rw [hp, map_eventOf_select, latchAfter_select])
  rwa [hp, drivesIn_select, map_eventOf_select] at h

end select

/-! ## The two transport calls -/

theorem sendCommandActs_select (bytes : List Byte) :
    sendCommandActs bytes = .drive .dc .low :: (bytes.map zext16).map .write := by
  simp [sendCommandActs, Config.dcCmdLevel]

theorem sendDataActs_select (p : Payload) :
    sendDataActs p = .drive .dc .high :: (payloadWords p).map .write := rfl

/-- The level of `DC` for a transport call, and the words it writes (R110, R111). -/
theorem transport_plan {i : Instr} {l : Level}
    (h : (∃ bytes, i = .sendCommand bytes) ∧ l = .low ∨ (∃ p, i = .sendData p) ∧ l = .high) :
    ∃ (p : Plan) (ws : List U16), p.acts = .drive .dc l :: ws.map .write ∧ p.opening = [] ∧
      ∀ s, exec i s = .next (s.runPlan p) := by
  rcases h with ⟨⟨bytes, rfl⟩, rfl⟩ | ⟨⟨p, rfl⟩, rfl⟩
  · exact ⟨sendCommandPlan bytes, _, sendCommandActs_select bytes, rfl, fun _ => rfl⟩
  · exact ⟨sendDataPlan p, _, sendDataActs_select p, rfl, fun _ => rfl⟩

/-- `send_data` of a supported format (R111). -/
theorem runsOnBus_sendData (s : State) {p : Payload} (h : supportedFormat p = true) :
    runsOnBus (.sendData p) s 1 .high (.drive .dc .high :: (payloadWords p).map .write) :=
  runsOnBus_select (p := sendDataPlan p) (sendDataActs_select p) rfl rfl rfl (by simp [sendDataPlan, h]) rfl

/-- The bytes of a call as the words it writes, zero-extended (R54). -/
theorem map_write_zext16 (bytes : List Byte) :
    (bytes.map fun b => Event.write (b.setWidth 16)) = (bytes.map zext16).map .write := by
  simp [zext16]

/-- Settles O1: the plan is one drive of `DC` and the bytes as words. -/
theorem sendCommandWritesCommandCycles : Obligations.SendCommandWritesCommandCycles := by
  intro bytes s
  rw [map_write_zext16]
  exact ⟨runsOnBus_select (p := sendCommandPlan bytes) (sendCommandActs_select bytes) rfl rfl rfl rfl rfl,
    wireFrom_select_bytes .U .low bytes⟩

/-- Settles O2: the three formats differ in their words alone. -/
theorem sendDataWritesSupportedPayloads : Obligations.SendDataWritesSupportedPayloads := by
  intro bytes words s
  rw [map_write_zext16]
  exact ⟨runsOnBus_sendData s rfl, runsOnBus_sendData s rfl, runsOnBus_sendData s rfl,
    wireFrom_select_bytes .U .high bytes, wireFrom_select .U .high words⟩

/-- Settles O3: the plan is the drive alone, and its end raises the condition. -/
theorem sendDataReportsOtherFormats : Obligations.SendDataReportsOtherFormats := by
  intro code raw s
  have hp := sendDataActs_select (.other code raw)
  have he : exec (.sendData (.other code raw)) s = .next (s.runPlan (sendDataPlan (.other code raw))) := rfl
  rw [he]
  refine ⟨fun h => ?_, fun h => ?_⟩
  · rw [State.runPlan_select_ok hp rfl (s.answersOk_one_iff.1 h)]
    rfl
  · rw [State.runPlan_select_fail hp rfl (s.firstFailure_zero_iff.1 h)]

/-- Settles O4: both calls are one drive of `DC` and words, and the words leave its level as it is. -/
theorem selectLineIsSetNotPulsed : Obligations.SelectLineIsSetNotPulsed := by
  intro i l s h
  obtain ⟨p, ws, hp, ho, he⟩ := transport_plan h
  refine ⟨_, ws, he s, fun h0 => ?_, fun h0 => ?_, fun c hc => ?_⟩
  · obtain ⟨htr, -, hdc, -⟩ := (s.afterBus (.drive .dc l :: ws.map .write)).conclude_fields p 0
    rw [State.runPlan_select_ok hp ho h0, htr, hdc, State.afterBus, map_eventOf_select, latchAfter_select]
    exact ⟨rfl, rfl⟩
  · rw [State.runPlan_select_fail hp ho h0]
    exact ⟨rfl, rfl⟩
  · rw [wireFrom_select] at hc
    obtain ⟨w, -, rfl⟩ := List.mem_map.1 hc
    rfl

end Sys2Proof.Machine
end

section
/-! SUPPORT. The driver operations (R120 to R125): each wrapper runs as its expansion does, the window
program and `clear` by their event lists, and `clear` as the solid fill of the canvas. -/

namespace Sys2Proof.Machine

/-! ## The wrappers (R120 to R123) -/

/-- A request that does what a request on the bus does runs on the bus as that one does (R94). -/
theorem runsOnBus_of_exec_eq {i j : Instr} {s : State} {n : Nat} {d : Level} {events : List Event}
    (he : exec i s = exec j s) (h : runsOnBus j s n d events) : runsOnBus i s n d events := by
  unfold runsOnBus
  rwa [he]

/-- A first word with opcode 3 is WRITE_COMMAND of its `IMM[7:0]`, and no further word is used (R86). -/
theorem decodeRequest_writeCommand {w : Word} {cmd : Byte} (rest : List Word)
    (hop : w.extractLsb' 0 8 = (3 : Byte)) (himm : w.extractLsb' 16 8 = cmd) :
    decodeRequest (w :: rest) = .ok (.writeCommand cmd, rest) := by
  subst himm
  exact (OperandWords.writeCommand w (congrArg BitVec.toNat hop)).decodeRequest (es := []) rfl rest

/-- Settles O5: the request is `send_command` of the one byte, whose end `runsOnBus` gives in full. -/
theorem writeCommandIsOneCommandCycle : Obligations.WriteCommandIsOneCommandCycle := by
  intro cmd s
  obtain ⟨hexpand, -⟩ := wrappersAreTheirExpansions cmd 0 [] [] s
  obtain ⟨⟨hok, hfail⟩, -⟩ := sendCommandWritesCommandCycles [cmd] s
  refine ⟨fun w rest => decodeRequest_writeCommand rest, hexpand, fun h => ?_, fun h => ?_⟩
  · exact ⟨_, hexpand.trans (hok (s.answersOk_one_iff.2 h)),
      rfl, rfl, rfl, rfl, rfl, rfl, rfl, rfl, rfl, rfl⟩
  · exact ⟨_, hexpand.trans (hfail 0 Nat.one_pos (s.firstFailure_zero_iff.2 h)),
      rfl, rfl, rfl, rfl, rfl, rfl, rfl, rfl, rfl⟩

/-- Settles O6: each call is `send_data` of a supported format, and a colour is its own packing. -/
theorem dataCallsStreamTheirOperands : Obligations.DataCallsStreamTheirOperands := by
  intro byte words colours s
  obtain ⟨-, hbyte, hwords, hpixels⟩ := wrappersAreTheirExpansions 0 byte words colours s
  refine ⟨runsOnBus_of_exec_eq hbyte (runsOnBus_sendData s rfl),
    runsOnBus_of_exec_eq hwords (runsOnBus_sendData s rfl), runsOnBus_of_exec_eq hpixels ?_⟩
  have hcolours : colours.map (fun c => pack (unpack c)) = colours := map_wireColour colours
  rw [hcolours]
  exact runsOnBus_sendData s rfl

/-! ## The window program (R124) -/

/-- Settles O8: the window's event list has ten drives and only uses the bus. -/
theorem addressWindowProgram : Obligations.AddressWindowProgram := by
  intro xs ys xe ye s
  obtain ⟨rest, hfirst⟩ := windowActs_first xs ys xe ye
  have h := runsOnBus_of_plan (i := .setAddressWindow xs ys xe ye) (s := s)
    (p := setAddressWindowPlan xs ys xe ye) (d := .high) rfl hfirst
    (windowActs_busOnly xs ys xe ye) rfl rfl rfl rfl (by
      rw [setAddressWindowPlan, windowActs_events, latchAfter_windowEvents])
  rw [setAddressWindowPlan, windowActs_drives, windowActs_events] at h
  exact ⟨h, wireFrom_windowEvents .U xs ys xe ye, rfl⟩

/-! ## `clear` (R125) -/

/-- The bounds of R6, each by itself. -/
theorem legal_iff {c : Config} :
    c.legal = true ↔ (1 ≤ c.width ∧ c.width ≤ 65536) ∧ 1 ≤ c.height ∧ c.height ≤ 65536 := by
  simp [Config.legal, and_assoc]

/-- The last coordinate of a side of `n` pixels, on its window field (R125, R155). -/
theorem coord_last {n : Nat} (h : 1 ≤ n) : coord ((n : Int) - 1) = BitVec.ofNat 16 (n - 1) := by
  rw [coord, ← BitVec.ofInt_natCast, Int.natCast_sub h]
  rfl

/-- The last coordinate of a side within the bounds of R6 fits its window field (R155). -/
theorem toNat_last {n : Nat} (h1 : 1 ≤ n) (h : n ≤ 65536) : (BitVec.ofNat 16 (n - 1)).toNat = n - 1 := by
  rw [BitVec.toNat_ofNat, Nat.mod_eq_of_lt (by omega)]

theorem length_paintEvents (xs ys xe ye : U16) (colours : List Colour) :
    (paintEvents xs ys xe ye colours).length = 23 + colours.length := by
  simp [paintEvents, windowEvents, commandEvents, byteEvents]
  omega

theorem length_paintCycles (xs ys xe ye : U16) (colours : List Colour) :
    (paintCycles xs ys xe ye colours).length = 11 + colours.length := by
  simp [paintCycles, windowCycles]
  omega

/-- The events of `clear` paint the window of the whole canvas (R125). -/
theorem clearActs_eq {c : Config} (h : c.legal = true) (colour : Colour) :
    clearActs c colour = paintActs 0 0 (BitVec.ofNat 16 (c.width - 1)) (BitVec.ofNat 16 (c.height - 1))
      (List.replicate (c.width * c.height) colour) := by
  obtain ⟨⟨hw, -⟩, hh, -⟩ := legal_iff.1 h
  rw [clearActs, coord_last hw, coord_last hh]

/-- Settles O9: `clear` paints the window of the whole canvas, whose corners fit their fields. -/
theorem clearStreamsTheWholeCanvas : Obligations.ClearStreamsTheWholeCanvas := by
  intro colour s hl xe ye pixels
  obtain ⟨⟨hw1, hw⟩, hh1, hh⟩ := legal_iff.1 hl
  have hpixels : pixels.length = s.cfg.width * s.cfg.height := List.length_replicate
  refine ⟨?_, wireFrom_paintEvents .U 0 0 xe ye pixels, toNat_last hw1 hw, toNat_last hh1 hh, ?_, ?_⟩
  · exact runsOnBus_paint (p := clearPlan s.cfg colour) 0 0 xe ye pixels rfl (clearActs_eq hl colour)
      rfl rfl rfl rfl
  · rw [length_paintCycles, hpixels]
  · rw [length_paintEvents, hpixels]

/-- The canvas is its own clip (R50, R150). -/
theorem clip_canvas {c : Config} (h : c.legal = true) :
    clip c { x := 0, y := 0, w := c.width, h := c.height } =
      some { x0 := 0, y0 := 0, x1 := c.width, y1 := c.height } := by
  obtain ⟨⟨hw, -⟩, hh, -⟩ := legal_iff.1 h
  have hne : ¬ ((c.width : Int) ≤ 0 ∨ (c.height : Int) ≤ 0) := by omega
  simp only [clip, Int.zero_add, Int.max_self, Int.min_self]
  rw [if_neg hne]

theorem area_canvas (w h : Nat) : Region.area { x0 := 0, y0 := 0, x1 := w, y1 := h } = w * h := by
  simp only [Region.area, Int.sub_zero]
  exact Int.toNat_natCast (w * h)

/-- The solid fill of the canvas has the plan of `clear` (R125, R154). -/
theorem fillSolidPlan_canvas {c : Config} (h : c.legal = true) (colour : Colour) :
    fillSolidPlan c { x := 0, y := 0, w := c.width, h := c.height } colour = clearPlan c colour := by
  simp only [fillSolidPlan, clip_canvas h, area_canvas]
  rfl

/-- Settles O10: the two requests have the same plan. -/
theorem clearEqualsSolidFillOfTheCanvas : Obligations.ClearEqualsSolidFillOfTheCanvas := by
  intro colour s hl
  rw [exec_request (.clear colour) s rfl rfl, exec_request (.fillSolid _ colour) s rfl rfl, planOf, planOf,
    fillSolidPlan_canvas hl]

end Sys2Proof.Machine
end

section
/-! SUPPORT. The control sequences as whole requests: `hard_reset` (R140) by its pulse, and `init` (R141 to
R143) cut at its settling delay, where the buffer is empty, so that its first part leaves one state however
often the buffer was emptied on the way. -/

namespace Sys2Proof.Machine

/-! ## A whole request by its event list -/

theorem State.runPlan_eq_conclude {s t : State} {p : Plan}
    (h : (s.openRequest p).performAll p.acts = (t, true)) : s.runPlan p = t.conclude p 0 := by
  simp only [State.runPlan, h]

theorem State.runPlan_eq_raise {s t : State} {p : Plan}
    (h : (s.openRequest p).performAll p.acts = (t, false)) :
    s.runPlan p = t.raise .controlLineFault 0 := by
  simp only [State.runPlan, h]

/-- An opening mark is no cycle (R61). -/
theorem State.openRequest_cycles (s : State) (p : Plan) :
    cyclesOf (s.openRequest p).buffer = cyclesOf s.buffer := by
  simp [State.openRequest, cyclesOf_append]

/-! ## `hard_reset` (R140) -/

theorem hardResetActs_of_absent {c : Config} (h : c.hasRst = false) : hardResetActs c = [] := by
  simp [hardResetActs, h]

theorem hardResetActs_of_present {c : Config} (h : c.hasRst = true) :
    hardResetActs c = resetStepActs .high ++ resetStepActs .low ++ resetStepActs .high := by
  simp [hardResetActs, h]

/-- The opening mark of `hard_reset` makes the picture unspecified when it arrives (R144, U17). -/
theorem State.openRequest_hardReset_arrived (s : State) (c : Config) :
    (s.openRequest (hardResetPlan c)).arrived = (s.sink.takeAll s.buffer).forget :=
  s.enqueue_arrived [.note .panelReset]

/-- Without a reset line the request is its mark alone (R140). -/
theorem State.runPlan_hardReset_absent {s : State} (h : s.cfg.hasRst = false) :
    s.runPlan (hardResetPlan s.cfg) =
      (s.openRequest (hardResetPlan s.cfg)).conclude (hardResetPlan s.cfg) 0 := by
  refine State.runPlan_eq_conclude ?_
  rw [hardResetPlan, hardResetActs_of_absent h, State.performAll_nil]

/-- With its three drives answered the request is its pulse (R140). -/
theorem State.runPlan_hardReset_present {s : State} (h : s.cfg.hasRst = true) (hok : s.answersOk 3) :
    s.runPlan (hardResetPlan s.cfg) =
      (s.openRequest (hardResetPlan s.cfg)).afterPulse.conclude (hardResetPlan s.cfg) 0 := by
  have hacts : (hardResetPlan s.cfg).acts = _ := hardResetActs_of_present h
  refine State.runPlan_eq_conclude ?_
  rw [hacts]
  exact State.performAll_pulse _ hok

/-- At its first failing drive the pulse stops (R140, R176). -/
theorem State.runPlan_hardReset_fail {s : State} {m : Nat} (h : s.cfg.hasRst = true) (hm : m < 3)
    (hfail : s.firstFailure m) :
    s.runPlan (hardResetPlan s.cfg) =
      ((s.openRequest (hardResetPlan s.cfg)).afterPulseFail m).raise .controlLineFault 0 := by
  have hacts : (hardResetPlan s.cfg).acts = _ := hardResetActs_of_present h
  refine State.runPlan_eq_raise ?_
  rw [hacts]
  exact State.performAll_pulse_fail _ m hm hfail

/-- Settles O11: the request is its mark and, with a reset line, the pulse, before which the buffer
empties. -/
theorem hardResetPulsesTheLine : Obligations.HardResetPulsesTheLine := by
  intro s
  have he : exec .hardReset s = .next (s.runPlan (hardResetPlan s.cfg)) := rfl
  have hcycles := s.openRequest_cycles (hardResetPlan s.cfg)
  have hsink := s.openRequest_hardReset_arrived s.cfg
  rw [State.arrived] at hsink
  rw [he]
  refine ⟨fun h => ?_, fun t ht => ?_, fun h hok => ?_, fun h m hm hfail => ?_⟩
  · rw [State.runPlan_hardReset_absent h]
    simp [State.conclude, State.endRequest, State.openRequest, State.enqueue, State.quietEnd,
      hardResetPlan, responseWords, statusCode]
  · obtain rfl := Host.Outcome.next.inj ht
    exact hardReset_blanks s s.cfg
  · rw [State.runPlan_hardReset_present h hok, State.afterPulse, hcycles, hsink]
    rfl
  · rw [State.runPlan_hardReset_fail h hm hfail, State.afterPulseFail, hcycles, hsink]
    rfl

/-! ## An event list up to an empty buffer -/

/-- The state after an event list that ran to its end, once the buffer has emptied behind it. -/
def State.afterDrained (s : State) (as : List Action) : State :=
  { s with dc := latchAfter .dc s.dc (as.map eventOf),
           rst := latchAfter .rst s.rst (as.map eventOf),
           bl := latchAfter .bl s.bl (as.map eventOf),
           tr := s.tr ++ as.map eventOf,
           pins := s.pins ++ cyclesOf s.buffer ++ wireFrom s.dc (as.map eventOf),
           sink := s.arrived.takeCycles (wireFrom s.dc (as.map eventOf)), buffer := [],
           lineAnswers := s.lineAnswers.drop (drivesIn as), drives := s.drives + drivesIn as }

/-- Where the buffer emptied before does not matter once it is empty (R31, R61). -/
theorem State.drain_of_performAll {s t : State} {as : List Action} (h : s.performAll as = (t, true)) :
    t.drain = s.afterDrained as := by
  have hran := State.performAll_true s t as h
  simp only [State.drain, State.afterDrained, State.mk.injEq]
  exact ⟨hran.cfg, hran.latch .dc, hran.latch .rst, hran.latch .bl, hran.seq, hran.result, hran.tr,
    hran.host, hran.port, hran.discard, hran.resp, trivial, hran.cycles, State.performAll_arrived h,
    hran.lineAnswers, hran.drives, hran.schedule, hran.freeMoves⟩

/-- An event list, a delay, and a list that only uses the bus, with every drive answered. -/
theorem State.performAll_delay_bus (s : State) (as bs : List Action) (ms : Nat) (hb : busOnly bs = true)
    (h : s.answersOk (drivesIn as + drivesIn bs)) :
    s.performAll (as ++ .delay ms :: bs) =
      (((s.afterDrained as).emit (.delay ms)).afterBus bs, true) := by
  obtain ⟨t, ht⟩ := s.performAll_of_answersOk as (State.answersOk_mono h (Nat.le_add_right _ _))
  have hdelay : t.delay ms = (s.afterDrained as).emit (.delay ms) := by
    rw [State.delay, State.drain_of_performAll ht]
  have hbus := State.performAll_busOnly ((s.afterDrained as).emit (.delay ms)) bs hb
    (State.answersOk_later rfl rfl h)
  rw [State.performAll_append, ht]
  simp only [State.performAll, State.perform, hdelay, hbus]

/-! ## `init` (R141 to R143) -/

/-- What `init` does up to and with sleep out. -/
def initHeadActs (c : Config) : List Action :=
  hardResetActs c ++ backlightActs c ++ c.initTable.flatMap tableEntryActs ++ writeCommandActs 0x11

theorem initActs_eq (c : Config) :
    initActs c = initHeadActs c ++ .delay 60 :: writeCommandActs 0x29 := by
  simp [initActs, initTailActs, initHeadActs, Config.tSlpoutMs]

theorem initHeadActs_events (c : Config) :
    (initHeadActs c).map eventOf = wakeEvents c ++ tableEvents c.initTable ++ commandEvents 0x11 := by
  have hback : (backlightActs c).map eventOf = if c.hasBl then [.drive .bl .high] else [] := by
    unfold backlightActs
    split <;> rfl
  simp only [initHeadActs, wakeEvents, List.map_append, hardResetActs_events, hback, tableActs_events,
    writeCommandActs_events]

theorem initHeadActs_drives (c : Config) :
    drivesIn (initHeadActs c) + 1 = wakeDrives c + tableDrives c.initTable + 2 := by
  rw [← initActs_drives, initActs_eq, drivesIn_append]
  rfl

/-- A list that only uses the bus leaves every latch but that of `DC`. -/
theorem latchAfter_busOnly {line : Line} (v : Latch) {as : List Action} (h : busOnly as = true)
    (hline : line ≠ .dc) : latchAfter line v (as.map eventOf) = v := by
  induction as with
  | nil => rfl
  | cons a as ih =>
    cases a with
    | drive m l =>
      cases m with
      | dc => simpa [latchAfter, hline.symm] using ih h
      | rst => cases h
      | bl => cases h
    | write w => exact ih h
    | delay ms => cases h

/-- The table and sleep out leave every latch but that of `DC`. -/
theorem latchAfter_initHead (c : Config) {line : Line} (v : Latch) (hline : line ≠ .dc) :
    latchAfter line v ((initHeadActs c).map eventOf) = latchAfter line v (wakeEvents c) := by
  have htable := fun w => latchAfter_busOnly w (tableActs_busOnly c.initTable) hline
  have hsleep := fun w => latchAfter_busOnly w (writeCommandActs_busOnly 0x11) hline
  simp only [tableActs_events, writeCommandActs_events] at htable hsleep
  rw [initHeadActs_events, latchAfter_append, latchAfter_append, htable, hsleep]

theorem latchAfter_initHead_rst (c : Config) (v : Latch) :
    latchAfter .rst v ((initHeadActs c).map eventOf) = if c.hasRst then .driven .high else v := by
  rw [latchAfter_initHead c v (by decide), wakeEvents]
  cases c.hasRst <;> cases c.hasBl <;> rfl

theorem latchAfter_initHead_bl (c : Config) (v : Latch) :
    latchAfter .bl v ((initHeadActs c).map eventOf) = if c.hasBl then .driven .high else v := by
  rw [latchAfter_initHead c v (by decide), wakeEvents]
  cases c.hasRst <;> cases c.hasBl <;> rfl

theorem latchAfter_initHead_dc (c : Config) (v : Latch) :
    latchAfter .dc v ((initHeadActs c).map eventOf) = .driven .low := by
  rw [initHeadActs_events, latchAfter_append]
  rfl

/-- The cycles of `init` but the last one. -/
theorem wireFrom_initHead (d : Latch) (c : Config) :
    wireFrom d ((initHeadActs c).map eventOf) = tableCycles c.initTable ++ [commandCycle 0x11] := by
  have h := wireFrom_initActs d c
  rw [initActs_eq, List.map_append, wireFrom_append, List.append_cons] at h
  exact List.append_cancel_right h

/-- The sink when everything sent before an `init` and its opening mark have arrived (R71). -/
theorem State.openRequest_init_arrived (s : State) :
    (s.openRequest (initPlan s.cfg)).arrived = s.sinkAtTable :=
  s.enqueue_arrived [.note .initBegin]

/-- With every drive answered, an `init` is its head, the settling delay, and display on. -/
theorem State.runPlan_init {s : State}
    (h : s.answersOk (wakeDrives s.cfg + tableDrives s.cfg.initTable + 2)) :
    s.runPlan (initPlan s.cfg) =
      ((((s.openRequest (initPlan s.cfg)).afterDrained (initHeadActs s.cfg)).emit (.delay 60)).afterBus
        (writeCommandActs 0x29)).conclude (initPlan s.cfg) 0 := by
  have hacts : (initPlan s.cfg).acts = _ := initActs_eq s.cfg
  refine State.runPlan_eq_conclude ?_
  rw [hacts]
  refine State.performAll_delay_bus _ _ _ 60 (writeCommandActs_busOnly 0x29) ?_
  rw [writeCommandActs_drives, initHeadActs_drives]
  exact h

/-- Settles O12: the head of `init` leaves the buffer empty behind the delay, so the table and sleep out
are on the pins and at the sink; display on and the closing mark are in the buffer. -/
theorem initReplaysTheTable : Obligations.InitReplaysTheTable := by
  intro s h
  have he : exec .init s = .next (s.runPlan (initPlan s.cfg)) := rfl
  have htr : s.tr ++ (initHeadActs s.cfg).map eventOf ++ [.delay 60] ++ commandEvents 0x29 =
      s.tr ++ initEvents s.cfg := by
    simp [initHeadActs_events, initEvents]
  rw [he, State.runPlan_init h, State.afterDrained, State.openRequest_cycles,
    State.openRequest_init_arrived, latchAfter_initHead_dc, latchAfter_initHead_rst,
    latchAfter_initHead_bl, wireFrom_initHead, ← htr, ← initHeadActs_drives, ← List.drop_drop,
    List.append_assoc _ (tableCycles _)]
  rfl

/-! ## The counts of R141 -/

theorem tableDrives_eq (t : List TableEntry) :
    tableDrives t = t.length + (t.map fun e => e.2.length).sum := by
  simp [tableDrives, List.sum_map_add, Nat.add_comm]

theorem length_tableCycles (t : List TableEntry) : (tableCycles t).length = tableDrives t := by
  simp [tableCycles, tableDrives]

theorem length_tableEvents (t : List TableEntry) : (tableEvents t).length = 2 * tableDrives t := by
  have hentry : ∀ e : TableEntry, (commandEvents e.1 ++ e.2.flatMap byteEvents).length =
      2 * (e.2.length + 1) := fun e => by
    simp [commandEvents, byteEvents]
    omega
  simp only [tableEvents, tableDrives, List.length_flatMap, hentry, List.sum_map_mul_left]

theorem length_wakeEvents (c : Config) :
    (wakeEvents c).length = (if c.hasRst then 6 else 0) + (if c.hasBl then 1 else 0) := by
  unfold wakeEvents
  cases c.hasRst <;> cases c.hasBl <;> rfl

theorem length_initEvents (c : Config) :
    (initEvents c).length = 2 * (tableDrives c.initTable + 2) + 1 + (wakeEvents c).length := by
  simp [initEvents, length_tableEvents, commandEvents]
  omega

/-- Settles O13: the next state of a completed `init`, counted. -/
theorem initEventCounts : Obligations.InitEventCounts := by
  rintro s n m rfl rfl hok
  rw [← tableDrives_eq] at hok ⊢
  refine ⟨_, initEvents s.cfg, initReplaysTheTable s hok, rfl, rfl, ?_, ?_, ?_⟩
  · rw [length_initEvents, length_wakeEvents]
    exact (Nat.add_assoc _ _ _).symm
  · rw [← initActs_events, wireFrom_initActs, List.length_append, length_tableCycles]
    rfl
  · simp [length_tableCycles, cyclesOf]
    omega

end Sys2Proof.Machine
end

section
/-! SUPPORT. The clip arithmetic (R150, R155): what a clip is, when there is none, and that it fits the
window fields. -/

namespace Sys2Proof.Machine

/-- A clip is the larger of the two starts and the smaller of the two ends on each axis, and has a point
(R150). -/
theorem clip_eq_some_iff {c : Config} {r : Rect} {g : Region} :
    clip c r = some g ↔
      (g.x0 = max r.x 0 ∧ g.x1 = min (r.x + r.w) c.width ∧ g.x0 < g.x1) ∧
      (g.y0 = max r.y 0 ∧ g.y1 = min (r.y + r.h) c.height ∧ g.y0 < g.y1) := by
  obtain ⟨x0, y0, x1, y1⟩ := g
  unfold clip
  dsimp only
  split
  · simp only [reduceCtorEq, false_iff]
    omega
  · simp only [Option.some.injEq, Region.mk.injEq]
    omega

theorem inside_iff {c : Config} {r : Rect} :
    inside c r = true ↔
      (0 < r.w ∧ 0 ≤ r.x ∧ r.x + r.w ≤ c.width) ∧ (0 < r.h ∧ 0 ≤ r.y ∧ r.y + r.h ≤ c.height) := by
  simp only [inside, Bool.and_eq_true, decide_eq_true_eq]
  omega

/-- The point `(x, y)` is in the rectangle and on the canvas (R50, R150). -/
def InBoth (c : Config) (r : Rect) (x y : Int) : Prop :=
  (r.x ≤ x ∧ x < r.x + r.w ∧ r.y ≤ y ∧ y < r.y + r.h) ∧ (0 ≤ x ∧ x < c.width ∧ 0 ≤ y ∧ y < c.height)

theorem mem_clip_iff {c : Config} {r : Rect} {g : Region} (h : clip c r = some g) (x y : Int) :
    (g.x0 ≤ x ∧ x < g.x1 ∧ g.y0 ≤ y ∧ y < g.y1) ↔ InBoth c r x y := by
  obtain ⟨⟨hx0, hx1, -⟩, hy0, hy1, -⟩ := clip_eq_some_iff.1 h
  unfold InBoth
  omega

/-- There is no clip exactly when no point is in both; a clip has its first corner in both. -/
theorem clip_eq_none_iff {c : Config} {r : Rect} : clip c r = none ↔ ¬ ∃ x y, InBoth c r x y := by
  cases h : clip c r with
  | some g =>
    obtain ⟨⟨-, -, hx⟩, -, -, hy⟩ := clip_eq_some_iff.1 h
    have hcorner : InBoth c r g.x0 g.y0 := (mem_clip_iff h _ _).1 ⟨le_rfl, hx, le_rfl, hy⟩
    simpa using ⟨_, _, hcorner⟩
  | none =>
    refine iff_of_true rfl ?_
    rintro ⟨x, y, hr, hc⟩
    have hsome : clip c r = some ⟨_, _, _, _⟩ :=
      clip_eq_some_iff.2 ⟨⟨rfl, rfl, by dsimp only; omega⟩, rfl, rfl, by dsimp only; omega⟩
    simp [h] at hsome

/-- A rectangle is inside the canvas when clipping leaves it as it is (R150). -/
theorem inside_iff_clip {c : Config} {r : Rect} :
    inside c r = true ↔ clip c r = some { x0 := r.x, y0 := r.y, x1 := r.x + r.w, y1 := r.y + r.h } := by
  rw [inside_iff, clip_eq_some_iff]
  dsimp only
  omega

/-- Settles O21: a clip's points are those in both, it has one, and an inside rectangle is its own clip. -/
theorem clipIsTheIntersection : Obligations.ClipIsTheIntersection := by
  refine fun c r => ⟨fun g hg => ?_, clip_eq_none_iff, inside_iff_clip⟩
  obtain ⟨⟨-, -, hx⟩, -, -, hy⟩ := clip_eq_some_iff.1 hg
  exact ⟨hx, hy, mem_clip_iff hg⟩

/-- A coordinate of the space of R50 fits its window field (R155). -/
theorem toNat_coord {v : Int} (h0 : 0 ≤ v) (h : v < 65536) : ((coord v).toNat : Int) = v := by
  rw [coord, BitVec.toNat_ofInt, Int.toNat_of_nonneg (Int.emod_nonneg _ (by decide))]
  exact Int.emod_eq_of_lt h0 h

/-- A clip lies on the canvas (R150). -/
theorem clip_bounds {c : Config} {r : Rect} {g : Region} (h : clip c r = some g) :
    (0 ≤ g.x0 ∧ g.x0 < g.x1 ∧ g.x1 ≤ c.width) ∧ (0 ≤ g.y0 ∧ g.y0 < g.y1 ∧ g.y1 ≤ c.height) := by
  have := clip_eq_some_iff.1 h
  omega

/-- The four coordinates of a clip's window fit their fields (R155). -/
theorem toNat_coord_clip {c : Config} {r : Rect} {g : Region} (hl : c.legal = true)
    (h : clip c r = some g) :
    ((coord g.x0).toNat : Int) = g.x0 ∧ ((coord g.y0).toNat : Int) = g.y0 ∧
    ((coord (g.x1 - 1)).toNat : Int) = g.x1 - 1 ∧ ((coord (g.y1 - 1)).toNat : Int) = g.y1 - 1 := by
  have hlegal := legal_iff.1 hl
  have hbounds := clip_bounds h
  refine ⟨toNat_coord ?_ ?_, toNat_coord ?_ ?_, toNat_coord ?_ ?_, toNat_coord ?_ ?_⟩ <;> omega

/-- The area of a clip as an integer (R150). -/
theorem area_clip {c : Config} {r : Rect} {g : Region} (h : clip c r = some g) :
    (g.area : Int) = (g.x1 - g.x0) * (g.y1 - g.y0) := by
  obtain ⟨⟨-, hx, -⟩, -, hy, -⟩ := clip_bounds h
  exact Int.toNat_of_nonneg (Int.mul_nonneg (by omega) (by omega))

/-- Settles O22: a clip lies on the canvas, and each of its sides is at most the canvas's. -/
theorem clipFitsTheWindowFields : Obligations.ClipFitsTheWindowFields := by
  intro c r g hl hg
  obtain ⟨hx0, hy0, hx1, hy1⟩ := toNat_coord_clip hl hg
  refine ⟨hx0, hy0, hx1, hy1, area_clip hg, ?_⟩
  obtain ⟨⟨hx0, hx, hx1⟩, hy0, hy, hy1⟩ := clip_bounds hg
  have harea : (g.x1 - g.x0) * (g.y1 - g.y0) ≤ (c.width : Int) * c.height :=
    Int.mul_le_mul (by omega) (by omega) (by omega) (by omega)
  rw [← area_clip hg] at harea
  exact_mod_cast harea

end Sys2Proof.Machine
end

section
/-! SUPPORT. The drawing requests by their plans (R151 to R154). -/

namespace Sys2Proof.Machine

/-! ## `size` (R151) -/

/-- A first word with opcode 11 is SIZE, and no further word is used (R86). -/
theorem decodeRequest_size {w : Word} (rest : List Word) (hop : w.extractLsb' 0 8 = (11 : Byte)) :
    decodeRequest (w :: rest) = .ok (.size, rest) :=
  (OperandWords.size w (congrArg BitVec.toNat hop)).decodeRequest (es := []) rfl rest

/-- Settles O15: SIZE only answers, and no step changes the configuration. -/
theorem sizeReportsTheGeometry : Obligations.SizeReportsTheGeometry := by
  refine ⟨fun s => ⟨_, sizeRespondsThreeWords s, rfl, ?_, rfl, rfl, rfl, rfl, rfl, rfl, rfl, rfl⟩,
    fun _ => decodeRequest_size, fun s t h => ?_⟩
  · simp [State.quietEnd]
  · obtain ⟨hcfg, -⟩ := stepKeepsConfigurationAndAbsentLines s t h
    rw [hcfg]
    exact ⟨rfl, rfl⟩

/-! ## `draw_pixels` (R152) -/

theorem pixelActs_events (p : Pixel) : (pixelActs p).map eventOf = pixelEvents p :=
  paintActs_events _ _ _ _ _

theorem pixelsActs_events (ps : List Pixel) :
    (ps.flatMap pixelActs).map eventOf = ps.flatMap pixelEvents := by
  simp only [List.map_flatMap, pixelActs_events]

theorem pixelsActs_drives (ps : List Pixel) : drivesIn (ps.flatMap pixelActs) = 12 * ps.length := by
  induction ps with
  | nil => rfl
  | cons p ps ih =>
    rw [List.flatMap_cons, drivesIn_append, ih, pixelActs, paintActs_drives, List.length_cons]
    omega

theorem pixelsActs_busOnly (ps : List Pixel) : busOnly (ps.flatMap pixelActs) = true := by
  induction ps with
  | nil => rfl
  | cons p ps ih => simp [busOnly_append, ih, pixelActs]

/-- Each pixel's stream leaves `DC` at the data level (R112, R152). -/
theorem latchAfter_pixelsEvents {ps : List Pixel} (d : Latch) (h : ps ≠ []) :
    latchAfter .dc d (ps.flatMap pixelEvents) = .driven .high := by
  induction ps generalizing d with
  | nil => exact absurd rfl h
  | cons p ps ih =>
    rw [List.flatMap_cons, latchAfter_append, pixelEvents, latchAfter_paintEvents]
    cases ps with
    | nil => rfl
    | cons q qs => exact ih _ (List.cons_ne_nil q qs)

/-- Under `emit` every triple is sent; under the two other policies one off the canvas has no events
(R152, D9). -/
theorem tripleActs_eq (c : Config) (p : Pixel) :
    tripleActs c p = if c.pixelOob = .emit ∨ onCanvas c p = true then pixelActs p else [] := by
  unfold tripleActs
  cases onCanvas c p <;> cases c.pixelOob <;> rfl

/-- The events of a `draw_pixels` are those of the triples sent, in order (R152, D6). -/
theorem drawPixelsPlan_acts (c : Config) (ps : List Pixel) :
    (drawPixelsPlan c ps).acts = (sentPixels c ps).flatMap pixelActs := by
  change ps.flatMap (tripleActs c) = _
  unfold sentPixels
  split
  · rename_i he
    have htriple : tripleActs c = pixelActs := funext fun p => by simp [tripleActs_eq, he]
    rw [htriple]
  · rename_i he
    induction ps with
    | nil => rfl
    | cons p ps ih =>
      rw [List.flatMap_cons, ih, tripleActs_eq]
      cases hp : onCanvas c p <;> simp [he, hp]

/-- Settles O17: the plan is the event lists of the triples sent, one after the other. -/
theorem drawPixelsSendsEachTriple : Obligations.DrawPixelsSendsEachTriple := by
  intro ps s ha
  have he := exec_request (.drawPixels ps) s rfl ha
  have hacts := drawPixelsPlan_acts s.cfg ps
  refine ⟨fun h => ?_, fun h => ?_⟩
  · rw [h, List.flatMap_nil] at hacts
    rw [he]
    exact congrArg _ (s.runPlan_quiet (drawPixelsPlan s.cfg ps) hacts rfl rfl rfl)
  · obtain ⟨p, qs, hsent⟩ := List.exists_cons_of_ne_nil h
    have hrun := runsOnBus_of_plan (p := drawPixelsPlan s.cfg ps) (d := .high) he
      (by rw [hacts, hsent]; rfl) (by rw [hacts, pixelsActs_busOnly]) rfl rfl rfl rfl
      (by rw [hacts, pixelsActs_events, latchAfter_pixelsEvents _ h])
    rwa [hacts, pixelsActs_drives, pixelsActs_events] at hrun

/-- Settles O18: a request stops for a triple off the canvas only, and exactly when it is not admitted. -/
theorem drawPixelsOffCanvasIsNotAdmitted : Obligations.DrawPixelsOffCanvasIsNotAdmitted := by
  intro ps s
  have hoff : admitted s.cfg (.drawPixels ps) = false ↔ s.cfg.pixelOob = .refuse ∧
      ∃ p ∈ ps, ¬ (0 ≤ p.x ∧ p.x < s.cfg.width ∧ 0 ≤ p.y ∧ p.y < s.cfg.height) := by
    simp [admitted_false_iff]
  rw [← hoff]
  rcases exec_outcome (.drawPixels ps) s with ⟨ha, he⟩ | ⟨ha, t, he⟩
  · simp [he, ha, eq_comm]
  · simp [he, ha]

/-! ## `fill_region` and `fill_solid` (R153, R154) -/

theorem fillRegionPlan_empty {c : Config} {r : Rect} (colours : List Colour) (h : clip c r = none) :
    fillRegionPlan c r colours = { acts := [] } := by
  simp [fillRegionPlan, h]

theorem fillRegionPlan_straddling {c : Config} {r : Rect} (colours : List Colour) (h : clip c r ≠ none)
    (hin : inside c r = false) :
    fillRegionPlan c r colours = { acts := [], status := .unsupportedOverlap } := by
  obtain ⟨g, hg⟩ := Option.ne_none_iff_exists'.1 h
  simp [fillRegionPlan, hg, hin]

/-- A rectangle inside the canvas is its own clip, so it is programmed as it is (R153, D10). -/
theorem fillRegionPlan_inside {c : Config} {r : Rect} (colours : List Colour) (h : inside c r = true) :
    fillRegionPlan c r colours =
      { acts := paintActs (coord r.x) (coord r.y) (coord (r.x + r.w - 1)) (coord (r.y + r.h - 1)) colours,
        streams := true } := by
  simp [fillRegionPlan, inside_iff_clip.1 h, h, regionActs]

/-- A plan without events that reports `UnsupportedOverlap`: the request ends at once (R153, R173). -/
theorem State.runPlan_overlap (s : State) {p : Plan} (ha : p.acts = []) (ho : p.opening = [])
    (hs : p.status = .unsupportedOverlap) :
    s.runPlan p = s.quietEnd { status := .unsupportedOverlap, dims := none } [0x00000003] := by
  simp [State.runPlan, State.openRequest, State.conclude, State.raise, State.quietEnd, State.enqueue,
    State.endRequest, responseWords, statusCode, ha, ho, hs]

/-- Settles O19: the plan of each of the three cases. -/
theorem fillRegionDispatch : Obligations.FillRegionDispatch := by
  intro r colours s
  have he := exec_request (.fillRegion r colours) s rfl rfl
  rw [planOf] at he
  refine ⟨fun h => ?_, fun h hin => ?_, fun hin => ?_⟩
  · rw [he, fillRegionPlan_empty colours h]
    exact congrArg _ (s.runPlan_quiet _ rfl rfl rfl rfl)
  · rw [he, fillRegionPlan_straddling colours h hin]
    exact congrArg _ (s.runPlan_overlap rfl rfl rfl)
  · rw [fillRegionPlan_inside colours hin] at he
    exact runsOnBus_paint _ _ _ _ colours he rfl rfl rfl rfl rfl

theorem fillSolidPlan_empty {c : Config} {r : Rect} (colour : Colour) (h : clip c r = none) :
    fillSolidPlan c r colour = { acts := [] } := by
  simp [fillSolidPlan, h]

theorem fillSolidPlan_clip {c : Config} {r : Rect} {g : Region} (colour : Colour)
    (h : clip c r = some g) :
    fillSolidPlan c r colour = { acts := regionActs g (List.replicate g.area colour) } := by
  simp [fillSolidPlan, h]

/-- Settles O20: the plan of an empty clip, and of any other. -/
theorem fillSolidClips : Obligations.FillSolidClips := by
  intro r colour s
  have he := exec_request (.fillSolid r colour) s rfl rfl
  rw [planOf] at he
  refine ⟨fun h => ?_, fun g hg => ?_⟩
  · rw [he, fillSolidPlan_empty colour h]
    exact congrArg _ (s.runPlan_quiet _ rfl rfl rfl rfl)
  · rw [fillSolidPlan_clip colour hg] at he
    exact runsOnBus_paint _ _ _ _ _ he rfl rfl rfl rfl rfl

end Sys2Proof.Machine
end

section
/-! SUPPORT. The end of every request: idle, with one response (R157, R209). -/

namespace Sys2Proof.Machine

/-- What a request returns with: one response for its result, the configuration and the port as before. -/
structure Answers (s t : State) : Prop where
  resp : t.resp = s.resp ++ responseWords t.result
  cfg : t.cfg = s.cfg
  port : t.port = s.port

theorem State.conclude_answers (s : State) (p : Plan) (n : Nat) : Answers s (s.conclude p n) := by
  unfold State.conclude
  split <;> constructor <;> simp

theorem State.raise_answers (s : State) (c : Status) (n : Nat) : Answers s (s.raise c n) := by
  constructor <;> simp

/-- A whole request gives one response, at its end or at its failed drive (R11, R88, R176). -/
theorem State.runPlan_answers (s : State) (p : Plan) : Answers s (s.runPlan p) := by
  rcases s.runPlan_cases p with ⟨t, -, hran, he⟩ | ⟨before, line, l, after, u, -, -, hran, h0, he⟩
  · obtain ⟨hresp, hcfg, hport⟩ := t.conclude_answers p 0
    rw [hran.resp] at hresp
    rw [he]
    exact ⟨hresp, hcfg.trans hran.cfg, hport.trans hran.port⟩
  · obtain ⟨-, -, -, -, hdcfg, hdport, hdresp⟩ := State.drive_false u line l h0
    obtain ⟨hresp, hcfg, hport⟩ := (u.drive line l).1.raise_answers .controlLineFault 0
    rw [hdresp, hran.resp] at hresp
    rw [he]
    exact ⟨hresp, (hcfg.trans hdcfg).trans hran.cfg, (hport.trans hdport).trans hran.port⟩

/-- Settles O25: an admitted request is its plan, and a plan ends idle with one response. -/
theorem everyRequestEndsIdle : Obligations.EveryRequestEndsIdle := by
  intro i s hi ha
  obtain ⟨hresp, hcfg, hport⟩ := s.runPlan_answers (planOf s.cfg i)
  exact ⟨_, exec_request i s hi ha, s.runPlan_seq _, hresp, hcfg, hport⟩

end Sys2Proof.Machine
end

section
/-! SUPPORT. A solid fill where it arrives (R154, R72): every position of a window is one of its stream's,
and the fill's window is the clip. -/

namespace Sys2Proof.Machine

/-- Every position of a window is that of a word of its stream (R72). -/
theorem streamPos_surj {xs xe ys ye m col row : Nat} (hm : xs + m = xe + 1) (hcol : xs ≤ col ∧ col ≤ xe)
    (hrow : ys ≤ row ∧ row ≤ ye) : ∃ i < m * (ye - ys + 1), streamPos xs ys m i = (col, row) := by
  have hlt : col - xs < m := by omega
  obtain ⟨hdiv, hmod⟩ : ((col - xs) + m * (row - ys)) / m = row - ys ∧
      ((col - xs) + m * (row - ys)) % m = col - xs :=
    (Nat.div_mod_unique (by omega)).2 ⟨rfl, hlt⟩
  refine ⟨(col - xs) + m * (row - ys), ?_, ?_⟩
  · calc (col - xs) + m * (row - ys) < m + m * (row - ys) := by omega
      _ = m * (row - ys + 1) := by rw [Nat.mul_succ, Nat.add_comm]
      _ ≤ m * (ye - ys + 1) := Nat.mul_le_mul_left m (by omega)
  · rw [streamPos, hdiv, hmod, Nat.add_sub_cancel' hcol.1, Nat.add_sub_cancel' hrow.1]

/-- A solid stream that fills its window leaves the colour in the window and the rest as it was (R72). -/
theorem Sink.read_paint_solid {k : Sink} {xs ys xe ye : U16} {n : Nat} (colour : Colour)
    (hk : k.configured = true) (hx : xs.toNat ≤ xe.toNat) (hy : ys.toNat ≤ ye.toNat)
    (hn : n = (xe.toNat - xs.toNat + 1) * (ye.toNat - ys.toNat + 1)) {col row : Nat} (hcol : col < 65536) :
    (k.takeCycles (paintCycles xs ys xe ye (List.replicate n colour))).gram.read (gramAddr col row) =
      if xs.toNat ≤ col ∧ col ≤ xe.toNat ∧ ys.toNat ≤ row ∧ row ≤ ye.toNat then some colour
      else k.gram.read (gramAddr col row) := by
  obtain ⟨hin, hout, -⟩ := pixelStreamFillsTheWindow k xs ys xe ye (List.replicate n colour) hk hx hy
    (by rw [List.length_replicate, hn])
  split
  · rename_i h
    obtain ⟨i, hi, hpos⟩ := streamPos_surj (m := xe.toNat - xs.toNat + 1) (by omega) ⟨h.1, h.2.1⟩ h.2.2
    rw [← hn] at hi
    obtain ⟨rfl, rfl⟩ := Prod.mk.inj hpos
    rw [hin i (by simpa using hi), List.getElem?_replicate, if_pos hi]
  · exact hout col row hcol ‹_›

/-- The area of a clip is that of its window (R59, R154). -/
theorem area_window {c : Config} {r : Rect} {g : Region} (hl : c.legal = true) (h : clip c r = some g) :
    g.area = ((coord (g.x1 - 1)).toNat - (coord g.x0).toNat + 1) *
      ((coord (g.y1 - 1)).toNat - (coord g.y0).toNat + 1) := by
  have hb := clip_bounds h
  obtain ⟨hx0, hy0, hx1, hy1⟩ := toNat_coord_clip hl h
  have hw : (((coord (g.x1 - 1)).toNat - (coord g.x0).toNat + 1 : Nat) : Int) = g.x1 - g.x0 := by omega
  have hh : (((coord (g.y1 - 1)).toNat - (coord g.y0).toNat + 1 : Nat) : Int) = g.y1 - g.y0 := by omega
  have harea := area_clip h
  rw [← hw, ← hh] at harea
  exact_mod_cast harea

/-- A plan of events alone, with every drive answered, adds its cycles to what has arrived. -/
theorem State.runPlan_acts_arrived {s : State} {as : List Action} (h : s.answersOk (drivesIn as)) :
    (s.runPlan { acts := as }).arrived = s.arrived.takeCycles (wireFrom s.dc (as.map eventOf)) := by
  obtain ⟨t, ht⟩ := State.performAll_of_answersOk (s.openRequest { acts := as }) as h
  exact State.runPlan_arrived rfl ht

/-- A solid fill with every drive answered adds its window program and its stream to what has arrived. -/
theorem fillSolid_arrived {r : Rect} {colour : Colour} {s t : State} {g : Region}
    (hg : clip s.cfg r = some g) (hok : s.answersOk 12) (he : exec (.fillSolid r colour) s = .next t) :
    t.arrived = s.arrived.takeCycles (paintCycles (coord g.x0) (coord g.y0) (coord (g.x1 - 1))
      (coord (g.y1 - 1)) (List.replicate g.area colour)) := by
  obtain ⟨-, rfl⟩ := exec_next _ s t rfl he
  rw [planOf, fillSolidPlan_clip colour hg, regionActs, State.runPlan_acts_arrived, paintActs_events,
    wireFrom_paintEvents]
  rwa [paintActs_drives]

/-- Settles O36: the words of the fill reach the panel, and their window is the clip. -/
theorem solidFillPaintsExactlyTheClip : Obligations.SolidFillPaintsExactlyTheClip := by
  intro r colour s t g hl hg hok he hk col row hcol
  obtain ⟨hx0, hy0, hx1, hy1⟩ := toNat_coord_clip hl hg
  have hb := clip_bounds hg
  have hpaint := fillSolid_arrived hg hok he
  rw [State.arrived, State.arrived] at hpaint
  rw [hpaint, Sink.read_paint_solid colour hk (by omega) (by omega) (area_window hl hg) hcol]
  refine if_congr ?_ rfl rfl
  omega

end Sys2Proof.Machine
end

section
/-! SUPPORT. How a whole request ends (R170, R171, R176): which answers to its drives make it run to its
end, and which make it stop; its events and its result in each case. -/

namespace Sys2Proof.Machine

/-- The next `n` drive attempts succeed, or one of them is the first to fail (R171). -/
theorem State.answersOk_or_firstFailure (s : State) (n : Nat) :
    s.answersOk n ∨ ∃ m < n, s.firstFailure m := by
  induction n with
  | zero => exact .inl s.answersOk_zero
  | succ n ih =>
    rcases ih with hok | ⟨m, hm, hfail⟩
    · cases hn : s.answerAt n with
      | true => exact .inl fun j hj => (Nat.lt_succ_iff_lt_or_eq.1 hj).elim (hok j) (· ▸ hn)
      | false => exact .inr ⟨n, Nat.lt_succ_self n, hok, hn⟩
    · exact .inr ⟨m, Nat.lt_succ_of_lt hm, hfail⟩

/-- With every drive answered, a whole request performs its event list and ends with its plan's result. -/
theorem State.runPlan_of_answersOk {s : State} {p : Plan} (h : s.answersOk (drivesIn p.acts)) :
    Extends s (s.runPlan p) (p.acts.map eventOf) ∧
      (s.runPlan p).result = { status := p.status, dims := if p.status = .ok then p.dims else none } := by
  obtain ⟨t, ht⟩ := State.performAll_of_answersOk (s.openRequest p) p.acts h
  have hran := State.performAll_true _ _ _ ht
  rw [State.runPlan_eq_conclude ht]
  exact ⟨((s.openRequest_extends p).trans hran.extends).thenSilent (t.conclude_extends p 0),
    t.conclude_result p 0⟩

/-- With drive `m` the first to fail, a whole request performs what stands before that drive, adds the
failed drive, and ends with `ControlLineFault` (R171, R176). -/
theorem State.runPlan_of_firstFailure {s : State} {p : Plan} {m : Nat} (hm : m < drivesIn p.acts)
    (h : s.firstFailure m) :
    ∃ before line l after, p.acts = before ++ .drive line l :: after ∧ drivesIn before = m ∧
      Extends s (s.runPlan p) (before.map eventOf ++ [.driveFail line l]) ∧
      (s.runPlan p).result = { status := .controlLineFault, dims := none } := by
  obtain ⟨before, line, l, after, u, hacts, hdrives, hu, h0, hstop⟩ :=
    State.performAll_of_firstFailure (s.openRequest p) p.acts m hm h
  have hran := State.performAll_true _ _ _ hu
  refine ⟨before, line, l, after, hacts, hdrives, ?_⟩
  rw [State.runPlan_eq_raise hstop]
  exact ⟨(((s.openRequest_extends p).trans hran.extends).trans (u.drive_extends line l h0)).thenSilent
    (State.raise_extends _ _ _), State.raise_result _ _ _⟩

/-- The number of the first failing drive fixes the events and the result of a whole request. -/
theorem State.runPlan_untilDrive {s : State} {p : Plan} {m : Nat} (hm : m < drivesIn p.acts)
    (h : s.firstFailure m) :
    (s.runPlan p).tr = s.tr ++ untilDrive m (p.acts.map eventOf) ∧
      (s.runPlan p).result = { status := .controlLineFault, dims := none } := by
  obtain ⟨before, line, l, after, hacts, rfl, hext, hresult⟩ := State.runPlan_of_firstFailure hm h
  rw [hacts, untilDrive_append]
  exact ⟨hext.tr, hresult⟩

/-- What a failed drive at the end of the events leaves: its line unspecified, the other latches and the
cycles as the events before it left them (R171, D15). -/
theorem Extends.of_driveFail {s t : State} {es : List Event} {line : Line} {l : Level}
    (h : Extends s t (es ++ [.driveFail line l])) :
    t.latch line = .U ∧ (∀ other, other ≠ line → t.latch other = latchAfter other (s.latch other) es) ∧
      t.pins ++ cyclesOf t.buffer = s.pins ++ cyclesOf s.buffer ++ wireFrom s.dc es := by
  refine ⟨?_, fun other hne => ?_, ?_⟩
  · rw [h.latch, latchAfter_append]
    simp [latchAfter]
  · rw [h.latch, latchAfter_append]
    simp [latchAfter, hne.symm]
  · rw [h.cycles, wireFrom_append]
    simp [wireFrom]

/-- Settles O26: the request is its plan, which stops at that drive. -/
theorem failedDriveEndsTheRequest : Obligations.FailedDriveEndsTheRequest := by
  intro i s m hi ha hm hfail
  obtain ⟨before, line, l, after, hacts, hdrives, hext, hresult⟩ := State.runPlan_of_firstFailure hm hfail
  obtain ⟨hline, hothers, hcycles⟩ := hext.of_driveFail
  have hresp := (s.runPlan_answers (planOf s.cfg i)).resp
  rw [hresult] at hresp
  exact ⟨before, line, l, after, _, hacts, hdrives, exec_request i s hi ha,
    hext.tr.trans (List.append_assoc _ _ _).symm, hline, hothers, hcycles, hresult, hresp,
    s.runPlan_seq _, hext.cfg⟩

/-- Settles O27: with every drive answered no event is a failure and the status is the plan's, which is
never `ControlLineFault`; else the first failing drive is the last event. -/
theorem statusTellsTheFailedDrive : Obligations.StatusTellsTheFailedDrive := by
  intro i s t hi he
  obtain ⟨-, rfl⟩ := exec_next i s t hi he
  rcases s.answersOk_or_firstFailure (drivesIn (planOf s.cfg i).acts) with hok | ⟨m, hm, hfail⟩
  · obtain ⟨hext, hresult⟩ := State.runPlan_of_answersOk hok
    refine ⟨_, hext.tr, fun hfault => ?_, fun _ => driveFail_not_mem _⟩
    rw [hresult] at hfault
    exact absurd hfault (planOf_status s.cfg i)
  · obtain ⟨before, line, l, -, -, -, hext, hresult⟩ := State.runPlan_of_firstFailure hm hfail
    refine ⟨_, hext.tr, fun _ => ⟨_, line, l, rfl, driveFail_not_mem before⟩, fun hne => ?_⟩
    rw [hresult] at hne
    exact absurd rfl hne

/-! ## Priority (R178) -/

/-- A list that only uses the bus drives `DC` alone. -/
theorem filterMap_lineDriven_busOnly {as : List Action} (h : busOnly as = true) :
    as.filterMap lineDriven = List.replicate (drivesIn as) .dc := by
  induction as with
  | nil => rfl
  | cons a as ih =>
    cases a with
    | drive line l =>
      cases line with
      | dc => exact congrArg (Line.dc :: ·) (ih h)
      | rst => cases h
      | bl => cases h
    | write w => exact ih h
    | delay ms => cases h

/-- The lines an `init` drives, in order (R141, R178 (c)). -/
theorem filterMap_lineDriven_initActs (c : Config) :
    (initActs c).filterMap lineDriven =
      (if c.hasRst then [.rst, .rst, .rst] else []) ++ (if c.hasBl then [.bl] else []) ++
        List.replicate (tableDrives c.initTable + 2) .dc := by
  have hreset : (hardResetActs c).filterMap lineDriven = if c.hasRst then [.rst, .rst, .rst] else [] := by
    unfold hardResetActs
    split <;> rfl
  have hback : (backlightActs c).filterMap lineDriven = if c.hasBl then [.bl] else [] := by
    unfold backlightActs
    split <;> rfl
  have htail : initTailActs.filterMap lineDriven = List.replicate 2 .dc := rfl
  rw [initActs, List.filterMap_append, List.filterMap_append, List.filterMap_append, hreset, hback, htail,
    filterMap_lineDriven_busOnly (tableActs_busOnly _), tableActs_drives, List.append_assoc,
    List.replicate_append_replicate]

/-- A `fill_region` reports a failed drive only for a rectangle inside the canvas: the others attempt none
(R153, R178 (b)). -/
theorem inside_of_fillRegion_fault {r : Rect} {colours : List Colour} {s t : State}
    (he : exec (.fillRegion r colours) s = .next t) (h : t.result.status = .controlLineFault) :
    inside s.cfg r = true := by
  obtain ⟨hempty, hstraddling, -⟩ := fillRegionDispatch r colours s
  by_contra hin
  rw [Bool.not_eq_true] at hin
  by_cases hc : clip s.cfg r = none
  · obtain rfl := Host.Outcome.next.inj ((hempty hc).symm.trans he)
    cases h
  · obtain rfl := Host.Outcome.next.inj ((hstraddling hc hin).symm.trans he)
    cases h

/-- Settles O28: each clause by the rule of its request, and the last by the header alone. -/
theorem conditionPriority : Obligations.ConditionPriority := by
  refine ⟨fun code raw s h0 => ?_, fun r colours s => ?_, fun c => ⟨_, filterMap_lineDriven_initActs c⟩,
    fun s m hm hfail => ?_, fun w rest hop => ?_⟩
  · obtain ⟨-, hfail⟩ := sendDataReportsOtherFormats code raw s
    exact ⟨_, hfail (s.firstFailure_zero_iff.2 h0), rfl⟩
  · obtain ⟨hempty, hstraddling, -⟩ := fillRegionDispatch r colours s
    have he := exec_request (.fillRegion r colours) s rfl rfl
    refine ⟨_, he, fun hc => ?_, fun hc hin => ?_, inside_of_fillRegion_fault he⟩
    · rw [Host.Outcome.next.inj (he.symm.trans (hempty hc))]
      rfl
    · rw [Host.Outcome.next.inj (he.symm.trans (hstraddling hc hin))]
      rfl
  · obtain ⟨htr, hresult⟩ := State.runPlan_untilDrive (p := initPlan s.cfg) hm hfail
    refine ⟨_, exec_request .init s rfl rfl, congrArg Result.status hresult, ?_⟩
    rw [← initActs_events]
    exact htr
  · exact decodeRequest_of_header_error (decodeHeader_badOp w rest (by omega))

/-! ## No fault latch (R177) -/

/-- Two states with the same answers to the drives of a plan give it the same result and events (R171,
R177). -/
theorem State.runPlan_congr {s s' : State} {p : Plan}
    (h : ∀ j, j < drivesIn p.acts → s.answerAt j = s'.answerAt j) :
    (s.runPlan p).result = (s'.runPlan p).result ∧
      ∃ es, (s.runPlan p).tr = s.tr ++ es ∧ (s'.runPlan p).tr = s'.tr ++ es := by
  rcases s.answersOk_or_firstFailure (drivesIn p.acts) with hok | ⟨m, hm, hbefore, hat⟩
  · have hok' : s'.answersOk (drivesIn p.acts) := fun j hj => (h j hj).symm.trans (hok j hj)
    obtain ⟨hext, hresult⟩ := State.runPlan_of_answersOk hok
    obtain ⟨hext', hresult'⟩ := State.runPlan_of_answersOk hok'
    exact ⟨hresult.trans hresult'.symm, _, hext.tr, hext'.tr⟩
  · have hfail' : s'.firstFailure m :=
      ⟨fun j hj => (h j (hj.trans hm)).symm.trans (hbefore j hj), (h m hm).symm.trans hat⟩
    obtain ⟨htr, hresult⟩ := State.runPlan_untilDrive hm ⟨hbefore, hat⟩
    obtain ⟨htr', hresult'⟩ := State.runPlan_untilDrive hm hfail'
    exact ⟨hresult.trans hresult'.symm, _, htr, htr'⟩

/-- Settles O30: the configuration fixes the plan, and the answers to its drives fix the rest. -/
theorem noFaultLatch : Obligations.NoFaultLatch := by
  intro i s t s' t' hi hcfg hanswers he he'
  obtain ⟨-, rfl⟩ := exec_next i s t hi he
  obtain ⟨-, rfl⟩ := exec_next i s' t' hi he'
  rw [← hcfg]
  exact State.runPlan_congr hanswers

end Sys2Proof.Machine
end
